-- ==== Sys2Proof/Word.lean ====
section
/-! DEFINITION. The words the block handles (`30_encoding.md` R60, `00_scope.md` R7). -/

namespace Sys2Proof

/-- A byte: 8 bits, bit 0 least significant (R7). -/
abbrev Byte := BitVec 8

/-- A wire symbol: the 9 bits of the data/command level (bit 8) and the transmitted byte (R64). -/
abbrev Symbol := BitVec 9

/-- A host request word, format H (R61). -/
abbrev Request := BitVec 32

end Sys2Proof
end

