-- ==== Sys2Proof/Machine/Memory.lean ====
section
/-! DEFINITION. A memory of 8192 one-byte cells as a canonical list of (address, byte) pairs. The framebuffer
(`10_state.md` R20) and the panel's display RAM of 128 x 64 cells (R33) are both of this size. -/

namespace Sys2Proof.Machine

/-- Memory contents: the cells that differ from `Mem.blank`, addresses strictly rising. -/
abbrev Mem := List Host.Cell

/-- The number of bytes: `FB_BYTES` (`00_scope.md` R5), and the 128 x 64 panel cells (R33). -/
def Mem.size : Nat := 8192

/-- What an unlisted address reads as. DESIGN CHOICE, unsafe: the spec leaves the contents after reset open
(R20, log entry 4). -/
def Mem.blank : Byte := 0

/-- The byte at an address. -/
def Mem.read : Mem → Nat → Byte
  | [], _ => Mem.blank
  | (k, v) :: t, a => if k = a then v else Mem.read t a

/-- Put a byte at its place in a sorted list; the blank byte is represented by no entry. -/
def Mem.put : Mem → Nat → Byte → Mem
  | [], a, v => if v = Mem.blank then [] else [(a, v)]
  | (k, w) :: t, a, v =>
    if k < a then (k, w) :: Mem.put t a v
    else if k = a then (if v = Mem.blank then t else (a, v) :: t)
    else if v = Mem.blank then (k, w) :: t else (a, v) :: (k, w) :: t

/-- Write one byte. There is no cell at or above `Mem.size`, so such a write reaches none; the block issues none
(`00_scope.md` R8), and for the panel see log entry 13. -/
def Mem.write (m : Mem) (a : Nat) (v : Byte) : Mem :=
  if a < Mem.size then Mem.put m a v else m

/-- The canonical contents that read `f a` at each of the `n` addresses from `a` on. -/
def Mem.build (f : Nat → Byte) : Nat → Nat → Mem
  | _, 0 => []
  | a, n + 1 =>
    if f a = Mem.blank then Mem.build f (a + 1) n else (a, f a) :: Mem.build f (a + 1) n

/-- The canonical contents that read `f a` at every address. -/
def Mem.ofFn (f : Nat → Byte) : Mem := Mem.build f 0 Mem.size

/-- `MemRead(a, n)` of `00_scope.md` R8: the list `[fb[a], ..., fb[a+n-1]]`. -/
def Mem.readRange (m : Mem) (a n : Nat) : List Byte :=
  (List.range n).map fun i => Mem.read m (a + i)

/-- Canonical from address `lo` on: addresses rising and inside the memory, no entry holding the blank byte. -/
def Mem.wfFrom : Nat → Mem → Bool
  | _, [] => true
  | lo, (k, v) :: t => decide (lo ≤ k) && decide (k < Mem.size) && v != Mem.blank && Mem.wfFrom (k + 1) t

/-- The canonical form: equal contents are equal lists. -/
def Mem.wf (m : Mem) : Bool := Mem.wfFrom 0 m

end Sys2Proof.Machine
end

