-- ==== Sys2Proof/Config.lean ====
section
/-! DEFINITION. What a configuration of the block fixes (`00_scope.md` R5), the thirty command names
(`41_controller_commands.md` R121), and the free values. The OPEN parameters are plain data that State carries and no step
changes, so a statement about every state is a statement about every configuration (log entry 1). -/

namespace Sys2Proof

open Sys2Proof.Machine

/-- The thirty controller commands (R121): the twenty of `INIT_LIST` in the order sent, the three of the flush, the
seven named only. -/
inductive Command where
  /-- `LOCK`, R91. -/
  | lock
  /-- `CLOCK`, R92. -/
  | clock
  /-- `MUX`, R93. -/
  | mux
  /-- `OFFSET`, R94. -/
  | offset
  /-- `STARTLINE`, R95. -/
  | startline
  /-- `REMAP`, R96. -/
  | remap
  /-- `GPIO`, R97. -/
  | gpio
  /-- `VDD`, R98. -/
  | vdd
  /-- `ENH_A`, R99. -/
  | enhA
  /-- `CONTRAST`, R100. -/
  | contrast
  /-- `BRIGHTNESS`, R101. -/
  | brightness
  /-- `GREY_DEFAULT`, R102. -/
  | greyDefault
  /-- `PHASE`, R103. -/
  | phase
  /-- `ENH_B`, R104. -/
  | enhB
  /-- `PRECHG_V`, R105. -/
  | prechgV
  /-- `PRECHG_PERIOD`, R106. -/
  | prechgPeriod
  /-- `VCOMH`, R107. -/
  | vcomh
  /-- `MODE_NORMAL`, R108. -/
  | modeNormal
  /-- `PARTIAL_OFF`, R109. -/
  | partialOff
  /-- `SLEEP_OFF`, R110. -/
  | sleepOff
  /-- `SETCOL`, R111. -/
  | setcol
  /-- `SETROW`, R112. -/
  | setrow
  /-- `RAM_WRITE`, R113. -/
  | ramWrite
  /-- `GREY_TABLE`, R114. -/
  | greyTable
  /-- `MODE_INVERSE`, R115. -/
  | modeInverse
  /-- `MODE_ALLON`, R116. -/
  | modeAllon
  /-- `MODE_ALLOFF`, R117. -/
  | modeAlloff
  /-- `PARTIAL_ON`, R118. -/
  | partialOn
  /-- `SLEEP_ON`, R119. -/
  | sleepOn
  /-- `RAM_READ`, R120. -/
  | ramRead
deriving DecidableEq, Repr

/-- The commands, each once. -/
def Command.all : List Command :=
  [
   .lock, .clock, .mux, .offset, .startline, .remap, .gpio, .vdd, .enhA, .contrast, .brightness,
   .greyDefault, .phase, .enhB, .prechgV, .prechgPeriod, .vcomh, .modeNormal, .partialOff,
   .sleepOff, .setcol, .setrow, .ramWrite, .greyTable, .modeInverse, .modeAllon, .modeAlloff,
   .partialOn, .sleepOn, .ramRead]

/-- The place of a command in `Command.all`. -/
def Command.index : Command → Fin 30
  | .lock => 0
  | .clock => 1
  | .mux => 2
  | .offset => 3
  | .startline => 4
  | .remap => 5
  | .gpio => 6
  | .vdd => 7
  | .enhA => 8
  | .contrast => 9
  | .brightness => 10
  | .greyDefault => 11
  | .phase => 12
  | .enhB => 13
  | .prechgV => 14
  | .prechgPeriod => 15
  | .vcomh => 16
  | .modeNormal => 17
  | .partialOff => 18
  | .sleepOff => 19
  | .setcol => 20
  | .setrow => 21
  | .ramWrite => 22
  | .greyTable => 23
  | .modeInverse => 24
  | .modeAllon => 25
  | .modeAlloff => 26
  | .partialOn => 27
  | .sleepOn => 28
  | .ramRead => 29

/-- `INIT_LIST`: the init commands in the order sent (`42_controller_fsm.md` R130). -/
def Command.initList : List Command :=
  [
   .lock, .clock, .mux, .offset, .startline, .remap, .gpio, .vdd, .enhA, .contrast, .brightness,
   .greyDefault, .phase, .enhB, .prechgV, .prechgPeriod, .vcomh, .modeNormal, .partialOff, .sleepOff]

/-! ### Fixed numbers (R5) -/

/-- Pixels per row. -/
def width : Nat := 256
/-- Rows. -/
def height : Nat := 64
/-- Bytes per row, `WIDTH/2`. -/
def stride : Nat := 128
/-- Framebuffer bytes, `WIDTH*HEIGHT/2`. -/
def fbBytes : Nat := 8192
/-- Each hold of the init sequence, a lower bound in milliseconds. -/
def holdMs : Nat := 150

/-- The physical SPI layer: OPEN, read by no rule (`30_encoding.md` R69, decision D24, log entry 20). -/
structure SpiParams where
  hz : Nat
  mode : BitVec 2
  msbFirst : Bool
  cs : Nat
deriving DecidableEq, Repr

/-- The parameters of a configured block (R5). Vectors are indexed by `Command.index`. -/
structure Config where
  /-- `OPC(c)`: OPEN, injective (`30_encoding.md` R67, D12). -/
  opcode : Vector Byte 30
  /-- `NARGS(c)`: OPEN, constrained (D13). -/
  argCount : Vector Nat 30
  /-- `INIT_ARGS(c)`: OPEN but for `MUX`; read for the commands of `INIT_LIST` only (D13). -/
  initArg : Vector (List Byte) 30
  /-- `CHUNK`: the largest transaction of `SEND_BYTES`, 1..8192 (D15). -/
  chunk : Nat
  /-- `COL_START` (`20_memory.md` R47, D14). -/
  colStart : Byte
  /-- `COL_END`. -/
  colEnd : Byte
  /-- `ROW_START`. -/
  rowStart : Byte
  /-- `ROW_END`. -/
  rowEnd : Byte
  /-- `SINGLE_USE`: the buffer is released by one successful flush (D9). -/
  singleUse : Bool
  /-- `FB_RESET`: the framebuffer after block reset, OPEN (D10). -/
  fbReset : Mem
  spi : SpiParams
deriving DecidableEq, Repr

/-- `OPC(c)`. -/
def Config.opc (cfg : Config) (c : Command) : Byte := cfg.opcode.get c.index

/-- `NARGS(c)`. -/
def Config.nargs (cfg : Config) (c : Command) : Nat := cfg.argCount.get c.index

/-- `INIT_ARGS(c)`. -/
def Config.initArgs (cfg : Config) (c : Command) : List Byte := cfg.initArg.get c.index

/-- `NCHUNK = ceil(FB_BYTES / CHUNK)`. -/
def Config.nchunk (cfg : Config) : Nat := (fbBytes + cfg.chunk - 1) / cfg.chunk

/-- The argument bytes of the whole init sequence. -/
def Config.initArgTotal (cfg : Config) : Nat :=
  (Command.initList.map fun c => (cfg.initArgs c).length).sum

/-- The constraints the spec puts on the OPEN parameters: `OPC` injective (R67), the argument counts the source fixes
and `INIT_ARGS(MUX) = [63]` (D13, R122), `CHUNK` in 1..8192 (D15), the window of R47, `len(INIT_PROG) < 2^14`
(`10_state.md` R23), `FB_RESET` a memory. -/
def Config.wf (cfg : Config) : Bool :=
  decide (Command.all.map cfg.opc).Nodup
  && cfg.nargs .lock == 1 && cfg.nargs .mux == 1
  && cfg.nargs .setcol == 2 && cfg.nargs .setrow == 2 && cfg.nargs .ramWrite == 0
  && Command.initList.all (fun c => (cfg.initArgs c).length == cfg.nargs c)
  && cfg.initArgs .mux == [63]
  && decide (1 ≤ cfg.chunk) && decide (cfg.chunk ≤ fbBytes)
  && cfg.colEnd.toNat + 1 == cfg.colStart.toNat + stride
  && cfg.rowEnd.toNat + 1 == cfg.rowStart.toNat + height
  && decide (25 + cfg.initArgTotal < 2 ^ 14)
  && Mem.wf cfg.fbReset

/-- The default instantiation DEF-GK of the OPEN parameters (`93_implementation_defined.md` G1, G2) with the decided
defaults of R5. PRESUMED: every opcode byte and every init argument but `MUX [63]` is general knowledge and not in
the source; no statement about every state rests on them (log entry 2). `FB_RESET` is the blank memory here (log entry 4). -/
def Config.defGK : Config where
  opcode := #v[
      0xFD, 0xB3, 0xCA, 0xA2, 0xA1, 0xA0, 0xB5, 0xAB, 0xB4, 0xC1, 0xC7, 0xB9, 0xB1, 0xD1, 0xBB,
      0xB6, 0xBE, 0xA6, 0xA9, 0xAF, 0x15, 0x75, 0x5C, 0xB8, 0xA7, 0xA5, 0xA4, 0xA8, 0xAE, 0x5D]
  argCount := #v[
      1, 1, 1, 1, 1, 2, 1, 1, 2, 1, 1, 0, 1, 2, 1, 1, 1, 0, 0, 0, 2, 2, 0, 15, 0, 0, 0, 2, 0, 0]
  initArg := #v[
      [0x12], [0x91], [0x3F], [0x00], [0x00], [0x14, 0x11], [0x00], [0x01], [0xA0, 0xFD], [0x9F],
      [0x0F], [], [0xE2], [0x82, 0x20], [0x1F], [0x08], [0x07], [], [], [], [], [], [], [], [], [],
      [], [], [], []]
  chunk := 4096
  colStart := 0
  colEnd := 127
  rowStart := 0
  rowEnd := 63
  singleUse := false
  fbReset := []
  spi := { hz := 0, mode := 0, msbFirst := true, cs := 0 }

/-! ### Free values: nothing constrains them; the first argument is the draw number State counts (log entries 5, 6, 22);
of `strayCell` the arguments are the position (log entry 13) -/

/-- Display-RAM byte of a cell after the panel's hardware reset (R33, U6), or while it is out of sync (R194,
U3, U4). -/
opaque Config.freeRam : Nat → Nat → BitVec 8

/-- The six window and pointer bytes (0 to 5: `p_cs, p_ce, p_rs, p_re, p_cc, p_rc`) after the panel's hardware reset, or
while it is out of sync. -/
opaque Config.freeWindow : Nat → Nat → BitVec 8

/-- `p_reg` of the thirty commands, by index, while the panel is out of sync (R194, U2, U3). -/
opaque Config.freeRegs : Nat → Vector (Option (List (BitVec 8))) 30

/-- How many bytes of a failed transaction arrived, before it is bounded by the transaction's length (R48, U4). -/
opaque Config.freePrefix : Nat → Nat

/-- The byte that arrived in place of the last delivered byte of a failed transaction, if it was damaged (R48). -/
opaque Config.freeDamage : Nat → Option (BitVec 8)

/-- Which display-RAM cell, if any, a write to a position outside the 128 x 64 cells reaches, before its address is
brought into range (R50 names none; log entry 13). -/
opaque Config.strayCell : Nat → Nat → Option Nat

end Sys2Proof
end

