-- ==== Sys2Proof/Syntax.lean ====
section
/-! DEFINITION. The forty instructions of `opcode_table.json`: four host operations (level H), six transport primitives
(level T), thirty controller commands (level C). -/

namespace Sys2Proof

/-- One constructor per row of the opcode table. The host operations carry every bit of their request word, the
don't-care bits too, since those are still latched (`30_encoding.md` R63). -/
inductive Instr where
  /-- INIT, `42_controller_fsm.md` R132. -/
  | init (ignored : BitVec 30)
  /-- SETPIX, `43_framebuffer_engine.md` R140. -/
  | setpix (x : BitVec 16) (y : BitVec 14)
  /-- FILL, R141. -/
  | fill (ignored : BitVec 30)
  /-- FLUSH, R142. -/
  | flush (ignored : BitVec 30)
  /-- SEND_COMMAND, `40_bus_transport.md` R80. -/
  | sendCommand (c : Byte)
  /-- SEND_DATA, R81. -/
  | sendData (b : Byte)
  /-- SEND_BYTES, R82: start address and length. -/
  | sendBytes (a n : Nat)
  /-- RST_LOW, R83. -/
  | rstLow
  /-- RST_HIGH, R84. -/
  | rstHigh
  /-- WAIT, R85. -/
  | wait
  /-- LOCK, R91. -/
  | lock (args : List Byte)
  /-- CLOCK, R92. -/
  | clock (args : List Byte)
  /-- MUX, R93. -/
  | mux (args : List Byte)
  /-- OFFSET, R94. -/
  | offset (args : List Byte)
  /-- STARTLINE, R95. -/
  | startline (args : List Byte)
  /-- REMAP, R96. -/
  | remap (args : List Byte)
  /-- GPIO, R97. -/
  | gpio (args : List Byte)
  /-- VDD, R98. -/
  | vdd (args : List Byte)
  /-- ENH_A, R99. -/
  | enhA (args : List Byte)
  /-- CONTRAST, R100. -/
  | contrast (args : List Byte)
  /-- BRIGHTNESS, R101. -/
  | brightness (args : List Byte)
  /-- GREY_DEFAULT, R102. -/
  | greyDefault (args : List Byte)
  /-- PHASE, R103. -/
  | phase (args : List Byte)
  /-- ENH_B, R104. -/
  | enhB (args : List Byte)
  /-- PRECHG_V, R105. -/
  | prechgV (args : List Byte)
  /-- PRECHG_PERIOD, R106. -/
  | prechgPeriod (args : List Byte)
  /-- VCOMH, R107. -/
  | vcomh (args : List Byte)
  /-- MODE_NORMAL, R108. -/
  | modeNormal (args : List Byte)
  /-- PARTIAL_OFF, R109. -/
  | partialOff (args : List Byte)
  /-- SLEEP_OFF, R110. -/
  | sleepOff (args : List Byte)
  /-- SETCOL, R111. -/
  | setcol (args : List Byte)
  /-- SETROW, R112. -/
  | setrow (args : List Byte)
  /-- RAM_WRITE, R113. -/
  | ramWrite (args : List Byte)
  /-- GREY_TABLE, R114. -/
  | greyTable (args : List Byte)
  /-- MODE_INVERSE, R115. -/
  | modeInverse (args : List Byte)
  /-- MODE_ALLON, R116. -/
  | modeAllon (args : List Byte)
  /-- MODE_ALLOFF, R117. -/
  | modeAlloff (args : List Byte)
  /-- PARTIAL_ON, R118. -/
  | partialOn (args : List Byte)
  /-- SLEEP_ON, R119. -/
  | sleepOn (args : List Byte)
  /-- RAM_READ, R120. -/
  | ramRead (args : List Byte)
deriving DecidableEq, Repr

/-- The level-C instruction of a command with an argument list (`41_controller_commands.md` R90). -/
def Instr.ofCommand (c : Command) (args : List Byte) : Instr :=
  match c with
  | .lock => .lock args
  | .clock => .clock args
  | .mux => .mux args
  | .offset => .offset args
  | .startline => .startline args
  | .remap => .remap args
  | .gpio => .gpio args
  | .vdd => .vdd args
  | .enhA => .enhA args
  | .contrast => .contrast args
  | .brightness => .brightness args
  | .greyDefault => .greyDefault args
  | .phase => .phase args
  | .enhB => .enhB args
  | .prechgV => .prechgV args
  | .prechgPeriod => .prechgPeriod args
  | .vcomh => .vcomh args
  | .modeNormal => .modeNormal args
  | .partialOff => .partialOff args
  | .sleepOff => .sleepOff args
  | .setcol => .setcol args
  | .setrow => .setrow args
  | .ramWrite => .ramWrite args
  | .greyTable => .greyTable args
  | .modeInverse => .modeInverse args
  | .modeAllon => .modeAllon args
  | .modeAlloff => .modeAlloff args
  | .partialOn => .partialOn args
  | .sleepOn => .sleepOn args
  | .ramRead => .ramRead args

/-- The command and the arguments of a level-C instruction; none for levels H and T. -/
def Instr.command? : Instr → Option (Command × List Byte)
  | .init _ => none
  | .setpix _ _ => none
  | .fill _ => none
  | .flush _ => none
  | .sendCommand _ => none
  | .sendData _ => none
  | .sendBytes _ _ => none
  | .rstLow => none
  | .rstHigh => none
  | .wait => none
  | .lock args => some (.lock, args)
  | .clock args => some (.clock, args)
  | .mux args => some (.mux, args)
  | .offset args => some (.offset, args)
  | .startline args => some (.startline, args)
  | .remap args => some (.remap, args)
  | .gpio args => some (.gpio, args)
  | .vdd args => some (.vdd, args)
  | .enhA args => some (.enhA, args)
  | .contrast args => some (.contrast, args)
  | .brightness args => some (.brightness, args)
  | .greyDefault args => some (.greyDefault, args)
  | .phase args => some (.phase, args)
  | .enhB args => some (.enhB, args)
  | .prechgV args => some (.prechgV, args)
  | .prechgPeriod args => some (.prechgPeriod, args)
  | .vcomh args => some (.vcomh, args)
  | .modeNormal args => some (.modeNormal, args)
  | .partialOff args => some (.partialOff, args)
  | .sleepOff args => some (.sleepOff, args)
  | .setcol args => some (.setcol, args)
  | .setrow args => some (.setrow, args)
  | .ramWrite args => some (.ramWrite, args)
  | .greyTable args => some (.greyTable, args)
  | .modeInverse args => some (.modeInverse, args)
  | .modeAllon args => some (.modeAllon, args)
  | .modeAlloff args => some (.modeAlloff, args)
  | .partialOn args => some (.partialOn, args)
  | .sleepOn args => some (.sleepOn, args)
  | .ramRead args => some (.ramRead, args)

/-- Whether an instruction is a host operation, level H. -/
def Instr.isHostOp : Instr → Bool
  | .init _ => true
  | .setpix _ _ => true
  | .fill _ => true
  | .flush _ => true
  | .sendCommand _ | .sendData _ | .sendBytes _ _ | .rstLow | .rstHigh | .wait
  | .lock _ | .clock _ | .mux _ | .offset _ | .startline _ | .remap _ | .gpio _ | .vdd _ | .enhA _
  | .contrast _ | .brightness _ | .greyDefault _ | .phase _ | .enhB _ | .prechgV _
  | .prechgPeriod _ | .vcomh _ | .modeNormal _ | .partialOff _ | .sleepOff _ | .setcol _
  | .setrow _ | .ramWrite _ | .greyTable _ | .modeInverse _ | .modeAllon _ | .modeAlloff _
  | .partialOn _ | .sleepOn _ | .ramRead _ => false

/-- The assembler's mnemonic (`30_encoding.md` R70). -/
def Instr.asmName : Instr → String
  | .init _ => "INIT"
  | .setpix _ _ => "SETPIX"
  | .fill _ => "FILL"
  | .flush _ => "FLUSH"
  | .sendCommand _ => "CMD"
  | .sendData _ => "DAT"
  | .sendBytes _ _ => "BYTES"
  | .rstLow => "RSTL"
  | .rstHigh => "RSTH"
  | .wait => "WAIT"
  | .lock _ => "LOCK"
  | .clock _ => "CLOCK"
  | .mux _ => "MUX"
  | .offset _ => "OFFSET"
  | .startline _ => "STARTLINE"
  | .remap _ => "REMAP"
  | .gpio _ => "GPIO"
  | .vdd _ => "VDD"
  | .enhA _ => "ENH_A"
  | .contrast _ => "CONTRAST"
  | .brightness _ => "BRIGHTNESS"
  | .greyDefault _ => "GREY_DEFAULT"
  | .phase _ => "PHASE"
  | .enhB _ => "ENH_B"
  | .prechgV _ => "PRECHG_V"
  | .prechgPeriod _ => "PRECHG_PERIOD"
  | .vcomh _ => "VCOMH"
  | .modeNormal _ => "MODE_NORMAL"
  | .partialOff _ => "PARTIAL_OFF"
  | .sleepOff _ => "SLEEP_OFF"
  | .setcol _ => "SETCOL"
  | .setrow _ => "SETROW"
  | .ramWrite _ => "RAM_WRITE"
  | .greyTable _ => "GREY_TABLE"
  | .modeInverse _ => "MODE_INVERSE"
  | .modeAllon _ => "MODE_ALLON"
  | .modeAlloff _ => "MODE_ALLOFF"
  | .partialOn _ => "PARTIAL_ON"
  | .sleepOn _ => "SLEEP_ON"
  | .ramRead _ => "RAM_READ"

end Sys2Proof
end

