-- ==== Sys2Proof/WellFormed.lean ====
section
/-! DEFINITION. Which instructions are well formed under a configuration. -/

namespace Sys2Proof

/-- A range `SEND_BYTES a, n` the block may be given: `1 <= n <= CHUNK` and `a + n <= 8192` (`40_bus_transport.md` R82). -/
def rangeOk (cfg : Config) (a n : Nat) : Bool :=
  decide (1 ≤ n) && decide (n ≤ cfg.chunk) && decide (a + n ≤ fbBytes)

/-- Well-formedness: the range of `SEND_BYTES`, and exactly `NARGS(c)` arguments for a command
(`30_encoding.md` R65). Every request word and every byte is legal (R61, R68). -/
def Instr.wf (cfg : Config) : Instr → Bool
  | .init _ => true
  | .setpix _ _ => true
  | .fill _ => true
  | .flush _ => true
  | .sendCommand _ => true
  | .sendData _ => true
  | .sendBytes a n => rangeOk cfg a n
  | .rstLow => true
  | .rstHigh => true
  | .wait => true
  | .lock args => args.length == cfg.nargs .lock
  | .clock args => args.length == cfg.nargs .clock
  | .mux args => args.length == cfg.nargs .mux
  | .offset args => args.length == cfg.nargs .offset
  | .startline args => args.length == cfg.nargs .startline
  | .remap args => args.length == cfg.nargs .remap
  | .gpio args => args.length == cfg.nargs .gpio
  | .vdd args => args.length == cfg.nargs .vdd
  | .enhA args => args.length == cfg.nargs .enhA
  | .contrast args => args.length == cfg.nargs .contrast
  | .brightness args => args.length == cfg.nargs .brightness
  | .greyDefault args => args.length == cfg.nargs .greyDefault
  | .phase args => args.length == cfg.nargs .phase
  | .enhB args => args.length == cfg.nargs .enhB
  | .prechgV args => args.length == cfg.nargs .prechgV
  | .prechgPeriod args => args.length == cfg.nargs .prechgPeriod
  | .vcomh args => args.length == cfg.nargs .vcomh
  | .modeNormal args => args.length == cfg.nargs .modeNormal
  | .partialOff args => args.length == cfg.nargs .partialOff
  | .sleepOff args => args.length == cfg.nargs .sleepOff
  | .setcol args => args.length == cfg.nargs .setcol
  | .setrow args => args.length == cfg.nargs .setrow
  | .ramWrite args => args.length == cfg.nargs .ramWrite
  | .greyTable args => args.length == cfg.nargs .greyTable
  | .modeInverse args => args.length == cfg.nargs .modeInverse
  | .modeAllon args => args.length == cfg.nargs .modeAllon
  | .modeAlloff args => args.length == cfg.nargs .modeAlloff
  | .partialOn args => args.length == cfg.nargs .partialOn
  | .sleepOn args => args.length == cfg.nargs .sleepOn
  | .ramRead args => args.length == cfg.nargs .ramRead

end Sys2Proof
end

