-- ==== Sys2Proof/Decode.lean ====
section
/-! DEFINITION. The three encodings (`30_encoding.md`): the request word (format H), the wire symbols of a transaction
and of a command frame (formats W and C), and the events of format G. A decoder per level, total, rejecting by name;
then the encoder. -/

namespace Sys2Proof

open Sys2Proof.Machine

/-! ### Wire symbols (R64) -/

/-- The wire symbol of a byte sent at a data/command level; the level is the most significant bit. -/
def mkSymbol (dc : Bool) (b : Byte) : Symbol := BitVec.ofBool dc ++ b

/-- The data/command level of a symbol. -/
def symDc (y : Symbol) : Bool := y.getLsbD 8

/-- The byte of a symbol. -/
def symByte (y : Symbol) : Byte := y.extractLsb' 0 8

/-- The command whose opcode a byte is, if any: `b = OPC(c)` of `20_memory.md` R49. -/
def Config.command? (cfg : Config) (b : Byte) : Option Command :=
  Command.all.find? fun c => cfg.opc c == b

/-! ### What is decoded, and why a decoding is rejected -/

/-- The encoded form of one instruction, by format (R60). -/
inductive Code where
  /-- Format H: a host request word. -/
  | word (w : Request)
  /-- Format C: the symbols of a command frame. -/
  | frame (ys : List Symbol)
  /-- Format W: the symbols of one transaction. `pos` is `some k` when the latest command byte before it was
  `RAM_WRITE` and `k` display-RAM bytes have followed: position in the stream, not any bit, tells SEND_BYTES
  from SEND_DATA (`opcode_table.json`). -/
  | run (pos : Option Nat) (ys : List Symbol)
  /-- Format G: the reset line is driven. -/
  | rst (level : Bool)
  /-- Format G: a hold. -/
  | hold (ms : Nat)
deriving DecidableEq, Repr

/-- Why a code is no instruction. -/
inductive Reject where
  /-- A frame or transaction of no symbols. -/
  | empty
  /-- A frame that begins with a data symbol. -/
  | dataFirst
  /-- A first byte that is no command's opcode (R68). -/
  | unknownOpcode
  /-- Fewer argument symbols than `NARGS(c)` (R68). -/
  | shortFrame
  /-- Symbols left over after the frame's arguments (R68). -/
  | longFrame
  /-- Several symbols in one transaction outside the RAM stream: commands and arguments travel alone (D16). -/
  | longRun
  /-- A command symbol inside a transaction of several symbols. -/
  | commandInRun
  /-- A stream that would run past the framebuffer's 8192 bytes (R82). -/
  | streamOverrun
  /-- A hold of another length than `T_HOLD_MS` (R72). -/
  | holdLength
deriving DecidableEq, Repr

/-- What a decoder answers. -/
inductive Decoded where
  | instr (i : Instr)
  | reject (r : Reject)
deriving DecidableEq, Repr

/-- The instruction a decoder gives, if any. -/
def Decoded.instr? : Decoded → Option Instr
  | .instr i => some i
  | .reject _ => none

/-! ### Format H -/

/-- The operation field of a request word, bits 31:30 (R61). -/
def reqOp (w : Request) : BitVec 2 := w.extractLsb' 30 2

/-- The row field, bits 29:16 (R61). -/
def reqY (w : Request) : BitVec 14 := w.extractLsb' 16 14

/-- The column field, bits 15:0 (R61). -/
def reqX (w : Request) : BitVec 16 := w.extractLsb' 0 16

/-- Bits 29:0, which INIT, FILL and FLUSH ignore (R63). -/
def reqLow (w : Request) : BitVec 30 := w.extractLsb' 0 30

/-- The request decoder: total, every word one operation (R61). -/
def decodeRequest (w : Request) : Instr :=
  if reqOp w = 0b00#2 then .init (reqLow w)
  else if reqOp w = 0b01#2 then .setpix (reqX w) (reqY w)
  else if reqOp w = 0b10#2 then .fill (reqLow w)
  else .flush (reqLow w)

/-! ### Formats W, C and G -/

/-- The next `n` data symbols as argument bytes, and what is left; none where a symbol is missing or is a command. -/
def decodeArgs : Nat → List Symbol → Option (List Byte × List Symbol)
  | 0, ys => some ([], ys)
  | _ + 1, [] => none
  | n + 1, y :: ys =>
    if symDc y then (decodeArgs n ys).map fun (as, r) => (symByte y :: as, r) else none

/-- A command frame off the front of a symbol list: its end is known from the opcode alone (R66). -/
def decodeFrame (cfg : Config) : List Symbol → Decoded × List Symbol
  | [] => (.reject .empty, [])
  | y :: ys =>
    if symDc y then (.reject .dataFirst, ys)
    else match cfg.command? (symByte y) with
      | none => (.reject .unknownOpcode, ys)
      | some c =>
        match decodeArgs (cfg.nargs c) ys with
        | none => (.reject .shortFrame, ys)
        | some (as, r) => (.instr (Instr.ofCommand c as), r)

/-- A transaction of one symbol: SEND_COMMAND at level 0; at level 1 SEND_DATA, or in the RAM stream SEND_BYTES of
one byte. -/
def decodeSymbol (pos : Option Nat) (y : Symbol) : Decoded :=
  if symDc y then
    match pos with
    | none => .instr (.sendData (symByte y))
    | some a => if a + 1 ≤ fbBytes then .instr (.sendBytes a 1) else .reject .streamOverrun
  else .instr (.sendCommand (symByte y))

/-- A transaction (R64): one symbol, or a run of data symbols in the RAM stream (log entry 24). -/
def decodeRun (pos : Option Nat) : List Symbol → Decoded
  | [] => .reject .empty
  | [y] => decodeSymbol pos y
  | y :: ys =>
    match pos with
    | none => .reject .longRun
    | some a =>
      if (y :: ys).all symDc then
        if a + (y :: ys).length ≤ fbBytes then .instr (.sendBytes a (y :: ys).length)
        else .reject .streamOverrun
      else .reject .commandInRun

/-- The decoder, total on every code. -/
def decode (cfg : Config) : Code → Decoded
  | .word w => .instr (decodeRequest w)
  | .frame ys =>
    match decodeFrame cfg ys with
    | (.instr i, []) => .instr i
    | (.instr _, _ :: _) => .reject .longFrame
    | (.reject r, _) => .reject r
  | .run pos ys => decodeRun pos ys
  | .rst level => .instr (if level then .rstHigh else .rstLow)
  | .hold ms => if ms = holdMs then .instr .wait else .reject .holdLength

/-! ### The encoder -/

/-- A request word from its operation and its low bits (R61). -/
def mkRequest (op : BitVec 2) (low : BitVec 30) : Request := op ++ low

/-- The symbols of a frame (R65). -/
def encodeFrame (cfg : Config) (c : Command) (args : List Byte) : List Symbol :=
  mkSymbol false (cfg.opc c) :: args.map (mkSymbol true)

/-- The encoded form of an instruction. A SEND_BYTES transaction carries framebuffer bytes, so its symbols depend on
`fb`; its address is its position in the stream. -/
def encode (cfg : Config) (fb : Mem) : Instr → Code
  | .init low => .word (mkRequest 0b00#2 low)
  | .setpix x y => .word (mkRequest 0b01#2 (y ++ x))
  | .fill low => .word (mkRequest 0b10#2 low)
  | .flush low => .word (mkRequest 0b11#2 low)
  | .sendCommand c => .run none [mkSymbol false c]
  | .sendData b => .run none [mkSymbol true b]
  | .sendBytes a n => .run (some a) ((Mem.readRange fb a n).map (mkSymbol true))
  | .rstLow => .rst false
  | .rstHigh => .rst true
  | .wait => .hold holdMs
  | .lock args => .frame (encodeFrame cfg .lock args)
  | .clock args => .frame (encodeFrame cfg .clock args)
  | .mux args => .frame (encodeFrame cfg .mux args)
  | .offset args => .frame (encodeFrame cfg .offset args)
  | .startline args => .frame (encodeFrame cfg .startline args)
  | .remap args => .frame (encodeFrame cfg .remap args)
  | .gpio args => .frame (encodeFrame cfg .gpio args)
  | .vdd args => .frame (encodeFrame cfg .vdd args)
  | .enhA args => .frame (encodeFrame cfg .enhA args)
  | .contrast args => .frame (encodeFrame cfg .contrast args)
  | .brightness args => .frame (encodeFrame cfg .brightness args)
  | .greyDefault args => .frame (encodeFrame cfg .greyDefault args)
  | .phase args => .frame (encodeFrame cfg .phase args)
  | .enhB args => .frame (encodeFrame cfg .enhB args)
  | .prechgV args => .frame (encodeFrame cfg .prechgV args)
  | .prechgPeriod args => .frame (encodeFrame cfg .prechgPeriod args)
  | .vcomh args => .frame (encodeFrame cfg .vcomh args)
  | .modeNormal args => .frame (encodeFrame cfg .modeNormal args)
  | .partialOff args => .frame (encodeFrame cfg .partialOff args)
  | .sleepOff args => .frame (encodeFrame cfg .sleepOff args)
  | .setcol args => .frame (encodeFrame cfg .setcol args)
  | .setrow args => .frame (encodeFrame cfg .setrow args)
  | .ramWrite args => .frame (encodeFrame cfg .ramWrite args)
  | .greyTable args => .frame (encodeFrame cfg .greyTable args)
  | .modeInverse args => .frame (encodeFrame cfg .modeInverse args)
  | .modeAllon args => .frame (encodeFrame cfg .modeAllon args)
  | .modeAlloff args => .frame (encodeFrame cfg .modeAlloff args)
  | .partialOn args => .frame (encodeFrame cfg .partialOn args)
  | .sleepOn args => .frame (encodeFrame cfg .sleepOn args)
  | .ramRead args => .frame (encodeFrame cfg .ramRead args)

/-! ### The opcode table's words -/

/-- The instruction a first wire symbol stands for with every operand symbol a data byte of zero: the frame of a
command when its byte is that command's opcode, else the transport primitive (log entry 8). -/
def decodeFirstSymbol (cfg : Config) (y : Symbol) : Decoded :=
  if symDc y then decodeSymbol none y
  else match cfg.command? (symByte y) with
    | some c => decode cfg (.frame (y :: List.replicate (cfg.nargs c) (mkSymbol true 0)))
    | none => decodeSymbol none y

/-- The instruction the decoders read from a word of the opcode table: 32 bits are a request word, up to 16 bits hold
a 9-bit wire symbol with zeros above it. The opcodes are those of DEF-GK, as in the table. -/
def decodeTableWord (nbits w : Nat) : Option Instr :=
  if nbits = 32 then
    if w < 2 ^ 32 then (decode Config.defGK (.word (BitVec.ofNat 32 w))).instr? else none
  else if 9 ≤ nbits ∧ nbits ≤ 16 ∧ w < 2 ^ 9 then
    (decodeFirstSymbol Config.defGK (BitVec.ofNat 9 w)).instr?
  else none

end Sys2Proof
end

