-- ==== Sys2Proof/Machine/State.lean ====
section
/-! DEFINITION. The state of the machine as plain data (`10_state.md`): the block, its wire trace, the panel shadow, the
host's and the bus environment's inputs; why a step can stop; the state after reset. -/

namespace Sys2Proof.Machine

/-- `ctrl` (R21): `UNINIT = 0`, `ACTIVE = 1`. -/
inductive Ctrl where
  | uninit
  | active
deriving DecidableEq, Repr

/-- `phase` (R22): `IDLE = 0`, `RUN_INIT = 1`, `RUN_FLUSH = 2`. -/
inductive Phase where
  | idle
  | runInit
  | runFlush
deriving DecidableEq, Repr

/-- The response codes (`60_exceptions.md` R160). Code 7 is reserved and never produced (U14, log entry
12). -/
inductive Response where
  /-- 0 `OK`. -/
  | ok
  /-- 1 `BoundsError` (R161). -/
  | bounds
  /-- 2 `ConfigurationError` (R162). -/
  | configuration
  /-- 3 `TransferError` (R163). -/
  | transfer
  /-- 4 `AcquisitionError`: reserved for a wrapper, never written by this block (R164). -/
  | acquisition
  /-- 5 `StateError` (R165). -/
  | state
  /-- 6 `ReleasedError` (R166). -/
  | released
deriving DecidableEq, Repr

/-- The result of a transaction that returned (`00_scope.md` R9). -/
inductive TxResult where
  | ok
  | fail
deriving DecidableEq, Repr

/-- The bus environment's answer to a `BusWrite` (R10): it returns `ok`, returns `fail`, or never returns. -/
inductive BusAnswer where
  | ok
  | fail
  | hang
deriving DecidableEq, Repr

/-- A wire event (R9). -/
inductive Event where
  /-- `RST(l)`: the reset line is driven to a level. -/
  | rst (level : Bool)
  /-- `DC(l)`: the data/command line is driven to a level. -/
  | dc (level : Bool)
  /-- `TX(bs, r)`: one transaction and its result. -/
  | tx (bs : List Byte) (r : TxResult)
  /-- `WAIT(t)`: nothing for at least `t` milliseconds. -/
  | wait (ms : Nat)
deriving DecidableEq, Repr

/-- `p_cfg` (R33). -/
inductive PanelCfg where
  | undef
  | active
deriving DecidableEq, Repr

/-- `p_pend` (R33): a command whose `need` argument bytes have not all arrived, with those `got` so far. -/
structure Pend where
  cmd : Command
  need : Nat
  got : List Byte
deriving DecidableEq, Repr

/-- The panel shadow (R33). The block never reads it. -/
structure Panel where
  /-- `p_cfg`. -/
  cfgd : PanelCfg
  /-- `p_reg(c)`: the argument list last received for each command, indexed by `Command.index`. -/
  reg : Vector (Option (List Byte)) 30
  /-- `p_pend`. -/
  pend : Option Pend
  /-- `p_stream`. -/
  stream : Bool
  /-- `p_sync`. -/
  sync : Bool
  /-- `p_cs`, the window's first column. -/
  cs : Byte
  /-- `p_ce`, its last column. -/
  ce : Byte
  /-- `p_rs`, its first row. -/
  rs : Byte
  /-- `p_re`, its last row. -/
  re : Byte
  /-- `p_cc`, the write pointer's column. -/
  cc : Byte
  /-- `p_rc`, the write pointer's row. -/
  rc : Byte
  /-- `p_ram`: cell (column c < 128, row r < 64) at address `128*r + c`. -/
  ram : Mem
deriving DecidableEq, Repr

/-- The bus environment (R10), an agent of its own: its answers in order, and its answer for ever after them. -/
structure BusEnv where
  script : List BusAnswer
  rest : BusAnswer
deriving DecidableEq, Repr

/-- A move of the host (`00_scope.md` R14). -/
inductive HostMove where
  /-- Offer a request word, behind those already offered. -/
  | offer (w : Request)
  /-- Drive the `cancel` input to a level. -/
  | cancel (level : Bool)
  /-- Assert block reset (`70_reset_and_hazards.md` R180). -/
  | reset
  /-- No move: the block takes a step. -/
  | pass
deriving DecidableEq, Repr

/-- The state. -/
structure State where
  /-- The configuration: the parameters of `00_scope.md` R5. No step changes it (R53). -/
  cfg : Config
  /-- `fb` (R20). -/
  fb : Mem
  /-- `ctrl` (R21). -/
  ctrl : Ctrl
  /-- `phase` (R22). -/
  phase : Phase
  /-- `seq`, the program counter (R23). -/
  seq : BitVec 14
  /-- `dc`, the data/command line (R24). -/
  dc : Bool
  /-- `prst`, the panel's reset line (R25). -/
  prst : Bool
  /-- `err` (R26). -/
  err : Response
  /-- `err_seq` (R27). -/
  errSeq : BitVec 14
  /-- `fault_log` (R28). -/
  faultLog : Bool
  /-- `fb_live` (R29). -/
  fbLive : Bool
  /-- `rq_op` (R30). -/
  rqOp : BitVec 2
  /-- `rq_x` (R30). -/
  rqX : BitVec 16
  /-- `rq_y` (R30). -/
  rqY : BitVec 14
  /-- A `BusWrite` that never returned is outstanding (`40_bus_transport.md` R87, log entry 9). -/
  hung : Bool
  /-- The wire trace of this run, oldest event first: ghost state (`00_scope.md` R9). -/
  trace : List Event
  /-- The responses presented in this run, oldest first (R11, `60_exceptions.md` R169, log entry 16). -/
  rsps : List Response
  /-- The panel shadow (R33). -/
  panel : Panel
  /-- The `cancel` input's level (R32, R167). -/
  cancel : Bool
  /-- The request words the host offers, in order; the first is on the request port (R32, R51). -/
  reqs : List Request
  /-- The host's coming moves; empty means the block alone acts from now on (R14, log entry 7). -/
  host : List HostMove
  /-- The bus environment (R10). -/
  bus : BusEnv
  /-- The model's own bench port: an instruction of level T or C to be run next (log entry 8). -/
  issue : Option Instr
  /-- The model's own counter of free values drawn (log entry 5). -/
  draws : Nat
deriving DecidableEq, Repr

/-- Why the machine stops. -/
inductive Fault where
  /-- A `BusWrite` is outstanding that never returns: no instruction runs and the block has no step until block reset
  (R87, R193, U9). Raised by every instruction and by the block's step. Safe: the hardware is stuck too. -/
  | busHang
  /-- SEND_BYTES of a range past the framebuffer's 8192 bytes, an address that does not exist (`00_scope.md` R8).
  Raised by SEND_BYTES. Safe: the block never issues one. -/
  | fbRange
  /-- The sequence counter is past the end of its primitive list. Raised by the step's fetch. Safe: it is reached from no
  state that `10_state.md` R23 allows. -/
  | seqOverrun
deriving DecidableEq, Repr

/-- Why an instruction has no meaning. -/
inductive Refusal where
  /-- Not modelled yet, by the table's mnemonic. Raised by a refused arm of exec only. Safe. -/
  | notModelled (mnemonic : String)
  /-- SEND_BYTES of no byte or of more than `CHUNK`: not an operand R82 allows. Raised by SEND_BYTES. Safe. -/
  | chunkLength
deriving DecidableEq, Repr

/-- What the next step is to do. -/
inductive Fetched where
  /-- Run an instruction from a state. -/
  | instr (i : Instr) (s : State)
  /-- No instruction: a host move, a completion, or waiting. -/
  | quiet (s : State)
  /-- No step. -/
  | stuck (f : Fault)
deriving DecidableEq, Repr

/-- The panel shadow the reset state starts from. The spec leaves the window, the pointer and the RAM arbitrary (R34);
zero here. DESIGN CHOICE, unsafe (log entry 4). -/
def Panel.initial : Panel where
  cfgd := .undef
  reg := Vector.replicate 30 none
  pend := none
  stream := false
  sync := true
  cs := 0
  ce := 0
  rs := 0
  re := 0
  cc := 0
  rc := 0
  ram := []

/-- The state right after block reset of a block with a given configuration (R34, R180), nothing offered by the host. -/
def State.resetWith (cfg : Config) : State where
  cfg := cfg
  fb := cfg.fbReset
  ctrl := .uninit
  phase := .idle
  seq := 0
  dc := true
  prst := true
  err := .ok
  errSeq := 0
  faultLog := false
  fbLive := true
  rqOp := 0
  rqX := 0
  rqY := 0
  hung := false
  trace := []
  rsps := []
  panel := Panel.initial
  cancel := false
  reqs := []
  host := []
  bus := { script := [], rest := .ok }
  issue := none
  draws := 0

/-- The state after reset under the default configuration (log entries 2, 3, 4). -/
def State.reset : State := State.resetWith Config.defGK

end Sys2Proof.Machine
end

