-- ==== Sys2Proof/Machine/Panel.lean ====
section
/-! DEFINITION. The panel shadow's receiver (`20_memory.md` R48 to R50): symbols, parser, display-RAM writes. -/

namespace Sys2Proof.Machine

/-- Window, pointer and display RAM become arbitrary: the free values of draw `n`. -/
def Panel.freeContents (n : Nat) (p : Panel) : Panel :=
  { p with
    cs := Config.freeWindow n 0
    ce := Config.freeWindow n 1
    rs := Config.freeWindow n 2
    re := Config.freeWindow n 3
    cc := Config.freeWindow n 4
    rc := Config.freeWindow n 5
    ram := Mem.ofFn (Config.freeRam n) }

/-- The panel after its hardware reset, or after block reset: `p_cfg = P_UNDEF`, registers and pending none, in sync, the
rest arbitrary (`10_state.md` R33, U6). -/
def Panel.hardReset (n : Nat) : Panel := Panel.initial.freeContents n

/-- Nothing on the panel may be relied on: its registers, window, pointer and RAM are arbitrary. -/
def Panel.unreliable (n : Nat) (p : Panel) : Panel :=
  { p.freeContents n with reg := Config.freeRegs n }

/-- While the panel is out of sync its contents are any value (`30_encoding.md` R68, U3; `70_reset_and_hazards.md` R194; log
entry 22). -/
def Panel.settle (n : Nat) (p : Panel) : Panel := if p.sync then p else p.unreliable n

/-- `p_reg(c)` (R33). -/
def Panel.regOf (p : Panel) (c : Command) : Option (List Byte) := p.reg.get c.index

/-- `p_reg(c) <- as`. -/
def Panel.setReg (p : Panel) (c : Command) (as : List Byte) : Panel :=
  { p with reg := p.reg.set c.index (some as) }

/-- The address of cell (column, row) in `Panel.ram`. -/
def cellAddr (col row : Nat) : Nat := 128 * row + col

/-- `p_ram[col][row]`. -/
def Panel.cell (p : Panel) (col row : Nat) : Byte := Mem.read p.ram (cellAddr col row)

/-- The cell that a write to position (column, row) reaches, by address. The spec names none for a position outside the
128 x 64 cells: which one, if any, is free (log entry 13). -/
def reachedCell (col row : Nat) : Option Nat :=
  if col < 128 ∧ row < 64 then some (cellAddr col row) else (Config.strayCell col row).map (· % fbBytes)

/-- `p_ram[col][row] <- b`. -/
def Panel.setCell (p : Panel) (col row : Nat) (b : Byte) : Panel :=
  match reachedCell col row with
  | some a => { p with ram := Mem.write p.ram a b }
  | none => p

/-- The pointer's advance of R50, column first. The comparison is of naturals (log entry 18): past the window's last column the pointer
returns to the first and moves to the next row, past the last row to the first row. -/
def Panel.advance (p : Panel) : Panel :=
  if p.cc.toNat + 1 > p.ce.toNat then
    if p.rc.toNat + 1 > p.re.toNat then { p with cc := p.cs, rc := p.rs }
    else { p with cc := p.cs, rc := p.rc + 1 }
  else { p with cc := p.cc + 1 }

/-- A display-RAM data byte (R50). -/
def Panel.ramByte (b : Byte) (p : Panel) : Panel :=
  (p.setCell p.cc.toNat p.rc.toNat b).advance

/-- The effect of a command whose arguments are complete (R49): recorded in `p_reg`; SETCOL and SETROW set the window
and the pointer. -/
def Panel.apply (c : Command) (as : List Byte) (p : Panel) : Panel :=
  match c, as with
  | .setcol, [s, e] => { p.setReg .setcol as with cs := s, ce := e, cc := s }
  | .setrow, [s, e] => { p.setReg .setrow as with rs := s, re := e, rc := s }
  | _, _ => p.setReg c as

/-- A symbol at level 0 (R49). -/
def Panel.commandByte (cfg : Config) (b : Byte) (p : Panel) : Panel :=
  let q := if p.pend.isSome then { p with sync := false } else p
  match cfg.command? b with
  | some c =>
    let q := { q with stream := decide (c = Command.ramWrite) }
    if cfg.nargs c = 0 then { q.apply c [] with pend := none }
    else { q with pend := some { cmd := c, need := cfg.nargs c, got := [] } }
  | none => { q with sync := false, pend := none, stream := false }

/-- A symbol at level 1 (R49). -/
def Panel.dataByte (b : Byte) (p : Panel) : Panel :=
  match p.pend with
  | some d =>
    if d.got.length + 1 = d.need then { p.apply d.cmd (d.got ++ [b]) with pend := none }
    else { p with pend := some { d with got := d.got ++ [b] } }
  | none => if p.stream then p.ramByte b else { p with sync := false }

/-- One wire symbol `(dc, b)`, with draw `n`: the parser's rule, and arbitrary contents if that leaves it out of sync. -/
def Panel.symbol (cfg : Config) (dc : Bool) (n : Nat) (p : Panel) (b : Byte) : Panel :=
  (if dc then p.dataByte b else p.commandByte cfg b).settle n

/-- The bytes of a transaction, in order, at one level (R48). -/
def Panel.deliver (cfg : Config) (dc : Bool) (n : Nat) (bs : List Byte) (p : Panel) : Panel :=
  bs.foldl (Panel.symbol cfg dc n) p

/-- The arguments of a frame, each a transaction of its own with its own draw, the first with draw `n`. -/
def Panel.receiveArgs (cfg : Config) (n : Nat) (bs : List Byte) (p : Panel) : Panel :=
  match bs with
  | [] => p
  | b :: bs => Panel.receiveArgs cfg (n + 1) bs (p.symbol cfg true n b)

/-- The last byte of a list replaced, if there is one and a damaged value is given. -/
def damageLast (d : Option Byte) (bs : List Byte) : List Byte :=
  match d, bs with
  | some b, _ :: _ => bs.dropLast ++ [b]
  | _, _ => bs

/-- What arrives of a failed transaction: an unknown prefix, possibly empty, its last byte possibly damaged (R48). -/
def arrived (n : Nat) (bs : List Byte) : List Byte :=
  damageLast (Config.freeDamage n) (bs.take (Config.freePrefix n % (bs.length + 1)))

/-- A failed transaction (R48): the unknown prefix arrives at the parser, then the panel counts as undefined and out of
sync, so that nothing on it may be relied on (R194, U2, U4). -/
def Panel.failed (cfg : Config) (dc : Bool) (n : Nat) (bs : List Byte) (p : Panel) : Panel :=
  Panel.settle n { p.deliver cfg dc n (arrived n bs) with cfgd := .undef, sync := false }

/-- The receiver reads one wire event, at the data/command level `dc`, with draw `n` for its free values (R48). -/
def Panel.recv (cfg : Config) (dc : Bool) (n : Nat) (ev : Event) (p : Panel) : Panel :=
  match ev with
  | .rst false => Panel.hardReset n
  | .rst true => p
  | .dc _ => p
  | .wait _ => p
  | .tx bs .ok => p.deliver cfg dc n bs
  | .tx bs .fail => p.failed cfg dc n bs

end Sys2Proof.Machine
end

