-- ==== Sys2Proof/Machine/Ops.lean ====
section
/-! DEFINITION. The named operations every meaning is made of: wire events and bus transactions, the sequence counter,
responses and error entry (`60_exceptions.md` R169), request latches, ports, block reset and the host's moves. -/

namespace Sys2Proof.Machine

/-! ### Ports (`10_state.md` R32) -/

/-- `req_ready`: the block accepts a request (R167). -/
def State.reqReady (s : State) : Bool := decide (s.phase = .idle) && !s.cancel

/-- `panel_rst`, equal to `prst`. -/
def State.panelRst (s : State) : Bool := s.prst

/-- `panel_dc`, equal to `dc`. -/
def State.panelDc (s : State) : Bool := s.dc

/-- The 3-bit code of a response (R160). -/
def Response.code : Response → BitVec 3
  | .ok => 0
  | .bounds => 1
  | .configuration => 2
  | .transfer => 3
  | .acquisition => 4
  | .state => 5
  | .released => 6

/-- `rsp_err`: the code of the latest response, equal to `err`. -/
def State.rspErr (s : State) : BitVec 3 := s.err.code

/-! ### Wire events and bus transactions -/

/-- `emit(ev)`: append an event to the trace (`00_scope.md` R8); the panel shadow receives it at the current `dc`
level. -/
def State.emit (s : State) (ev : Event) : State :=
  { s with
    trace := s.trace ++ [ev]
    panel := Panel.recv s.cfg s.dc s.draws ev s.panel
    draws := s.draws + 1 }

/-- Drive the data/command line: `dc <- l; emit(DC(l))` (`40_bus_transport.md` R80). -/
def State.driveDc (s : State) (l : Bool) : State := State.emit { s with dc := l } (.dc l)

/-- Drive the panel's reset line: `prst <- l; emit(RST(l))` (R83, R84); it cannot fail (D17, log entry
10). -/
def State.driveRst (s : State) (l : Bool) : State := State.emit { s with prst := l } (.rst l)

/-- The bus environment's answer to the next transaction (`00_scope.md` R10). -/
def State.answer (s : State) : BusAnswer :=
  match s.bus.script with
  | [] => s.bus.rest
  | a :: _ => a

/-- That answer is used up. -/
def State.answered (s : State) : State := { s with bus := { s.bus with script := s.bus.script.tail } }

/-- How a primitive with a transaction went, and the state it left. -/
inductive BusDone where
  | ok (s : State)
  | failed (s : State)
  | hung (s : State)
deriving DecidableEq, Repr

/-- The state a primitive left. -/
def BusDone.state : BusDone → State
  | .ok s => s
  | .failed s => s
  | .hung s => s

/-- `r <- BusWrite(bs); emit(TX(bs, r))`; a write that never returns emits nothing (R10, R87). -/
def State.busWrite (s : State) (bs : List Byte) : BusDone :=
  match s.answer with
  | .ok => .ok (s.answered.emit (.tx bs .ok))
  | .fail => .failed (s.answered.emit (.tx bs .fail))
  | .hang => .hung { s.answered with hung := true }

/-! ### The sequence counter, responses and error entry -/

/-- `seq <- seq + 1` (R23). -/
def State.advance (s : State) : State := { s with seq := s.seq + 1 }

/-- `respond(e)` (R169): `err <- e; phase <- IDLE; seq <- 0`, and the code is presented once. -/
def State.respond (s : State) (e : Response) : State :=
  { s with err := e, phase := .idle, seq := 0, rsps := s.rsps ++ [e] }

/-- Taking a fatal error, `raise E(seq)` (R162, R163, R169): `err_seq <- seq; fault_log <- 1; ctrl <- UNINIT`, then
`respond` with the error's code. -/
def State.raise (s : State) (e : Response) : State :=
  State.respond { s with errSeq := s.seq, faultLog := true, ctrl := .uninit } e

/-- `bus_fail()` (R86): `ConfigurationError` while `phase = RUN_INIT`, else `TransferError`. -/
def State.busFail (s : State) : State :=
  if s.phase = .runInit then s.raise .configuration else s.raise .transfer

/-! ### When an instruction runs -/

/-- Nothing of the block happens while a transaction is outstanding that never returns (R87, R88). -/
def State.whenFree (s : State) (o : Host.Outcome State Fault Refusal) : Host.Outcome State Fault Refusal :=
  if s.hung then .fault .busHang else o

/-- The request latches (R30, R63): all of an accepted word's bits, whatever the response (log entry 17). -/
def State.latch (s : State) (op : BitVec 2) (y : BitVec 14) (x : BitVec 16) : State :=
  { s with rqOp := op, rqY := y, rqX := x }

/-- A host operation: accepted, latched and run when the block is ready; an offer that is not accepted changes nothing
(`00_scope.md` R14, `60_exceptions.md` R167). -/
def State.request (s : State) (op : BitVec 2) (y : BitVec 14) (x : BitVec 16) (run : State → State) :
    Host.Outcome State Fault Refusal :=
  s.whenFree (if s.reqReady then .next (run (s.latch op y x)) else .next s)

/-! ### Reset and the host's moves -/

/-- Block reset (`70_reset_and_hazards.md` R180): every piece of the block's state takes its reset value, the trace is
empty, no response and no wire event; the shadow is reset (R33). The host's and the bus environment's inputs stay (log entry 19). -/
def State.blockReset (s : State) : State :=
  { State.resetWith s.cfg with
    panel := Panel.hardReset s.draws
    draws := s.draws + 1
    cancel := s.cancel
    reqs := s.reqs
    host := s.host
    bus := s.bus }

/-- What a host move does (`00_scope.md` R14). -/
def State.hostMove (s : State) (m : HostMove) : State :=
  match m with
  | .offer w => { s with reqs := s.reqs ++ [w] }
  | .cancel l => { s with cancel := l }
  | .reset => s.blockReset
  | .pass => s

end Sys2Proof.Machine
end

