-- ==== Sys2Proof/Machine/Operands.lean ====
section
/-! DEFINITION. Operand forms: pixel coordinates, the byte and the nibble that hold a pixel (`20_memory.md` R41, R42),
and the pattern of FILL. -/

namespace Sys2Proof.Machine

/-- `idx(x, y) = y * (WIDTH div 2) + (x div 2)` (R41). -/
def pixelIndex (x y : Nat) : Nat := y * stride + x / 2

/-- The bounds test of SETPIX on the full-width operands (`43_framebuffer_engine.md` R140). -/
def pixelInBounds (x : BitVec 16) (y : BitVec 14) : Bool :=
  decide (x.toNat < width) && decide (y.toNat < height)

/-- The nibble SETPIX writes: maximum intensity, `PIX_MAX` (`00_scope.md` R5). -/
def pixMax : BitVec 4 := 0xF

/-- The lane of a pixel: the high nibble for an even column, the low nibble for an odd one (R42). -/
def laneMask (x : Nat) : Byte :=
  if x % 2 = 0 then pixMax ++ 0x0#4 else 0x0#4 ++ pixMax

/-- A pixel's value: its nibble of its byte (R42). -/
def pixelOf (fb : Mem) (x y : Nat) : BitVec 4 :=
  if x % 2 = 0 then (Mem.read fb (pixelIndex x y)).extractLsb' 4 4
  else (Mem.read fb (pixelIndex x y)).extractLsb' 0 4

/-- The read-modify-write of SETPIX: one byte, ORed with its lane (R140). -/
def setPixel (fb : Mem) (x y : Nat) : Mem :=
  Mem.write fb (pixelIndex x y) (Mem.read fb (pixelIndex x y) ||| laneMask x)

/-- FILL's byte at an address: even rows `0xFF`, odd rows `0x00` (R141). -/
def bandByte (a : Nat) : Byte := if a / stride % 2 = 0 then 0xFF else 0x00

/-- The row bits of a request's don't-care field, as latched (`30_encoding.md` R63). -/
def lowY (low : BitVec 30) : BitVec 14 := low.extractLsb' 16 14

/-- Its column bits, as latched. -/
def lowX (low : BitVec 30) : BitVec 16 := low.extractLsb' 0 16

end Sys2Proof.Machine
end

