-- ==== Sys2Proof/Machine/Flags.lean ====
section
/-! DEFINITION. Which error, if any, ends a host operation at once, in the order of priority of `60_exceptions.md` R168:
Bounds, then Released, then State. -/

namespace Sys2Proof.Machine

/-- SETPIX (`43_framebuffer_engine.md` R140). -/
def setpixError (s : State) : Option Response :=
  if !pixelInBounds s.rqX s.rqY then some .bounds
  else if !s.fbLive then some .released
  else none

/-- FILL (R141). -/
def fillError (s : State) : Option Response :=
  if !s.fbLive then some .released else none

/-- FLUSH (R142). -/
def flushError (s : State) : Option Response :=
  if !s.fbLive then some .released
  else if s.ctrl = .uninit then some .state
  else none

/-- INIT (`42_controller_fsm.md` R132): it does not look at `fb_live`. -/
def initError (s : State) : Option Response :=
  if s.ctrl = .active then some .state else none

/-- Whether SEND_BYTES of `n` bytes is one transaction (`40_bus_transport.md` R82). -/
def chunkLengthOk (cfg : Config) (n : Nat) : Bool := decide (1 ≤ n) && decide (n ≤ cfg.chunk)

end Sys2Proof.Machine
end

