-- ==== Sys2Proof/Machine/Transport.lean ====
section
/-! DEFINITION. The bus transport primitives, level T (`40_bus_transport.md` R80 to R87). -/

namespace Sys2Proof.Machine

/-- The end of a primitive with a transaction (R80 to R82, R86): `seq` advances on `ok`; a failure enters the error; a
transaction that never returns leaves all as it is. -/
def BusDone.finish : BusDone → BusDone
  | .ok s => .ok s.advance
  | .failed s => .failed s.busFail
  | .hung s => .hung s

/-- After a command byte that returned, the line is restored, on failure too (R80, D18). -/
def BusDone.restoreDc : BusDone → BusDone
  | .ok s => .ok (s.driveDc true)
  | .failed s => .failed (s.driveDc true)
  | .hung s => .hung s

/-- SEND_COMMAND, R80. -/
def State.sendCommand (s : State) (c : Byte) : BusDone :=
  (((s.driveDc false).busWrite [c]).restoreDc).finish

/-- SEND_DATA, R81. -/
def State.sendData (s : State) (b : Byte) : BusDone := (s.busWrite [b]).finish

/-- SEND_BYTES, R82: the bytes `MemRead(a, n)` in one transaction. -/
def State.sendBytes (s : State) (a n : Nat) : BusDone := (s.busWrite (Mem.readRange s.fb a n)).finish

/-- SEND_COMMAND, R80. -/
def execSendCommand (c : Byte) (s : State) : Host.Outcome State Fault Refusal :=
  s.whenFree (.next (s.sendCommand c).state)

/-- SEND_DATA, R81. -/
def execSendData (b : Byte) (s : State) : Host.Outcome State Fault Refusal :=
  s.whenFree (.next (s.sendData b).state)

/-- SEND_BYTES, R82. A range past the framebuffer has no bytes; a length that is not one transaction is no operand
(log entry 14). -/
def execSendBytes (a n : Nat) (s : State) : Host.Outcome State Fault Refusal :=
  s.whenFree
    (if a + n > Mem.size then .fault .fbRange
     else if !chunkLengthOk s.cfg n then .refused .chunkLength
     else .next (s.sendBytes a n).state)

/-- RST_LOW, R83. -/
def execRstLow (s : State) : Host.Outcome State Fault Refusal :=
  s.whenFree (.next (s.driveRst false).advance)

/-- RST_HIGH, R84. -/
def execRstHigh (s : State) : Host.Outcome State Fault Refusal :=
  s.whenFree (.next (s.driveRst true).advance)

/-- WAIT, R85: a lower bound and no clock (log entry 11). -/
def execWait (s : State) : Host.Outcome State Fault Refusal :=
  s.whenFree (.next (s.emit (.wait holdMs)).advance)

end Sys2Proof.Machine
end

