-- ==== Sys2Proof/Machine/Commands.lean ====
section
/-! DEFINITION. The controller commands, level C (`41_controller_commands.md`): each is one frame, R90. What a command does
to the panel is the receiver's affair (`Machine/Panel.lean`, R49): the block only sends it. -/

namespace Sys2Proof.Machine

/-- The arguments of a frame, each its own SEND_DATA, until one fails or never returns (R90). -/
def State.sendArgs (s : State) : List Byte → BusDone
  | [] => .ok s
  | b :: bs =>
    match s.sendData b with
    | .ok t => t.sendArgs bs
    | .failed t => .failed t
    | .hung t => .hung t

/-- The frame of a command: `[SEND_COMMAND OPC(c)] ++ [SEND_DATA a | a in as]`. It is not atomic: a failure ends it
after any of its bytes (R90). -/
def State.sendFrame (s : State) (c : Command) (args : List Byte) : BusDone :=
  match s.sendCommand (s.cfg.opc c) with
  | .ok t => t.sendArgs args
  | .failed t => .failed t
  | .hung t => .hung t

/-- Emitting a frame, R90, all its primitives in this one step (log entry 15). -/
def execFrame (c : Command) (args : List Byte) (s : State) : Host.Outcome State Fault Refusal :=
  s.whenFree (.next (s.sendFrame c args).state)

/-- `LOCK`, R91. -/
def execLock (args : List Byte) (s : State) : Host.Outcome State Fault Refusal :=
  execFrame .lock args s

/-- `CLOCK`, R92. -/
def execClock (args : List Byte) (s : State) : Host.Outcome State Fault Refusal :=
  execFrame .clock args s

/-- `MUX`, R93. -/
def execMux (args : List Byte) (s : State) : Host.Outcome State Fault Refusal :=
  execFrame .mux args s

/-- `OFFSET`, R94. -/
def execOffset (args : List Byte) (s : State) : Host.Outcome State Fault Refusal :=
  execFrame .offset args s

/-- `STARTLINE`, R95. -/
def execStartline (args : List Byte) (s : State) : Host.Outcome State Fault Refusal :=
  execFrame .startline args s

/-- `REMAP`, R96. -/
def execRemap (args : List Byte) (s : State) : Host.Outcome State Fault Refusal :=
  execFrame .remap args s

/-- `GPIO`, R97. -/
def execGpio (args : List Byte) (s : State) : Host.Outcome State Fault Refusal :=
  execFrame .gpio args s

/-- `VDD`, R98. -/
def execVdd (args : List Byte) (s : State) : Host.Outcome State Fault Refusal :=
  execFrame .vdd args s

/-- `ENH_A`, R99. -/
def execEnhA (args : List Byte) (s : State) : Host.Outcome State Fault Refusal :=
  execFrame .enhA args s

/-- `CONTRAST`, R100. -/
def execContrast (args : List Byte) (s : State) : Host.Outcome State Fault Refusal :=
  execFrame .contrast args s

/-- `BRIGHTNESS`, R101. -/
def execBrightness (args : List Byte) (s : State) : Host.Outcome State Fault Refusal :=
  execFrame .brightness args s

/-- `GREY_DEFAULT`, R102. -/
def execGreyDefault (args : List Byte) (s : State) : Host.Outcome State Fault Refusal :=
  execFrame .greyDefault args s

/-- `PHASE`, R103. -/
def execPhase (args : List Byte) (s : State) : Host.Outcome State Fault Refusal :=
  execFrame .phase args s

/-- `ENH_B`, R104. -/
def execEnhB (args : List Byte) (s : State) : Host.Outcome State Fault Refusal :=
  execFrame .enhB args s

/-- `PRECHG_V`, R105. -/
def execPrechgV (args : List Byte) (s : State) : Host.Outcome State Fault Refusal :=
  execFrame .prechgV args s

/-- `PRECHG_PERIOD`, R106. -/
def execPrechgPeriod (args : List Byte) (s : State) : Host.Outcome State Fault Refusal :=
  execFrame .prechgPeriod args s

/-- `VCOMH`, R107. -/
def execVcomh (args : List Byte) (s : State) : Host.Outcome State Fault Refusal :=
  execFrame .vcomh args s

/-- `MODE_NORMAL`, R108. -/
def execModeNormal (args : List Byte) (s : State) : Host.Outcome State Fault Refusal :=
  execFrame .modeNormal args s

/-- `PARTIAL_OFF`, R109. -/
def execPartialOff (args : List Byte) (s : State) : Host.Outcome State Fault Refusal :=
  execFrame .partialOff args s

/-- `SLEEP_OFF`, R110. -/
def execSleepOff (args : List Byte) (s : State) : Host.Outcome State Fault Refusal :=
  execFrame .sleepOff args s

/-- `SETCOL`, R111. -/
def execSetcol (args : List Byte) (s : State) : Host.Outcome State Fault Refusal :=
  execFrame .setcol args s

/-- `SETROW`, R112. -/
def execSetrow (args : List Byte) (s : State) : Host.Outcome State Fault Refusal :=
  execFrame .setrow args s

/-- `RAM_WRITE`, R113. -/
def execRamWrite (args : List Byte) (s : State) : Host.Outcome State Fault Refusal :=
  execFrame .ramWrite args s

/-- `GREY_TABLE`, R114. -/
def execGreyTable (args : List Byte) (s : State) : Host.Outcome State Fault Refusal :=
  execFrame .greyTable args s

/-- `MODE_INVERSE`, R115. -/
def execModeInverse (args : List Byte) (s : State) : Host.Outcome State Fault Refusal :=
  execFrame .modeInverse args s

/-- `MODE_ALLON`, R116. -/
def execModeAllon (args : List Byte) (s : State) : Host.Outcome State Fault Refusal :=
  execFrame .modeAllon args s

/-- `MODE_ALLOFF`, R117. -/
def execModeAlloff (args : List Byte) (s : State) : Host.Outcome State Fault Refusal :=
  execFrame .modeAlloff args s

/-- `PARTIAL_ON`, R118. -/
def execPartialOn (args : List Byte) (s : State) : Host.Outcome State Fault Refusal :=
  execFrame .partialOn args s

/-- `SLEEP_ON`, R119. -/
def execSleepOn (args : List Byte) (s : State) : Host.Outcome State Fault Refusal :=
  execFrame .sleepOn args s

/-- `RAM_READ`, R120. -/
def execRamRead (args : List Byte) (s : State) : Host.Outcome State Fault Refusal :=
  execFrame .ramRead args s

end Sys2Proof.Machine
end

