-- ==== Sys2Proof/Machine/HostOps.lean ====
section
/-! DEFINITION. The host operations, level H: INIT (`42_controller_fsm.md` R132), SETPIX, FILL and FLUSH
(`43_framebuffer_engine.md` R140 to R142). INIT and FLUSH end here at their dispatch; the sequencer runs the rest. -/

namespace Sys2Proof.Machine

/-- An operation that ends in the step that accepts it: its error, or its effect and `OK`. -/
def State.settle (s : State) (error : Option Response) (effect : State → State) : State :=
  match error with
  | some e => s.respond e
  | none => (effect s).respond .ok

/-- An operation the sequencer runs: its error, or `phase <- p; seq <- 0`. -/
def State.dispatch (s : State) (error : Option Response) (p : Phase) : State :=
  match error with
  | some e => s.respond e
  | none => { s with phase := p, seq := 0 }

/-- INIT, R132. -/
def execInit (low : BitVec 30) (s : State) : Host.Outcome State Fault Refusal :=
  s.request 0b00 (lowY low) (lowX low) fun s => s.dispatch (initError s) .runInit

/-- SETPIX, R140. -/
def execSetpix (x : BitVec 16) (y : BitVec 14) (s : State) : Host.Outcome State Fault Refusal :=
  s.request 0b01 y x fun s =>
    s.settle (setpixError s) fun s => { s with fb := setPixel s.fb s.rqX.toNat s.rqY.toNat }

/-- FILL, R141. -/
def execFill (low : BitVec 30) (s : State) : Host.Outcome State Fault Refusal :=
  s.request 0b10 (lowY low) (lowX low) fun s =>
    s.settle (fillError s) fun s => { s with fb := Mem.ofFn bandByte }

/-- FLUSH, dispatch, R142. -/
def execFlush (low : BitVec 30) (s : State) : Host.Outcome State Fault Refusal :=
  s.request 0b11 (lowY low) (lowX low) fun s => s.dispatch (flushError s) .runFlush

end Sys2Proof.Machine
end

