-- ==== Sys2Proof/Machine/Dispatch.lean ====
section
/-! DEFINITION. One arm per instruction. -/

namespace Sys2Proof.Machine

-- The meaning of every instruction of `opcode_table.json`.
def exec (i : Instr) (s : State) : Host.Outcome State Fault Refusal :=
  match i with
  -- level H
  | .init low => Sys2Proof.Machine.execInit low s
  | .setpix x y => Sys2Proof.Machine.execSetpix x y s
  | .fill low => Sys2Proof.Machine.execFill low s
  | .flush low => Sys2Proof.Machine.execFlush low s
  -- level T
  | .sendCommand c => Sys2Proof.Machine.execSendCommand c s
  | .sendData b => Sys2Proof.Machine.execSendData b s
  | .sendBytes a n => Sys2Proof.Machine.execSendBytes a n s
  | .rstLow => Sys2Proof.Machine.execRstLow s
  | .rstHigh => Sys2Proof.Machine.execRstHigh s
  | .wait => Sys2Proof.Machine.execWait s
  -- level C
  | .lock args => Sys2Proof.Machine.execLock args s
  | .clock args => Sys2Proof.Machine.execClock args s
  | .mux args => Sys2Proof.Machine.execMux args s
  | .offset args => Sys2Proof.Machine.execOffset args s
  | .startline args => Sys2Proof.Machine.execStartline args s
  | .remap args => Sys2Proof.Machine.execRemap args s
  | .gpio args => Sys2Proof.Machine.execGpio args s
  | .vdd args => Sys2Proof.Machine.execVdd args s
  | .enhA args => Sys2Proof.Machine.execEnhA args s
  | .contrast args => Sys2Proof.Machine.execContrast args s
  | .brightness args => Sys2Proof.Machine.execBrightness args s
  | .greyDefault args => Sys2Proof.Machine.execGreyDefault args s
  | .phase args => Sys2Proof.Machine.execPhase args s
  | .enhB args => Sys2Proof.Machine.execEnhB args s
  | .prechgV args => Sys2Proof.Machine.execPrechgV args s
  | .prechgPeriod args => Sys2Proof.Machine.execPrechgPeriod args s
  | .vcomh args => Sys2Proof.Machine.execVcomh args s
  | .modeNormal args => Sys2Proof.Machine.execModeNormal args s
  | .partialOff args => Sys2Proof.Machine.execPartialOff args s
  | .sleepOff args => Sys2Proof.Machine.execSleepOff args s
  | .setcol args => Sys2Proof.Machine.execSetcol args s
  | .setrow args => Sys2Proof.Machine.execSetrow args s
  | .ramWrite args => Sys2Proof.Machine.execRamWrite args s
  | .greyTable args => Sys2Proof.Machine.execGreyTable args s
  | .modeInverse args => Sys2Proof.Machine.execModeInverse args s
  | .modeAllon args => Sys2Proof.Machine.execModeAllon args s
  | .modeAlloff args => Sys2Proof.Machine.execModeAlloff args s
  | .partialOn args => Sys2Proof.Machine.execPartialOn args s
  | .sleepOn args => Sys2Proof.Machine.execSleepOn args s
  | .ramRead args => Sys2Proof.Machine.execRamRead args s

end Sys2Proof.Machine
end

