-- ==== Sys2Proof/Machine/Sequencer.lean ====
section
/-! DEFINITION. The sequencer: the constant primitive lists (`42_controller_fsm.md` R131, `43_framebuffer_engine.md` R143),
completion (R134, R144), what the next step is to do (R133), and the one expansion of the assembler (`30_encoding.md` R70). -/

namespace Sys2Proof.Machine

/-- The primitives of a frame (R90). -/
def framePrims (cfg : Config) (c : Command) (args : List Byte) : List Instr :=
  .sendCommand (cfg.opc c) :: args.map .sendData

/-- `INIT_PROG` (R131). -/
def initProg (cfg : Config) : List Instr :=
  [.rstLow, .wait, .rstHigh, .wait]
    ++ Command.initList.flatMap (fun c => framePrims cfg c (cfg.initArgs c))
    ++ [.wait]

/-- The ranges of a flush: chunk `k` starts at `k*CHUNK` and the last may be shorter (R143). -/
def flushChunks (cfg : Config) : List Instr :=
  (List.range cfg.nchunk).map fun k =>
    .sendBytes (k * cfg.chunk) (min cfg.chunk (fbBytes - k * cfg.chunk))

/-- `FLUSH_PROG` (R143). -/
def flushProg (cfg : Config) : List Instr :=
  framePrims cfg .setcol [cfg.colStart, cfg.colEnd]
    ++ framePrims cfg .setrow [cfg.rowStart, cfg.rowEnd]
    ++ framePrims cfg .ramWrite []
    ++ flushChunks cfg

/-- The list the sequencer walks (R133); in `IDLE` it walks none. -/
def State.prog (s : State) : List Instr :=
  match s.phase with
  | .idle => []
  | .runInit => initProg s.cfg
  | .runFlush => flushProg s.cfg

/-- Completion of INIT (R134), with the shadow's `p_cfg <- P_ACTIVE`. -/
def State.completeInit (s : State) : State :=
  State.respond { s with ctrl := .active, panel := { s.panel with cfgd := .active } } .ok

/-- Completion of FLUSH (R144). -/
def State.completeFlush (s : State) : State :=
  State.respond { s with fbLive := s.fbLive && !s.cfg.singleUse } .ok

/-- `complete()` of R133. -/
def State.complete (s : State) : State :=
  match s.phase with
  | .idle => s
  | .runInit => s.completeInit
  | .runFlush => s.completeFlush

/-- The sequencer's step (R133): complete at the end of the list, else the primitive at `seq`. -/
def sequencerFetch (s : State) : Fetched :=
  if s.seq.toNat = s.prog.length then .quiet s.complete
  else match s.prog[s.seq.toNat]? with
    | some i => .instr i s
    | none => .stuck .seqOverrun

/-- Accepting a request in `IDLE`: the word on the request port, unless `cancel` is raised (R167); else the block waits
(`10_state.md` R34, log entry 21). -/
def requestFetch (s : State) : Fetched :=
  match s.reqs with
  | [] => .quiet s
  | w :: rest => if s.cancel then .quiet s else .instr (decodeRequest w) { s with reqs := rest }

/-- The block's step: none while a transaction never returns (R193); the bench port first (log entry 8); then the
sequencer, or in `IDLE` the next request. -/
def blockFetch (s : State) : Fetched :=
  if s.hung then .stuck .busHang
  else match s.issue with
    | some i => .instr i { s with issue := none }
    | none => if s.phase = .idle then requestFetch s else sequencerFetch s

/-- What the next step does: the host's next move, or the block's step. -/
def fetch (s : State) : Fetched :=
  match s.host with
  | [] => blockFetch s
  | .pass :: rest => blockFetch { s with host := rest }
  | .offer w :: rest => .quiet (State.hostMove { s with host := rest } (.offer w))
  | .cancel l :: rest => .quiet (State.hostMove { s with host := rest } (.cancel l))
  | .reset :: rest => .quiet (State.hostMove { s with host := rest } .reset)

/-- The state with the block free to take the next step, whatever it was doing. -/
def State.freed (s : State) : State := { s with host := [], hung := false, issue := none }

/-- A request word put first on the request port of a block that accepts it at the next step. -/
def State.withRequest (s : State) (w : Request) : State :=
  { s.freed with phase := .idle, seq := 0, cancel := false, reqs := w :: s.reqs }

/-- An instruction put on the bench port. -/
def State.withIssue (s : State) (i : Option Instr) : State := { s.freed with issue := i }

/-- The assembler's one expansion (R70): a level-C line is its SEND_COMMAND followed by one SEND_DATA per argument; every
other line is itself. -/
def expand (cfg : Config) (i : Instr) : List Instr :=
  match i.command? with
  | some (c, args) => framePrims cfg c args
  | none => [i]

end Sys2Proof.Machine
end

