-- ==== Sys2Proof/Machine/Step.lean ====
section
/-! DEFINITION. One step of the machine. -/

namespace Sys2Proof.Machine

/-- One step: what `fetch` says. -/
def step (s : State) : Host.Outcome State Fault Refusal :=
  match fetch s with
  | .instr i t => exec i t
  | .quiet t => .next t
  | .stuck f => .fault f

/-- `s` with the instruction of an opcode-table word where the next step fetches it (log entry 8): a request word of 32
bits on the request port, a wire symbol's instruction on the bench port. -/
def State.withFetchWord (s : State) (nbits w : Nat) : State :=
  if nbits = 32 then s.withRequest (BitVec.ofNat 32 w)
  else s.withIssue (decodeTableWord nbits w)

end Sys2Proof.Machine
end

