-- ==== Sys2Proof/Safety.lean ====
section
/-! DEFINITION. What counts as a safe state and a safe run, in the terms the statements use: traces, the bus
environment's answers, and the invariants of `10_state.md` R35. -/

namespace Sys2Proof.Machine

/-! ### Traces -/

/-- Whether an event is a failed transaction. -/
def Event.isFail : Event → Bool
  | .tx _ .fail => true
  | _ => false

/-- Whether an event is `RST(0)`. -/
def Event.isRstLow : Event → Bool
  | .rst false => true
  | _ => false

/-- No `TX(_, fail)` in a trace. -/
def noFail (tr : List Event) : Bool := tr.all fun e => !e.isFail

/-- No `RST(0)` in a trace. -/
def noRstLow (tr : List Event) : Bool := tr.all fun e => !e.isRstLow

/-- The data/command level after an event. -/
def Event.levelAfter (l : Bool) : Event → Bool
  | .dc l' => l'
  | .rst _ => l
  | .tx _ _ => l
  | .wait _ => l

/-- The data/command level after a trace: that of its latest `DC` event, or the reset level 1 (`00_scope.md` R9). -/
def dcLevel (tr : List Event) : Bool := tr.foldl Event.levelAfter true

/-- A trace in which the line is low exactly for one command byte at a time: every `DC(0)` is followed at once by a
transaction of one byte and then `DC(1)`, and every other transaction is at level 1 (`70_reset_and_hazards.md` R184). -/
def framed : List Event → Bool
  | [] => true
  | .dc false :: .tx [_] _ :: .dc true :: tr => framed tr
  | .dc _ :: _ => false
  | .tx _ _ :: tr => framed tr
  | .rst _ :: tr => framed tr
  | .wait _ :: tr => framed tr

/-- The events of a primitive whose transaction, if it has one, returns `ok` (`40_bus_transport.md` R80 to R85). -/
def okEvents (fb : Mem) : Instr → List Event
  | .sendCommand c => [.dc false, .tx [c] .ok, .dc true]
  | .sendData b => [.tx [b] .ok]
  | .sendBytes a n => [.tx (Mem.readRange fb a n) .ok]
  | .rstLow => [.rst false]
  | .rstHigh => [.rst true]
  | .wait => [.wait holdMs]
  | .init _ | .setpix _ _ | .fill _ | .flush _
  | .lock _ | .clock _ | .mux _ | .offset _ | .startline _ | .remap _ | .gpio _ | .vdd _ | .enhA _
  | .contrast _ | .brightness _ | .greyDefault _ | .phase _ | .enhB _ | .prechgV _
  | .prechgPeriod _ | .vcomh _ | .modeNormal _ | .partialOff _ | .sleepOff _ | .setcol _
  | .setrow _ | .ramWrite _ | .greyTable _ | .modeInverse _ | .modeAllon _ | .modeAlloff _
  | .partialOn _ | .sleepOn _ | .ramRead _ => []

/-- The trace of a successful INIT (`42_controller_fsm.md` R137). -/
def initTrace (cfg : Config) : List Event := (initProg cfg).flatMap (okEvents [])

/-- The trace of a successful FLUSH of a framebuffer (`43_framebuffer_engine.md` R143). -/
def flushTrace (cfg : Config) (fb : Mem) : List Event := (flushProg cfg).flatMap (okEvents fb)

/-! ### The bus environment -/

/-- The answer to the `k`-th transaction from now, counting from 0. -/
def BusEnv.nth (b : BusEnv) (k : Nat) : BusAnswer := (b.script[k]?).getD b.rest

/-- The environment after `k` answers. -/
def BusEnv.after (b : BusEnv) (k : Nat) : BusEnv := { b with script := b.script.drop k }

/-- The next `n` transactions all return `ok`. -/
def AnswersOk (s : State) (n : Nat) : Prop := ∀ k, k < n → s.bus.nth k = .ok

/-! ### Whose turn it is -/

/-- The next step is the block's, taken from `t`: no host move stands before it. -/
def BlockTurn (s t : State) : Prop :=
  (s.host = [] ∧ t = s) ∨ ∃ r, s.host = .pass :: r ∧ t = { s with host := r }

/-! ### Panels -/

/-- Two panels hold the same registers, window, pointer and RAM. -/
def SameContents (p q : Panel) : Prop :=
  (∀ c, p.regOf c = q.regOf c) ∧ p.ram = q.ram ∧ p.cs = q.cs ∧ p.ce = q.ce ∧ p.rs = q.rs ∧ p.re = q.re ∧ p.cc = q.cc ∧
  p.rc = q.rc

/-! ### Outcomes and runs -/

/-- An outcome with a function applied to its next state. -/
def onNext (f : State → State) : Host.Outcome State Fault Refusal → Host.Outcome State Fault Refusal
  | .next s => .next (f s)
  | .fault r => .fault r
  | .refused r => .refused r

/-- `k` steps of the machine, stopping at the first fault or refusal. -/
def stepsN (k : Nat) (s : State) : Host.Outcome State Fault Refusal := Host.Core.run Sys2Proof.core k s

/-! ### Invariants -/

/-- The invariants of `10_state.md` R35 but (d), with what the model adds to state them: the configuration is legal, the
memories are canonical, `seq` stays inside its list (R23), `err` is the latest response (R26), the trace's level is
`dc` (R9), and the bench port is unused (log entry 8). -/
structure Inv (s : State) : Prop where
  cfgWf : s.cfg.wf = true
  /-- (a) -/
  fbWf : Mem.wf s.fb = true
  ramWf : Mem.wf s.panel.ram = true
  /-- (b) -/
  idleSeq : s.phase = .idle → s.seq = 0
  /-- (c) -/
  dcHigh : s.hung = false → s.dc = true
  level : s.dc = dcLevel s.trace
  /-- (e) -/
  faults : s.faultLog = false → noFail s.trace = true
  /-- (f) -/
  live : s.fbLive = false → s.cfg.singleUse = true
  /-- (g) -/
  flushing : s.phase = .runFlush → s.ctrl = .active ∧ s.fbLive = true
  /-- (g) -/
  initing : s.phase = .runInit → s.ctrl = .uninit
  seqBound : s.phase ≠ .idle → s.seq.toNat ≤ s.prog.length
  hungRuns : s.hung = true → s.phase ≠ .idle
  latest : s.err = s.rsps.getLastD .ok
  bench : s.issue = none

/-- R35 (d): while `ctrl = ACTIVE` the trace holds a complete, all-`ok` run of `INIT_PROG` with no `RST(0)` and no
`fail` after it; and on the way there, the trace ends with the part of `INIT_PROG` before `seq`, all `ok`. -/
def ActiveHistory (s : State) : Prop :=
  (s.ctrl = .active →
    ∃ pre post, s.trace = pre ++ initTrace s.cfg ++ post ∧ noRstLow post = true ∧ noFail post = true) ∧
  (s.phase = .runInit → s.hung = false →
    ∃ pre, s.trace = pre ++ ((initProg s.cfg).take s.seq.toNat).flatMap (okEvents []))

/-- The trace is framed (R184), with a command byte that never returned still open at its end (R87). -/
def FramedState (s : State) : Prop :=
  if s.dc then framed s.trace = true
  else s.hung = true ∧ ∃ tr, s.trace = tr ++ [.dc false] ∧ framed tr = true

/-- How many argument primitives stand at the front of a primitive list. -/
def leadingArgs : List Instr → Nat
  | .sendData _ :: is => leadingArgs is + 1
  | _ :: _ => 0
  | [] => 0

/-- What the sequencer has still to do: its list from `seq` on. -/
def State.remaining (s : State) : List Instr := s.prog.drop s.seq.toNat

/-- While no transaction has failed the panel is in sync, owes exactly the arguments that stand next in the sequencer's
list (so none in `IDLE` and none after a frame), and is in the display-RAM stream where a SEND_BYTES is next
(`41_controller_commands.md` R122). -/
def FramesInSync (s : State) : Prop :=
  noFail s.trace = true →
    s.panel.sync = true ∧
    (match s.panel.pend with
      | none => leadingArgs s.remaining = 0
      | some d => d.got.length < d.need ∧ d.need = d.got.length + leadingArgs s.remaining) ∧
    (∀ a n, s.remaining.head? = some (.sendBytes a n) → s.panel.stream = true)

/-- The buffer is released only while the controller is active and the block idle (V94, V96 of
`95_test_vectors.md`). -/
def ReleasedIdle (s : State) : Prop := s.fbLive = false → s.ctrl = .active ∧ s.phase = .idle

end Sys2Proof.Machine
end

