-- ==== Sys2Proof/Certificates/Slice0/Obligations.lean ====
section
/-! DEFINITION. The statements for the provers, from the numbered rules of spec/. -/

open Sys2Proof Sys2Proof.Machine

/-! ### Encodings -/

/-- Words written out from the encodings of `30_encoding.md` R61, R64, R65, R72 and the vectors E1 to E9, V70; the frame
bytes are DEF-GK (log entry 2). -/
def Obligations.SpecWordsDecode : Prop :=
  decode Config.defGK (.word 0x00000000) = .instr (.init 0) ∧
  decode Config.defGK (.word 0x403F00FF) = .instr (.setpix 255 63) ∧
  decode Config.defGK (.word 0x7FFFFFFF) = .instr (.setpix 65535 16383) ∧
  decode Config.defGK (.word 0x80000001) = .instr (.fill 1) ∧
  decode Config.defGK (.word 0xFFFFFFFF) = .instr (.flush 0x3FFFFFFF) ∧
  decode Config.defGK (.run none [0b011111101]) = .instr (.sendCommand 0xFD) ∧
  decode Config.defGK (.run none [0b100111111]) = .instr (.sendData 0x3F) ∧
  decode Config.defGK (.run (some 8190) [0b100000000, 0b111111111]) = .instr (.sendBytes 8190 2) ∧
  decode Config.defGK (.frame [0b011001010, 0b100111111]) = .instr (.mux [63]) ∧
  decode Config.defGK (.frame [0b000010101, 0b100000000, 0b101111111]) = .instr (.setcol [0, 127]) ∧
  decode Config.defGK (.rst false) = .instr .rstLow ∧
  decode Config.defGK (.hold 150) = .instr .wait

/-- Decoding an encoded well-formed instruction gives it back, under every legal configuration and whatever the
framebuffer holds (R60 to R66). -/
def Obligations.DecodeEncodeAgree : Prop :=
  ∀ (cfg : Config) (fb : Mem) (i : Instr), cfg.wf = true → i.wf cfg = true →
    decode cfg (encode cfg fb i) = .instr i

/-- R61: every 32-bit value decodes to exactly one of the four operations, by its fields; and no bit is lost. -/
def Obligations.EveryRequestWordDecodes : Prop :=
  ∀ (cfg : Config) (fb : Mem) (w : Request), ∃ i, decode cfg (.word w) = .instr i ∧ encode cfg fb i = .word w ∧
    (w.toNat / 2 ^ 30 = 0 → ∃ low, i = .init low ∧ low.toNat = w.toNat % 2 ^ 30) ∧
    (w.toNat / 2 ^ 30 = 1 → ∃ x y, i = .setpix x y ∧ x.toNat = w.toNat % 65536 ∧ y.toNat = w.toNat / 65536 % 16384) ∧
    (w.toNat / 2 ^ 30 = 2 → ∃ low, i = .fill low ∧ low.toNat = w.toNat % 2 ^ 30) ∧
    (w.toNat / 2 ^ 30 = 3 → ∃ low, i = .flush low ∧ low.toNat = w.toNat % 2 ^ 30)

/-- R66: where a frame ends is known from its opcode; what follows it is left over. -/
def Obligations.FrameEndsWhereItsOpcodeSays : Prop :=
  ∀ (cfg : Config) (c : Command) (args : List Byte) (rest : List Symbol), cfg.wf = true → args.length = cfg.nargs c →
    decodeFrame cfg (encodeFrame cfg c args ++ rest) = (.instr (Instr.ofCommand c args), rest)

/-- R67: distinct commands have distinct opcode bytes, and the receiver tells them apart; R68: a byte that is no command's
opcode begins no frame. -/
def Obligations.OpcodesToldApart : Prop :=
  ∀ (cfg : Config), cfg.wf = true →
    (∀ c d, cfg.opc c = cfg.opc d → c = d) ∧
    (∀ c, cfg.command? (cfg.opc c) = some c) ∧
    (∀ b ys, (∀ c, cfg.opc c ≠ b) → decode cfg (.frame (mkSymbol false b :: ys)) = .reject .unknownOpcode)

/-! ### The step -/

/-- When the block is free in `IDLE` and a request is offered, the step is exec of the operation its word decodes to, with
the word taken from the port. -/
def Obligations.StepRunsRequest : Prop :=
  ∀ (s t : State) (w : Request) (rest : List Request), BlockTurn s t → s.hung = false → s.issue = none →
    s.phase = .idle → s.cancel = false → s.reqs = w :: rest →
    ∃ i, decode s.cfg (.word w) = .instr i ∧ step s = exec i { t with reqs := rest }

/-- While the sequencer runs, the step is exec of the primitive at `seq` of its list (R133). -/
def Obligations.StepRunsPrimitive : Prop :=
  ∀ (s t : State) (i : Instr), BlockTurn s t → s.hung = false → s.issue = none →
    (s.phase = .runInit ∧ (initProg s.cfg)[s.seq.toNat]? = some i
      ∨ s.phase = .runFlush ∧ (flushProg s.cfg)[s.seq.toNat]? = some i) →
    step s = exec i t

/-- An instruction on the bench port is run next (the model's own port, log entry 8), and withFetchWord puts a table
word's instruction there. -/
def Obligations.StepRunsBench : Prop :=
  (∀ (s t : State) (i : Instr), BlockTurn s t → s.hung = false → s.issue = some i →
    step s = exec i { t with issue := none }) ∧
  (∀ (s : State) (nbits w : Nat) (i : Instr), nbits ≠ 32 → decodeTableWord nbits w = some i →
    step (s.withFetchWord nbits w) = exec i { s with host := [], hung := false, issue := none })

/-- In `IDLE` with nothing offered, or with `cancel` raised, the block waits and nothing changes (`10_state.md` R34,
`60_exceptions.md` R167). -/
def Obligations.StepWaitsInIdle : Prop :=
  ∀ (s t : State), BlockTurn s t → s.hung = false → s.issue = none → s.phase = .idle →
    s.reqs = [] ∨ s.cancel = true → step s = .next t

/-- R167: a request already accepted runs unaffected by `cancel`: while the sequencer runs, the level of `cancel` changes
nothing but itself. -/
def Obligations.CancelOnlyGatesAcceptance : Prop :=
  ∀ (s : State) (b : Bool), s.host = [] → s.issue = none → s.phase ≠ .idle →
    step { s with cancel := b } = onNext (fun t => { t with cancel := b }) (step s)

/-- A host operation offered while the block is not ready is not accepted and changes nothing (`00_scope.md` R14). -/
def Obligations.OfferNotAcceptedChangesNothing : Prop :=
  ∀ (i : Instr) (s : State), i.isHostOp = true → s.hung = false → s.phase ≠ .idle ∨ s.cancel = true →
    exec i s = .next s

/-- R180, R34: block reset, from any state, a hung one too: every piece of the block's state takes its reset value, no
response and no wire event; the host's and the bus environment's inputs stay. -/
def Obligations.BlockResetFromAnywhere : Prop :=
  ∀ (s : State) (r : List HostMove), s.host = .reset :: r → ∃ t, step s = .next t ∧
    t.cfg = s.cfg ∧ t.fb = s.cfg.fbReset ∧ t.ctrl = .uninit ∧ t.phase = .idle ∧ t.seq = 0 ∧ t.dc = true ∧ t.prst = true ∧
    t.err = .ok ∧ t.errSeq = 0 ∧ t.faultLog = false ∧ t.fbLive = true ∧ t.rqOp = 0 ∧ t.rqX = 0 ∧ t.rqY = 0 ∧
    t.hung = false ∧ t.trace = [] ∧ t.rsps = [] ∧ t.panel.cfgd = .undef ∧ (∀ c, t.panel.regOf c = none) ∧
    t.panel.pend = none ∧ t.panel.stream = false ∧ t.panel.sync = true ∧
    t.cancel = s.cancel ∧ t.reqs = s.reqs ∧ t.bus = s.bus ∧ t.host = r

/-- R34: the values after reset, under every configuration. -/
def Obligations.ResetValues : Prop :=
  ∀ (cfg : Config), ∃ t, State.resetWith cfg = t ∧
    t.cfg = cfg ∧ t.fb = cfg.fbReset ∧ t.ctrl = .uninit ∧ t.phase = .idle ∧ t.seq = 0 ∧ t.dc = true ∧ t.prst = true ∧
    t.err = .ok ∧ t.err.code = 0 ∧ t.errSeq = 0 ∧ t.faultLog = false ∧ t.fbLive = true ∧ t.rqOp = 0 ∧ t.rqX = 0 ∧ t.rqY = 0 ∧
    t.trace = [] ∧ t.panel.cfgd = .undef ∧ t.panel.pend = none ∧ t.panel.stream = false ∧ t.panel.sync = true ∧
    (∀ c, t.panel.regOf c = none)

/-! ### Host operations -/

/-- R41: the byte of a pixel is `y * 128 + (x >> 1)`; the index ranges over exactly `0..8191`; two pixels share a byte iff
they have the same `y` and the same `x div 2`. -/
def Obligations.OneIndexFormula : Prop :=
  (∀ x y, x < 256 → y < 64 → pixelIndex x y = y * 128 + x / 2 ∧ pixelIndex x y < 8192) ∧
  (∀ a, a < 8192 → ∃ x y, x < 256 ∧ y < 64 ∧ pixelIndex x y = a) ∧
  (∀ x y x' y', x < 256 → y < 64 → x' < 256 → y' < 64 →
    (pixelIndex x y = pixelIndex x' y' ↔ y = y' ∧ x / 2 = x' / 2)) ∧
  pixelIndex 0 0 = 0 ∧ pixelIndex 255 63 = 8191

/-- R140, R161, R166: SETPIX, accepted: out of bounds first, then a released buffer, else one nibble of one byte ORed with
`0xF`; and its encoding. The request is latched first (R30), on an error too (the model's reading, log entry 17). -/
def Obligations.SetpixEffect : Prop :=
  (∀ (x : BitVec 16) (y : BitVec 14) (s : State), s.hung = false → s.phase = .idle → s.cancel = false →
    exec (.setpix x y) s = .next
      (if x.toNat ≥ 256 ∨ y.toNat ≥ 64 then
        { s with rqOp := 1, rqX := x, rqY := y, err := .bounds, seq := 0, rsps := s.rsps ++ [.bounds] }
      else if s.fbLive = false then
        { s with rqOp := 1, rqX := x, rqY := y, err := .released, seq := 0, rsps := s.rsps ++ [.released] }
      else
        { s with
          rqOp := 1, rqX := x, rqY := y, err := .ok, seq := 0, rsps := s.rsps ++ [.ok]
          fb := Mem.write s.fb (y.toNat * 128 + x.toNat / 2)
            (Mem.read s.fb (y.toNat * 128 + x.toNat / 2) ||| (if x.toNat % 2 = 0 then 0xF0#8 else 0x0F#8)) })) ∧
  (∀ (x : BitVec 16) (y : BitVec 14) (cfg : Config) (fb : Mem),
    encode cfg fb (.setpix x y) = .word (mkRequest 0b01#2 (y ++ x)))

/-- S1 and R147: an in-range SETPIX on a live buffer makes its pixel `0xF`, leaves every other pixel of the 256 x 64 and
every other byte as it was. -/
def Obligations.SetpixSetsOnePixel : Prop :=
  ∀ (x : BitVec 16) (y : BitVec 14) (s : State), s.hung = false → s.phase = .idle → s.cancel = false →
    Mem.wf s.fb = true → s.fbLive = true → x.toNat < 256 → y.toNat < 64 →
    ∃ t, exec (.setpix x y) s = .next t ∧ t.err = .ok ∧ t.trace = s.trace ∧
      pixelOf t.fb x.toNat y.toNat = 0xF ∧
      (∀ x' y', x' < 256 → y' < 64 → ¬(x' = x.toNat ∧ y' = y.toNat) → pixelOf t.fb x' y' = pixelOf s.fb x' y') ∧
      (∀ a, a ≠ pixelIndex x.toNat y.toNat → Mem.read t.fb a = Mem.read s.fb a)

/-- R161: a coordinate out of range, tested at full width, is answered `BoundsError` and touches nothing. -/
def Obligations.OutOfBoundsTouchesNothing : Prop :=
  ∀ (x : BitVec 16) (y : BitVec 14) (s : State), s.hung = false → s.phase = .idle → s.cancel = false →
    x.toNat ≥ 256 ∨ y.toNat ≥ 64 →
    ∃ t, exec (.setpix x y) s = .next t ∧ t.err = .bounds ∧ t.err.code = 1 ∧ t.rsps = s.rsps ++ [.bounds] ∧
      t.fb = s.fb ∧ t.ctrl = s.ctrl ∧ t.faultLog = s.faultLog ∧ t.errSeq = s.errSeq ∧ t.trace = s.trace ∧ t.dc = s.dc ∧
      t.prst = s.prst ∧ t.panel = s.panel

/-- R141, R166: FILL on a live buffer writes all 8192 bytes, even rows `0xFF` and odd rows `0x00`, whatever they held; on a
released buffer it is refused. The request is latched first (R30, R63), on an error too (the model's reading, log
entry 17). -/
def Obligations.FillWritesBands : Prop :=
  (∀ (low : BitVec 30) (s : State), s.hung = false → s.phase = .idle → s.cancel = false →
    (s.fbLive = true → ∃ m, exec (.fill low) s = .next
        { s with
          rqOp := 2, rqY := low.extractLsb' 16 14, rqX := low.extractLsb' 0 16
          err := .ok, seq := 0, rsps := s.rsps ++ [.ok], fb := m } ∧
      Mem.wf m = true ∧
      ∀ r c, r < 64 → c < 128 → Mem.read m (128 * r + c) = if r % 2 = 0 then 0xFF#8 else 0x00#8) ∧
    (s.fbLive = false → exec (.fill low) s = .next
        { s with
          rqOp := 2, rqY := low.extractLsb' 16 14, rqX := low.extractLsb' 0 16
          err := .released, seq := 0, rsps := s.rsps ++ [.released] })) ∧
  (∀ (low : BitVec 30) (cfg : Config) (fb : Mem), encode cfg fb (.fill low) = .word (mkRequest 0b10#2 low))

/-- R132, R165: INIT, accepted: refused while `ctrl = ACTIVE`, else the sequencer starts at index 0. The request is latched
first (R30, R63), on an error too (the model's reading, log entry 17). -/
def Obligations.InitDispatch : Prop :=
  (∀ (low : BitVec 30) (s : State), s.hung = false → s.phase = .idle → s.cancel = false →
    exec (.init low) s = .next
      (if s.ctrl = .active then
        { s with
          rqOp := 0, rqY := low.extractLsb' 16 14, rqX := low.extractLsb' 0 16
          err := .state, seq := 0, rsps := s.rsps ++ [.state] }
      else
        { s with
          rqOp := 0, rqY := low.extractLsb' 16 14, rqX := low.extractLsb' 0 16
          phase := .runInit, seq := 0 })) ∧
  (∀ (low : BitVec 30) (cfg : Config) (fb : Mem), encode cfg fb (.init low) = .word (mkRequest 0b00#2 low))

/-- R142, R165, R166: FLUSH, accepted: refused on a released buffer, then while uninitialised, else the sequencer starts
at 0. The request is latched first (R30, R63), on an error too (the model's reading, log entry 17). -/
def Obligations.FlushDispatch : Prop :=
  (∀ (low : BitVec 30) (s : State), s.hung = false → s.phase = .idle → s.cancel = false →
    exec (.flush low) s = .next
      (if s.fbLive = false then
        { s with
          rqOp := 3, rqY := low.extractLsb' 16 14, rqX := low.extractLsb' 0 16
          err := .released, seq := 0, rsps := s.rsps ++ [.released] }
      else if s.ctrl = .uninit then
        { s with
          rqOp := 3, rqY := low.extractLsb' 16 14, rqX := low.extractLsb' 0 16
          err := .state, seq := 0, rsps := s.rsps ++ [.state] }
      else
        { s with
          rqOp := 3, rqY := low.extractLsb' 16 14, rqX := low.extractLsb' 0 16
          phase := .runFlush, seq := 0 })) ∧
  (∀ (low : BitVec 30) (cfg : Config) (fb : Mem), encode cfg fb (.flush low) = .word (mkRequest 0b11#2 low))

/-- R165: the two causes of `StateError`, which changes `err` and answers 5 and otherwise only latches the request (log
entry 17). -/
def Obligations.StateErrorCauses : Prop :=
  ∀ (low : BitVec 30) (s : State), s.hung = false → s.phase = .idle → s.cancel = false → s.seq = 0 →
    (s.ctrl = .active → exec (.init low) s = .next
      { s with
        rqOp := 0, rqY := low.extractLsb' 16 14, rqX := low.extractLsb' 0 16
        err := .state, rsps := s.rsps ++ [.state] }) ∧
    (s.ctrl = .uninit → s.fbLive = true → exec (.flush low) s = .next
      { s with
        rqOp := 3, rqY := low.extractLsb' 16 14, rqX := low.extractLsb' 0 16
        err := .state, rsps := s.rsps ++ [.state] }) ∧
    Response.code .state = 5

/-- Frame of the host operations, SETPIX, FILL, INIT and FLUSH, whatever their outcome: no wire event, no line, no panel
state, no exception register, no configuration and no input changes; `ctrl` and `fb_live` stay; the latches, `err`,
`rsps`, `phase` and `seq` are the registers the rules name; only SETPIX and FILL write the framebuffer, and SETPIX no
byte but the one at `pixelIndex`. -/
def Obligations.HostOpFrame : Prop :=
  ∀ (i : Instr) (s t : State), i.isHostOp = true → Mem.wf s.fb = true → exec i s = .next t →
    t.cfg = s.cfg ∧ t.ctrl = s.ctrl ∧ t.dc = s.dc ∧ t.prst = s.prst ∧ t.errSeq = s.errSeq ∧ t.faultLog = s.faultLog ∧
    t.fbLive = s.fbLive ∧ t.hung = s.hung ∧ t.trace = s.trace ∧ t.panel = s.panel ∧ t.cancel = s.cancel ∧ t.reqs = s.reqs ∧
    t.host = s.host ∧ t.bus = s.bus ∧ t.issue = s.issue ∧
    (∀ low, i = .init low ∨ i = .flush low → t.fb = s.fb) ∧
    (∀ x y, i = .setpix x y → ∀ a, a ≠ pixelIndex x.toNat y.toNat → Mem.read t.fb a = Mem.read s.fb a)

/-! ### Transport primitives -/

/-- R80: SEND_COMMAND whose transaction returns `ok`: the three events, the line restored, `seq` advanced, the byte
delivered to the shadow as a command. -/
def Obligations.SendCommandCompletes : Prop :=
  ∀ (c : Byte) (s : State), s.hung = false → s.bus.nth 0 = .ok →
    exec (.sendCommand c) s = .next
      { s with
        dc := true, seq := s.seq + 1, trace := s.trace ++ [.dc false, .tx [c] .ok, .dc true]
        panel := s.panel.symbol s.cfg false (s.draws + 1) c, bus := s.bus.after 1, draws := s.draws + 3 }

/-- R81: SEND_DATA whose transaction returns `ok`; the line is neither read nor written by the block, and its level tells
the shadow what the byte is. -/
def Obligations.SendDataCompletes : Prop :=
  ∀ (b : Byte) (s : State), s.hung = false → s.bus.nth 0 = .ok →
    exec (.sendData b) s = .next
      { s with
        seq := s.seq + 1, trace := s.trace ++ [.tx [b] .ok]
        panel := s.panel.symbol s.cfg s.dc s.draws b
        bus := s.bus.after 1, draws := s.draws + 1 }

/-- R82: SEND_BYTES of a legal range whose transaction returns `ok`: exactly the bytes `fb[a], ..., fb[a+n-1]` in one
transaction; `fb` is not written. -/
def Obligations.SendBytesCompletes : Prop :=
  ∀ (a n : Nat) (s : State), s.hung = false → s.bus.nth 0 = .ok → 1 ≤ n → n ≤ s.cfg.chunk → a + n ≤ 8192 →
    ∃ bs : List Byte, bs.length = n ∧ (∀ k, k < n → bs[k]? = some (Mem.read s.fb (a + k))) ∧
      exec (.sendBytes a n) s = .next
        { s with
          seq := s.seq + 1, trace := s.trace ++ [.tx bs .ok], panel := s.panel.deliver s.cfg s.dc s.draws bs
          bus := s.bus.after 1, draws := s.draws + 1 }

/-- R83: RST_LOW: the reset line goes low, the event is emitted whatever its level was, and the shadow is reset; its
window, pointer and RAM are free (R33). The draw counter is the model's (log entry 5); that the write cannot fail is
D17 (log entry 10). -/
def Obligations.RstLowCompletes : Prop :=
  (∀ (s : State), s.hung = false → ∃ p, exec .rstLow s = .next
      { s with prst := false, seq := s.seq + 1, trace := s.trace ++ [.rst false], panel := p, draws := s.draws + 1 } ∧
    p.cfgd = .undef ∧ (∀ c, p.regOf c = none) ∧ p.pend = none ∧ p.stream = false ∧ p.sync = true) ∧
  (∀ (cfg : Config) (fb : Mem), encode cfg fb .rstLow = .rst false) ∧ Instr.asmName .rstLow = "RSTL"

/-- R84: RST_HIGH. The draw counter is the model's (log entry 5); that the write cannot fail is D17 (log entry 10). -/
def Obligations.RstHighCompletes : Prop :=
  (∀ (s : State), s.hung = false → exec .rstHigh s = .next
      { s with prst := true, seq := s.seq + 1, trace := s.trace ++ [.rst true], draws := s.draws + 1 }) ∧
  (∀ (cfg : Config) (fb : Mem), encode cfg fb .rstHigh = .rst true) ∧ Instr.asmName .rstHigh = "RSTH"

/-- R85: WAIT records a hold of 150 ms and does nothing on any line. The draw counter is the model's (log entry 5), and
there is no clock (log entry 11). -/
def Obligations.WaitCompletes : Prop :=
  (∀ (s : State), s.hung = false → exec .wait s = .next
      { s with seq := s.seq + 1, trace := s.trace ++ [.wait 150], draws := s.draws + 1 }) ∧
  (∀ (cfg : Config) (fb : Mem), encode cfg fb .wait = .hold 150) ∧ Instr.asmName .wait = "WAIT"

/-- R86 with R162, R163, R169: when a transaction fails, `ConfigurationError` in `RUN_INIT` and else `TransferError` is
taken: `err_seq` keeps the failing index, `fault_log` is set, `ctrl` and `phase` fall back, `seq` is 0, the code is
answered once; `fb`, `fb_live` and `prst` stay; the command line is restored first. -/
def Obligations.BusFailureIsFatal : Prop :=
  ∀ (s : State) (e : Response), s.hung = false → s.bus.nth 0 = .fail →
    e = (if s.phase = .runInit then .configuration else .transfer) →
    (∀ c, ∃ p, exec (.sendCommand c) s = .next
      { s with
        dc := true, trace := s.trace ++ [.dc false, .tx [c] .fail, .dc true], panel := p, bus := s.bus.after 1
        draws := s.draws + 3, errSeq := s.seq, faultLog := true, ctrl := .uninit, phase := .idle, seq := 0
        err := e, rsps := s.rsps ++ [e] }) ∧
    (∀ b, ∃ p, exec (.sendData b) s = .next
      { s with
        trace := s.trace ++ [.tx [b] .fail], panel := p, bus := s.bus.after 1
        draws := s.draws + 1, errSeq := s.seq, faultLog := true, ctrl := .uninit, phase := .idle, seq := 0
        err := e, rsps := s.rsps ++ [e] }) ∧
    (∀ a n, 1 ≤ n → n ≤ s.cfg.chunk → a + n ≤ 8192 → ∃ p, exec (.sendBytes a n) s = .next
      { s with
        trace := s.trace ++ [.tx (Mem.readRange s.fb a n) .fail], panel := p, bus := s.bus.after 1
        draws := s.draws + 1, errSeq := s.seq, faultLog := true, ctrl := .uninit, phase := .idle, seq := 0
        err := e, rsps := s.rsps ++ [e] })

/-- R87: a transaction that never returns: no `TX` event, no response; for SEND_COMMAND the `DC(0)` event has been emitted
and `dc = 0` remains. -/
def Obligations.BusHangLeavesTheLine : Prop :=
  ∀ (s : State), s.hung = false → s.bus.nth 0 = .hang →
    (∀ c, exec (.sendCommand c) s = .next
      { s with
        dc := false, trace := s.trace ++ [.dc false], hung := true, bus := s.bus.after 1, draws := s.draws + 1 }) ∧
    (∀ b, exec (.sendData b) s = .next { s with hung := true, bus := s.bus.after 1 }) ∧
    (∀ a n, 1 ≤ n → n ≤ s.cfg.chunk → a + n ≤ 8192 →
      exec (.sendBytes a n) s = .next { s with hung := true, bus := s.bus.after 1 })

/-- R87, R193: while a transaction never returns no instruction runs and the block has no step. -/
def Obligations.HangIsStuck : Prop :=
  ∀ (s : State), s.hung = true →
    (∀ i, exec i s = .fault .busHang) ∧ (∀ t, BlockTurn s t → step s = .fault .busHang)

/-- R82, `00_scope.md` R8: SEND_BYTES past the framebuffer faults, and of no byte or more than `CHUNK` is refused, each by
name. -/
def Obligations.SendBytesStops : Prop :=
  ∀ (a n : Nat) (s : State), s.hung = false →
    (8192 < a + n → exec (.sendBytes a n) s = .fault .fbRange) ∧
    (a + n ≤ 8192 → n = 0 ∨ s.cfg.chunk < n → exec (.sendBytes a n) s = .refused .chunkLength)

/-- Frame of the transport primitives and the controller commands, whatever their outcome: the framebuffer, every byte of
it, the latches, `fb_live`, the configuration and the host's inputs are unchanged; `prst` changes by RST_LOW and
RST_HIGH only and `dc` by a command byte only; the exception registers, `ctrl`, `phase`, `err` and the responses change only together, when a
transaction failed. -/
def Obligations.WireInstrFrame : Prop :=
  ∀ (i : Instr) (s t : State), i.isHostOp = false → exec i s = .next t →
    t.cfg = s.cfg ∧ t.fb = s.fb ∧ (∀ a, Mem.read t.fb a = Mem.read s.fb a) ∧
    t.fbLive = s.fbLive ∧ t.rqOp = s.rqOp ∧ t.rqX = s.rqX ∧ t.rqY = s.rqY ∧
    t.cancel = s.cancel ∧ t.reqs = s.reqs ∧ t.host = s.host ∧ t.issue = s.issue ∧
    (i ≠ .rstLow → i ≠ .rstHigh → t.prst = s.prst) ∧
    ((∀ c, i ≠ .sendCommand c) → i.command? = none → t.dc = s.dc) ∧
    ((t.ctrl = s.ctrl ∧ t.phase = s.phase ∧ t.err = s.err ∧ t.errSeq = s.errSeq ∧ t.faultLog = s.faultLog ∧
        t.rsps = s.rsps) ∨
      (∃ bs r, t.trace = s.trace ++ r ∧ Event.tx bs .fail ∈ r ∧ t.ctrl = .uninit ∧ t.phase = .idle ∧ t.seq = 0 ∧
        t.faultLog = true ∧ t.rsps = s.rsps ++ [t.err]))

/-! ### Controller commands -/

/-- R90, for each of the thirty commands (`Instr.ofCommand c args` is that command's constructor): with all its transactions
`ok`, the command byte framed by the line and then each argument in a transaction of its own; `seq` advances by one a
primitive. -/
def Obligations.CommandFrameCompletes : Prop :=
  ∀ (c : Command) (args : List Byte) (s : State), s.hung = false → AnswersOk s (1 + args.length) →
    exec (Instr.ofCommand c args) s = .next
      { s with
        dc := true
        seq := s.seq + BitVec.ofNat 14 (1 + args.length)
        trace := s.trace ++ ([.dc false, .tx [s.cfg.opc c] .ok, .dc true] ++ args.map fun a => Event.tx [a] .ok)
        panel := (s.panel.symbol s.cfg false (s.draws + 1) (s.cfg.opc c)).receiveArgs s.cfg (s.draws + 3) args
        bus := s.bus.after (1 + args.length)
        draws := s.draws + (3 + args.length) }

/-- R91 to R120, R49, R122: a complete frame of any of the thirty commands, received by a panel that owes no argument:
RAM_WRITE alone opens the stream; the parser's sync stays and it owes nothing; in sync, SETCOL and SETROW set the window
and the pointer; and, on a panel whose contents may be relied on (R194), `p_reg(c)` holds its arguments and no other
register and no RAM changes. The frames of INIT, sent to a panel that is not yet P_ACTIVE, are InitRunsToActive's. -/
def Obligations.CommandFrameRecorded : Prop :=
  ∀ (c : Command) (args : List Byte) (s : State), s.hung = false → s.cfg.wf = true → AnswersOk s (1 + args.length) →
    args.length = s.cfg.nargs c → s.panel.pend = none →
    ∃ t, exec (Instr.ofCommand c args) s = .next t ∧
      t.panel.pend = none ∧ t.panel.sync = s.panel.sync ∧ t.panel.stream = decide (c = Command.ramWrite) ∧
      t.panel.cfgd = s.panel.cfgd ∧
      (s.panel.cfgd = .active → s.panel.sync = true →
        t.panel.regOf c = some args ∧ (∀ d, d ≠ c → t.panel.regOf d = s.panel.regOf d) ∧ t.panel.ram = s.panel.ram) ∧
      (s.panel.sync = true →
        (∀ b e, c = .setcol → args = [b, e] → t.panel.cs = b ∧ t.panel.ce = e ∧ t.panel.cc = b) ∧
        (∀ b e, c = .setrow → args = [b, e] → t.panel.rs = b ∧ t.panel.re = e ∧ t.panel.rc = b) ∧
        (c ≠ .setcol → t.panel.cs = s.panel.cs ∧ t.panel.ce = s.panel.ce ∧ t.panel.cc = s.panel.cc) ∧
        (c ≠ .setrow → t.panel.rs = s.panel.rs ∧ t.panel.re = s.panel.re ∧ t.panel.rc = s.panel.rc))

/-- R90: a frame is not atomic. Its command byte is transaction 0 and its argument `k` transaction `k + 1`. When one of them
is the first to fail, those before it were sent, none after it is, and the error names the failing primitive; when one
is the first that never returns, the block stays there (the flag `hung` is the model's, log entry 9), with the line low
only if it is the command byte (R87). The whole frame in one step is log entry 15, the draw counter log entry 5. -/
def Obligations.CommandFrameCutShort : Prop :=
  ∀ (c : Command) (args : List Byte) (s : State), s.hung = false →
    (s.bus.nth 0 = .fail → ∃ t, exec (Instr.ofCommand c args) s = .next t ∧
      t.trace = s.trace ++ [.dc false, .tx [s.cfg.opc c] .fail, .dc true] ∧ t.dc = true ∧
      t.errSeq = s.seq ∧ t.seq = 0 ∧ t.phase = .idle ∧ t.ctrl = .uninit ∧ t.faultLog = true ∧
      t.err = (if s.phase = .runInit then .configuration else .transfer) ∧ t.rsps = s.rsps ++ [t.err] ∧
      t.bus = s.bus.after 1 ∧ t.panel.cfgd = .undef ∧ t.panel.sync = false) ∧
    (∀ (k : Nat) (a : Byte), AnswersOk s (1 + k) → s.bus.nth (1 + k) = .fail → args[k]? = some a →
      ∃ t, exec (Instr.ofCommand c args) s = .next t ∧
        t.trace = s.trace ++ ([.dc false, .tx [s.cfg.opc c] .ok, .dc true]
          ++ (args.take k).map (fun a => Event.tx [a] .ok) ++ [.tx [a] .fail]) ∧ t.dc = true ∧
        t.errSeq = s.seq + BitVec.ofNat 14 (1 + k) ∧ t.seq = 0 ∧ t.phase = .idle ∧ t.ctrl = .uninit ∧ t.faultLog = true ∧
        t.err = (if s.phase = .runInit then .configuration else .transfer) ∧ t.rsps = s.rsps ++ [t.err] ∧
        t.bus = s.bus.after (2 + k) ∧ t.panel.cfgd = .undef ∧ t.panel.sync = false) ∧
    (s.bus.nth 0 = .hang → exec (Instr.ofCommand c args) s = .next
      { s with
        dc := false, trace := s.trace ++ [.dc false], hung := true, bus := s.bus.after 1, draws := s.draws + 1 }) ∧
    (∀ (k : Nat), AnswersOk s (1 + k) → s.bus.nth (1 + k) = .hang → k < args.length →
      exec (Instr.ofCommand c args) s = .next
        { s with
          dc := true, hung := true, seq := s.seq + BitVec.ofNat 14 (1 + k)
          trace := s.trace ++ ([.dc false, .tx [s.cfg.opc c] .ok, .dc true]
            ++ (args.take k).map fun a => Event.tx [a] .ok)
          panel := (s.panel.symbol s.cfg false (s.draws + 1) (s.cfg.opc c)).receiveArgs s.cfg (s.draws + 3) (args.take k)
          bus := s.bus.after (2 + k), draws := s.draws + (3 + k) })

/-! ### The panel shadow -/

/-- R50, the receiver's rule itself, of any panel: a display-RAM byte goes to the pointer's cell and no other, and the pointer
advances column first, wrapping inside the window. (What a failure leaves of a panel is R194's: see OutOfSyncIsSticky.) -/
def Obligations.RamByteAndPointer : Prop :=
  ∀ (p : Panel) (b : Byte), Mem.wf p.ram = true → p.cc.toNat < 128 → p.rc.toNat < 64 →
    (p.ramByte b).cell p.cc.toNat p.rc.toNat = b ∧
    (∀ c r, c < 128 → r < 64 → ¬(c = p.cc.toNat ∧ r = p.rc.toNat) → (p.ramByte b).cell c r = p.cell c r) ∧
    (p.cc.toNat < p.ce.toNat → (p.ramByte b).cc.toNat = p.cc.toNat + 1 ∧ (p.ramByte b).rc = p.rc) ∧
    (p.ce.toNat ≤ p.cc.toNat → p.rc.toNat < p.re.toNat →
      (p.ramByte b).cc = p.cs ∧ (p.ramByte b).rc.toNat = p.rc.toNat + 1) ∧
    (p.ce.toNat ≤ p.cc.toNat → p.re.toNat ≤ p.rc.toNat → (p.ramByte b).cc = p.cs ∧ (p.ramByte b).rc = p.rs)

/-- R50: with the window `(0, 127, 0, 63)` and the pointer at its start, 8192 bytes of the stream, received in sync, fill the
cells row by row, the `k`-th in cell (`k mod 128`, `k div 128`), and the pointer is back at `(0, 0)`; in sync or not the
stream stays open. -/
def Obligations.StreamFillsTheWindow : Prop :=
  ∀ (cfg : Config) (n : Nat) (p : Panel) (bs : List Byte), Mem.wf p.ram = true → p.pend = none → p.stream = true →
    p.cs = 0 → p.ce = 127 → p.rs = 0 → p.re = 63 → p.cc = 0 → p.rc = 0 → bs.length = 8192 →
    ∃ q, q = p.deliver cfg true n bs ∧ q.sync = p.sync ∧ q.stream = true ∧ q.pend = none ∧
      (p.sync = true →
        (∀ k, k < 8192 → bs[k]? = some (q.cell (k % 128) (k / 128))) ∧ q.cc = 0 ∧ q.rc = 0)

/-- R49, R185, R68, U3: what the parser cannot place puts the panel out of sync: a command byte while arguments are owed, a
data byte with no place, a byte that is no opcode. Its contents are then any value: whatever the panel held and whatever
the byte was, two panels out of sync after one draw hold the same free values (log entry 22). -/
def Obligations.MisplacedByteDesynchronises : Prop :=
  ∀ (cfg : Config) (n : Nat) (p : Panel) (b : Byte),
    (p.pend.isSome = true → (p.symbol cfg false n b).sync = false) ∧
    (p.pend = none → p.stream = false → (p.symbol cfg true n b).sync = false) ∧
    ((∀ c, cfg.opc c ≠ b) → (p.symbol cfg false n b).sync = false ∧ (p.symbol cfg false n b).pend = none ∧
      (p.symbol cfg false n b).stream = false) ∧
    (∀ (dc dc' : Bool) (p' : Panel) (b' : Byte), (p.symbol cfg dc n b).sync = false → (p'.symbol cfg dc' n b').sync = false →
      SameContents (p.symbol cfg dc n b) (p'.symbol cfg dc' n b'))

/-- R48, R49: out of sync is for good until the panel's hardware reset; and a failed transaction always leaves the panel
undefined and out of sync, with its contents any value: nothing of what it held is left in them (R194). -/
def Obligations.OutOfSyncIsSticky : Prop :=
  ∀ (cfg : Config) (dc : Bool) (n : Nat) (ev : Event) (p : Panel),
    (p.sync = false → ev ≠ .rst false → (Panel.recv cfg dc n ev p).sync = false) ∧
    (∀ bs, ev = .tx bs .fail → (Panel.recv cfg dc n ev p).sync = false ∧ (Panel.recv cfg dc n ev p).cfgd = .undef ∧
      ∀ p', SameContents (Panel.recv cfg dc n ev p) (Panel.recv cfg dc n ev p'))

/-- R33: the shadow is hidden state, the block never reads it: two states that differ only in the shadow step alike but for
it. -/
def Obligations.ShadowIsNeverRead : Prop :=
  ∀ (s : State) (p : Panel),
    (∀ i, onNext (fun t => { t with panel := p }) (exec i { s with panel := p })
      = onNext (fun t => { t with panel := p }) (exec i s)) ∧
    onNext (fun t => { t with panel := p }) (step { s with panel := p }) = onNext (fun t => { t with panel := p }) (step s)

/-! ### The sequencer -/

/-- R130, R131: the shape of `INIT_PROG`: the reset pulse with its two holds, the frames of the twenty commands in the order of
R130, the last hold; its length; 44 under DEF-GK (log entry 2). -/
def Obligations.InitProgShape : Prop :=
  (∀ (cfg : Config), ∃ frames, initProg cfg = [.rstLow, .wait, .rstHigh, .wait] ++ frames ++ [.wait] ∧
    frames = Command.initList.flatMap (fun c => .sendCommand (cfg.opc c) :: (cfg.initArgs c).map Instr.sendData) ∧
    (initProg cfg).length = 5 + 20 + cfg.initArgTotal) ∧
  Command.initList = [.lock, .clock, .mux, .offset, .startline, .remap, .gpio, .vdd, .enhA, .contrast, .brightness,
    .greyDefault, .phase, .enhB, .prechgV, .prechgPeriod, .vcomh, .modeNormal, .partialOff, .sleepOff] ∧
  Command.initList.length = 20 ∧ (initProg Config.defGK).length = 44

/-- R143 and R54: `FLUSH_PROG` is the column window, the row window, RAM_WRITE and then the chunks; every chunk is a legal
SEND_BYTES; and for every `CHUNK` in 1..8192 their bytes together are `MemRead(0, 8192)`. -/
def Obligations.ChunksAreNeutral : Prop :=
  ∀ (cfg : Config) (fb : Mem), 1 ≤ cfg.chunk → cfg.chunk ≤ 8192 →
    flushProg cfg = [.sendCommand (cfg.opc .setcol), .sendData cfg.colStart, .sendData cfg.colEnd,
      .sendCommand (cfg.opc .setrow), .sendData cfg.rowStart, .sendData cfg.rowEnd,
      .sendCommand (cfg.opc .ramWrite)] ++ flushChunks cfg ∧
    (flushProg cfg).length = 7 + (8192 + cfg.chunk - 1) / cfg.chunk ∧
    (∀ i ∈ flushChunks cfg, ∃ a n, i = .sendBytes a n ∧ 1 ≤ n ∧ n ≤ cfg.chunk ∧ a + n ≤ 8192) ∧
    ((flushChunks cfg).flatMap fun i => match i with | .sendBytes a n => Mem.readRange fb a n | _ => [])
      = Mem.readRange fb 0 8192

/-- R134, R144: completion. At the end of `INIT_PROG` the controller is ACTIVE and the panel configured; at the end of
`FLUSH_PROG` the buffer is released under `SINGLE_USE`; both answer `OK` and return to `IDLE`. -/
def Obligations.SequenceCompletes : Prop :=
  ∀ (s : State), s.host = [] → s.hung = false → s.issue = none →
    (s.phase = .runInit → s.seq.toNat = (initProg s.cfg).length → step s = .next
      { s with
        ctrl := .active, phase := .idle, seq := 0, err := .ok, rsps := s.rsps ++ [.ok]
        panel := { s.panel with cfgd := .active } }) ∧
    (s.phase = .runFlush → s.seq.toNat = (flushProg s.cfg).length → step s = .next
      { s with
        phase := .idle, seq := 0, err := .ok, rsps := s.rsps ++ [.ok]
        fbLive := if s.cfg.singleUse then false else s.fbLive })

/-- R137, R134: from its dispatch, a successful INIT of any configuration emits the worked trace and ends ACTIVE and IDLE,
with every init command recorded in an in-sync panel. The draw counter is the model's (log entry 5). -/
def Obligations.InitRunsToActive : Prop :=
  ∀ (s : State), Inv s → s.phase = .runInit → s.seq = 0 → s.hung = false → s.host = [] →
    AnswersOk s (20 + s.cfg.initArgTotal) →
    ∃ p, stepsN (26 + s.cfg.initArgTotal) s = .next
      { s with
        ctrl := .active, phase := .idle, seq := 0, dc := true, prst := true, err := .ok, rsps := s.rsps ++ [.ok]
        trace := s.trace ++ initTrace s.cfg, panel := p, bus := s.bus.after (20 + s.cfg.initArgTotal)
        draws := s.draws + (65 + s.cfg.initArgTotal) } ∧
      p.cfgd = .active ∧ p.sync = true ∧ p.pend = none ∧ p.stream = false ∧
      (∀ c ∈ Command.initList, p.regOf c = some (s.cfg.initArgs c)) ∧
      (∀ c, c ∉ Command.initList → p.regOf c = none)

/-- R144, R50, R143: from its dispatch, a successful FLUSH of any configuration emits the window, RAM_WRITE and the whole
buffer and ends IDLE; and with the window `(0, 127, 0, 63)` a panel that may be relied on (R194) then holds the
framebuffer. The draw counter is the model's (log entry 5). -/
def Obligations.FlushRunsToCompletion : Prop :=
  ∀ (s : State), Inv s → s.phase = .runFlush → s.seq = 0 → s.hung = false → s.host = [] →
    AnswersOk s (7 + s.cfg.nchunk) →
    ∃ p, stepsN (8 + s.cfg.nchunk) s = .next
      { s with
        phase := .idle, seq := 0, dc := true, err := .ok, rsps := s.rsps ++ [.ok]
        fbLive := if s.cfg.singleUse then false else s.fbLive
        trace := s.trace ++ flushTrace s.cfg s.fb, panel := p, bus := s.bus.after (7 + s.cfg.nchunk)
        draws := s.draws + (13 + s.cfg.nchunk) } ∧
      (s.panel.pend = none → s.cfg.colStart = 0 → s.cfg.rowStart = 0 →
        p.sync = s.panel.sync ∧ p.cfgd = s.panel.cfgd ∧ p.pend = none ∧ p.stream = true ∧
        (s.panel.sync = true → p.cc = 0 ∧ p.rc = 0) ∧
        (s.panel.cfgd = .active → s.panel.sync = true →
          ∀ c r, c < 128 → r < 64 → p.cell c r = Mem.read s.fb (128 * r + c)))

/-- R23, R133: while the sequencer runs, a step of the block advances `seq` by exactly 1, or ends the operation with `seq`
0 and a response, or leaves a transaction that never returns. -/
def Obligations.SeqOnlyGoesForward : Prop :=
  ∀ (s t u : State), Inv s → s.phase ≠ .idle → BlockTurn s u → step s = .next t →
    (t.seq.toNat = s.seq.toNat + 1 ∧ t.phase = s.phase ∧ t.rsps = s.rsps ∧ t.hung = false) ∨
    (t.seq = 0 ∧ t.phase = .idle ∧ t.rsps = s.rsps ++ [t.err] ∧ t.hung = false) ∨
    (t.seq = s.seq ∧ t.phase = s.phase ∧ t.rsps = s.rsps ∧ t.hung = true)

/-! ### Whole-machine rules -/

/-- R35: the invariants hold after reset, under every legal configuration. -/
def Obligations.InvariantsHoldAtReset : Prop :=
  (∀ (cfg : Config), cfg.wf = true → Inv (State.resetWith cfg)) ∧ Inv State.reset

/-- R35: every step keeps the invariants. -/
def Obligations.StepKeepsInvariants : Prop :=
  ∀ (s t : State), Inv s → step s = .next t → Inv t

/-- R35 (d): every step keeps that `ctrl = ACTIVE` means a complete, all-`ok` run of `INIT_PROG` is in the trace, with no
reset pulse and no failure after it; and it holds after reset. -/
def Obligations.ActiveMeansInitialised : Prop :=
  (∀ (cfg : Config), ActiveHistory (State.resetWith cfg)) ∧
  (∀ (s t : State), Inv s → ActiveHistory s → step s = .next t → ActiveHistory t)

/-- R122: it holds after reset and every step keeps it that, in a run with no failed transaction, the panel stays in sync and
owes exactly the arguments that stand next in the sequencer's list; so it owes nothing wherever the next primitive is
not an argument: after every frame, and in `IDLE`. -/
def Obligations.NoFailKeepsFramesInSync : Prop :=
  (∀ (cfg : Config), FramesInSync (State.resetWith cfg)) ∧
  (∀ (s t : State), Inv s → FramesInSync s → step s = .next t → FramesInSync t) ∧
  (∀ (s : State), FramesInSync s → noFail s.trace = true → (∀ b, s.prog[s.seq.toNat]? ≠ some (.sendData b)) →
    s.panel.sync = true ∧ s.panel.pend = none)

/-- R184: every instruction and every step keeps the trace framed: the line is low for exactly one command byte at a
time. -/
def Obligations.CommandLineFraming : Prop :=
  (∀ (i : Instr) (s t : State), FramedState s → exec i s = .next t → FramedState t) ∧
  (∀ (s t : State), FramedState s → step s = .next t → FramedState t) ∧
  (∀ (cfg : Config), FramedState (State.resetWith cfg))

/-- R10, R12, R193: from every state that meets the invariants with no transaction outstanding for ever, the machine has a
next state: it needs no fault and no refusal. -/
def Obligations.StepNeverStops : Prop :=
  ∀ (s : State), Inv s → s.hung = false → ∃ t, step s = .next t

/-- R20: the framebuffer is written only by SETPIX and FILL, and by block reset. -/
def Obligations.OnlySetpixAndFillWriteTheBuffer : Prop :=
  (∀ (i : Instr) (s t : State), (∀ x y, i ≠ .setpix x y) → (∀ low, i ≠ .fill low) → exec i s = .next t → t.fb = s.fb) ∧
  (∀ (s t : State), Inv s → s.phase ≠ .idle → (∀ r, s.host ≠ .reset :: r) → step s = .next t → t.fb = s.fb)

/-- R53: the configuration, and so the primitive lists, are changed by no instruction and no step; and a step of a run only
adds to the trace. -/
def Obligations.ConfigurationIsConstant : Prop :=
  (∀ (i : Instr) (s t : State), exec i s = .next t → t.cfg = s.cfg ∧ ∃ evs, t.trace = s.trace ++ evs) ∧
  (∀ (s t : State), step s = .next t → t.cfg = s.cfg ∧
    ((∃ r, s.host = .reset :: r) ∨ ∃ evs, t.trace = s.trace ++ evs))

/-- R136, R21: the transitions of `ctrl`: to ACTIVE only by the completion of INIT; from ACTIVE only by block reset or a
`TransferError`. -/
def Obligations.ControllerTransitions : Prop :=
  ∀ (s t : State), Inv s → step s = .next t →
    (s.ctrl = .uninit → t.ctrl = .active →
      s.phase = .runInit ∧ s.seq.toNat = (initProg s.cfg).length ∧ t.phase = .idle ∧ t.err = .ok) ∧
    (s.ctrl = .active → t.ctrl = .uninit →
      (∃ r, s.host = .reset :: r) ∨ (s.phase = .runFlush ∧ t.err = .transfer ∧ t.phase = .idle))

/-- R27, R28: `fault_log` is set exactly by the two fatal errors and cleared only by block reset; `err_seq` is written only
by them, with the failing index, and by block reset. -/
def Obligations.FaultRecords : Prop :=
  ∀ (s t : State), Inv s → (∀ r, s.host ≠ .reset :: r) → step s = .next t →
    (s.faultLog = true → t.faultLog = true) ∧
    (s.faultLog = false → t.faultLog = true → t.err = .configuration ∨ t.err = .transfer) ∧
    (t.errSeq ≠ s.errSeq → t.errSeq = s.seq ∧ t.faultLog = true ∧ (t.err = .configuration ∨ t.err = .transfer))

/-- R160, R164, R169: a step answers at most one request; an answer is the new `err`, ends the operation in `IDLE` with
`seq` 0, and is never `AcquisitionError`. -/
def Obligations.ResponsesEndOperations : Prop :=
  ∀ (s t : State), Inv s → (∀ r, s.host ≠ .reset :: r) → step s = .next t →
    (t.rsps = s.rsps ∧ t.err = s.err) ∨
    (t.rsps = s.rsps ++ [t.err] ∧ t.phase = .idle ∧ t.seq = 0 ∧ t.err ≠ .acquisition)

/-- R29, R144: the buffer is released only by the completion of a FLUSH under `SINGLE_USE`, and nothing but block reset
brings it back. -/
def Obligations.ReleaseOnlyByFlush : Prop :=
  ∀ (s t : State), step s = .next t →
    (s.fbLive = true → t.fbLive = false →
      s.phase = .runFlush ∧ s.cfg.singleUse = true ∧ s.seq.toNat = (flushProg s.cfg).length) ∧
    (s.fbLive = false → t.fbLive = true → ∃ r, s.host = .reset :: r)

/-- V94, V96: a released buffer with an uninitialised controller is unreachable: every step keeps that the buffer is
released only while ACTIVE and IDLE. -/
def Obligations.ReleasedStaysActive : Prop :=
  ∀ (s t : State), Inv s → ReleasedIdle s → step s = .next t → ReleasedIdle t
end

