-- ==== Sys2Proof/Laws/Decode.lean ====
section
/-! SUPPORT. The fields of the encodings: what the named parts of a request word and of a wire symbol are, once it has been
put together, and that they are all of it. -/

namespace Sys2Proof.Laws

open Sys2Proof.Machine

/-! ### Wire symbols -/

@[simp] theorem symDc_mkSymbol (dc : Bool) (b : Byte) : symDc (mkSymbol dc b) = dc := by
  revert b; cases dc <;> decide

@[simp] theorem symByte_mkSymbol (dc : Bool) (b : Byte) : symByte (mkSymbol dc b) = b := by
  revert b; cases dc <;> decide

/-! ### Request words -/

theorem mkRequest_toNat (op : BitVec 2) (low : BitVec 30) :
    (mkRequest op low).toNat = op.toNat * 2 ^ 30 + low.toNat := by
  have h := low.isLt
  rw [show mkRequest op low = op ++ low from rfl, BitVec.toNat_append, Nat.shiftLeft_eq,
    Nat.mul_comm, ← Nat.two_pow_add_eq_or_of_lt h]

theorem coords_toNat (y : BitVec 14) (x : BitVec 16) : (y ++ x).toNat = y.toNat * 2 ^ 16 + x.toNat := by
  have h := x.isLt
  rw [BitVec.toNat_append, Nat.shiftLeft_eq, Nat.mul_comm, ← Nat.two_pow_add_eq_or_of_lt h]

theorem reqOp_toNat (w : Request) : (reqOp w).toNat = w.toNat / 2 ^ 30 := by
  have h := w.isLt
  simp only [reqOp, BitVec.extractLsb'_toNat, Nat.shiftRight_eq_div_pow]
  omega

theorem reqY_toNat (w : Request) : (reqY w).toNat = w.toNat / 2 ^ 16 % 2 ^ 14 := by
  simp only [reqY, BitVec.extractLsb'_toNat, Nat.shiftRight_eq_div_pow]

theorem reqX_toNat (w : Request) : (reqX w).toNat = w.toNat % 2 ^ 16 := by
  simp [reqX, BitVec.extractLsb'_toNat]

theorem reqLow_toNat (w : Request) : (reqLow w).toNat = w.toNat % 2 ^ 30 := by
  simp [reqLow, BitVec.extractLsb'_toNat]

@[simp] theorem reqOp_mkRequest (op : BitVec 2) (low : BitVec 30) : reqOp (mkRequest op low) = op := by
  have h := low.isLt
  apply BitVec.eq_of_toNat_eq
  rw [reqOp_toNat, mkRequest_toNat]
  omega

@[simp] theorem reqLow_mkRequest (op : BitVec 2) (low : BitVec 30) : reqLow (mkRequest op low) = low := by
  have h := low.isLt
  apply BitVec.eq_of_toNat_eq
  rw [reqLow_toNat, mkRequest_toNat]
  omega

@[simp] theorem reqX_mkRequest (op : BitVec 2) (y : BitVec 14) (x : BitVec 16) : reqX (mkRequest op (y ++ x)) = x := by
  have h := x.isLt
  apply BitVec.eq_of_toNat_eq
  rw [reqX_toNat, mkRequest_toNat, coords_toNat]
  omega

@[simp] theorem reqY_mkRequest (op : BitVec 2) (y : BitVec 14) (x : BitVec 16) : reqY (mkRequest op (y ++ x)) = y := by
  have h := x.isLt
  have h' := y.isLt
  apply BitVec.eq_of_toNat_eq
  rw [reqY_toNat, mkRequest_toNat, coords_toNat]
  omega

/-- A request word is its operation field and its low bits. -/
theorem mkRequest_fields (w : Request) : mkRequest (reqOp w) (reqLow w) = w := by
  apply BitVec.eq_of_toNat_eq
  rw [mkRequest_toNat, reqOp_toNat, reqLow_toNat]
  omega

/-- The low bits are the row and the column field. -/
theorem low_fields (w : Request) : reqY w ++ reqX w = reqLow w := by
  apply BitVec.eq_of_toNat_eq
  rw [coords_toNat, reqY_toNat, reqX_toNat, reqLow_toNat]
  omega

/-! ### Frames -/

/-- The arguments of a frame, off the front of what follows its command byte. -/
theorem decodeArgs_encoded : ∀ (args : List Byte) (rest : List Symbol),
    decodeArgs args.length (args.map (mkSymbol true) ++ rest) = some (args, rest) := by
  intro args
  induction args with
  | nil => intro rest; rfl
  | cons a as ih => intro rest; simp [decodeArgs, ih]

end Sys2Proof.Laws
end

