-- ==== Sys2Proof/Laws/Memory.lean ====
section
/-! SUPPORT. The laws of memory: what reads give after writes, and that every operation keeps the canonical form. -/

namespace Sys2Proof.Machine.Laws

theorem read_of_wfFrom_lt {m : Mem} : ∀ {lo a : Nat}, Mem.wfFrom lo m = true → a < lo → Mem.read m a = Mem.blank := by
  induction m with
  | nil => intros; rfl
  | cons e t ih =>
    obtain ⟨k, v⟩ := e
    intro lo a h ha
    simp only [Mem.wfFrom, Bool.and_eq_true, decide_eq_true_eq] at h
    have hk : k ≠ a := by omega
    simpa [Mem.read, hk] using ih h.2 (by omega)

theorem wfFrom_mono {m : Mem} {lo lo' : Nat} (h : Mem.wfFrom lo m = true) (hl : lo' ≤ lo) : Mem.wfFrom lo' m = true := by
  cases m with
  | nil => rfl
  | cons e t =>
    obtain ⟨k, v⟩ := e
    simp only [Mem.wfFrom, Bool.and_eq_true, decide_eq_true_eq] at h ⊢
    exact ⟨⟨⟨by omega, h.1.1.2⟩, h.1.2⟩, h.2⟩

theorem put_wfFrom {m : Mem} {a : Nat} {v : Byte} : ∀ {lo : Nat}, Mem.wfFrom lo m = true → lo ≤ a → a < Mem.size →
    Mem.wfFrom lo (Mem.put m a v) = true := by
  induction m with
  | nil => intro lo _ h1 h2; by_cases hv : v = Mem.blank <;> simp [Mem.put, Mem.wfFrom, hv, h1, h2]
  | cons e t ih =>
    obtain ⟨k, w⟩ := e
    intro lo h h1 h2
    have h' := h
    simp only [Mem.wfFrom, Bool.and_eq_true, decide_eq_true_eq] at h'
    obtain ⟨⟨⟨hk, hks⟩, hw⟩, ht⟩ := h'
    simp only [Mem.put]
    split_ifs with c1 c2 c3 c4
    · simp [Mem.wfFrom, hk, hks, ih ht (by omega) h2]; simpa using hw
    · exact wfFrom_mono ht (by omega)
    · simp [Mem.wfFrom, h1, h2, c3]; exact c2 ▸ ht
    · exact h
    · simp [Mem.wfFrom, h1, h2, c4, hks, ht]; exact ⟨by omega, by simpa using hw⟩

/-- Writing a byte keeps the canonical form. -/
theorem write_wf {m : Mem} (a : Nat) (v : Byte) (h : Mem.wf m = true) : Mem.wf (Mem.write m a v) = true := by
  unfold Mem.write
  split_ifs with ha
  · exact put_wfFrom h (Nat.zero_le _) ha
  · exact h

theorem read_put {m : Mem} {a : Nat} {v : Byte} : ∀ {lo : Nat}, Mem.wfFrom lo m = true → ∀ b,
    Mem.read (Mem.put m a v) b = if b = a then v else Mem.read m b := by
  induction m with
  | nil =>
    intro lo _ b
    by_cases hv : v = Mem.blank <;> by_cases hb : b = a <;> simp [Mem.put, Mem.read, hv, hb, eq_comm]
    exact fun h => absurd h.symm hb
  | cons e t ih =>
    obtain ⟨k, w⟩ := e
    intro lo h b
    simp only [Mem.wfFrom, Bool.and_eq_true, decide_eq_true_eq] at h
    have blankHere : ∀ b, b < k + 1 → Mem.read t b = Mem.blank := fun b hb => read_of_wfFrom_lt h.2 hb
    rcases Nat.lt_trichotomy k a with c | c | c
    · rw [Mem.put, if_pos c]
      by_cases hkb : k = b
      · rw [if_neg (by omega)]; simp [Mem.read, hkb]
      · simpa [Mem.read, hkb] using ih h.2 b
    · subst c
      rw [Mem.put, if_neg (by omega), if_pos rfl]
      by_cases hb : b = k
      · subst hb; by_cases hv : v = Mem.blank <;> simp [Mem.read, hv, blankHere]
      · have hkb : k ≠ b := Ne.symm hb
        by_cases hv : v = Mem.blank <;> simp [Mem.read, hv, hb, hkb]
    · rw [Mem.put, if_neg (by omega), if_neg (by omega)]
      by_cases hb : b = a
      · subst hb
        have hkb : k ≠ b := by omega
        by_cases hv : v = Mem.blank <;> simp [Mem.read, hv, hkb, blankHere b (by omega)]
      · have hab : a ≠ b := Ne.symm hb
        by_cases hv : v = Mem.blank <;> simp [Mem.read, hv, hb, hab]

/-- A read after a write gives the value written at its address, and every other address is left alone. -/
theorem read_write {m : Mem} (h : Mem.wf m = true) {a : Nat} (ha : a < Mem.size) (v : Byte) (b : Nat) :
    Mem.read (Mem.write m a v) b = if b = a then v else Mem.read m b := by
  simp [Mem.write, ha, read_put h]

/-- A write leaves every other address alone, even one that reaches no cell. -/
theorem read_write_other {m : Mem} (h : Mem.wf m = true) {a b : Nat} (v : Byte) (hb : b ≠ a) :
    Mem.read (Mem.write m a v) b = Mem.read m b := by
  unfold Mem.write
  split_ifs
  · simp [read_put h, hb]
  · rfl

theorem build_wfFrom (f : Nat → Byte) : ∀ (n a : Nat), a + n ≤ Mem.size → Mem.wfFrom a (Mem.build f a n) = true := by
  intro n
  induction n with
  | zero => intros; rfl
  | succ n ih =>
    intro a h
    simp only [Mem.build]
    split_ifs with hb
    · exact wfFrom_mono (ih (a + 1) (by omega)) (by omega)
    · simp [Mem.wfFrom, hb, ih (a + 1) (by omega)]; omega

/-- The contents built from a function are canonical. -/
theorem ofFn_wf (f : Nat → Byte) : Mem.wf (Mem.ofFn f) = true := build_wfFrom f _ _ (by simp)

theorem read_build (f : Nat → Byte) : ∀ (n a b : Nat), a + n ≤ Mem.size →
    Mem.read (Mem.build f a n) b = if a ≤ b ∧ b < a + n then f b else Mem.blank := by
  intro n
  induction n with
  | zero => intro a b _; simp [Mem.build, Mem.read]
  | succ n ih =>
    intro a b h
    simp only [Mem.build]
    split_ifs with hb hr hr
    · rw [ih _ _ (by omega)]; by_cases hab : a = b
      · subst hab; simp [hb]
      · rw [if_pos (by omega)]
    · rw [ih _ _ (by omega), if_neg (by omega)]
    · by_cases hab : a = b
      · simp [Mem.read, hab]
      · simp only [Mem.read, hab, if_false]; rw [ih _ _ (by omega), if_pos (by omega)]
    · have hab : a ≠ b := by omega
      simp only [Mem.read, hab, if_false]; rw [ih _ _ (by omega), if_neg (by omega)]

/-- The contents built from a function read as the function says. -/
theorem read_ofFn (f : Nat → Byte) {b : Nat} (hb : b < Mem.size) : Mem.read (Mem.ofFn f) b = f b := by
  simp [Mem.ofFn, read_build f Mem.size 0 b (by simp), hb]

/-- No cell lies at or past the end. -/
theorem read_of_size_le {m : Mem} : ∀ {lo b : Nat}, Mem.wfFrom lo m = true → Mem.size ≤ b → Mem.read m b = Mem.blank := by
  induction m with
  | nil => intros; rfl
  | cons e t ih =>
    obtain ⟨k, v⟩ := e
    intro lo b h hb
    simp only [Mem.wfFrom, Bool.and_eq_true, decide_eq_true_eq] at h
    have hk : k ≠ b := by omega
    simpa [Mem.read, hk] using ih h.2 hb

@[simp] theorem length_readRange (m : Mem) (a n : Nat) : (Mem.readRange m a n).length = n := by simp [Mem.readRange]

theorem getElem?_readRange (m : Mem) (a n k : Nat) (hk : k < n) :
    (Mem.readRange m a n)[k]? = some (Mem.read m (a + k)) := by simp [Mem.readRange, hk]

/-- Two adjoining ranges are one. -/
theorem readRange_append (m : Mem) (a n k : Nat) :
    Mem.readRange m a (n + k) = Mem.readRange m a n ++ Mem.readRange m (a + n) k := by
  simp [Mem.readRange, List.range_add, Nat.add_assoc]

/-- Reset memory is canonical under a legal configuration. -/
theorem resetWith_fb_wf {cfg : Config} (h : cfg.wf = true) : Mem.wf (State.resetWith cfg).fb = true := by
  simp only [Config.wf, Bool.and_eq_true] at h
  exact h.2

/-- The memories of the reset state are canonical. -/
theorem reset_memories_wf : Mem.wf State.reset.fb = true ∧ Mem.wf State.reset.panel.ram = true := ⟨rfl, rfl⟩

end Sys2Proof.Machine.Laws
end

