-- ==== Sys2Proof/Laws/Panel.lean ====
section
/-! SUPPORT. What the panel shadow's receiver can do, said once: its registers, its parser on a whole frame, what a
symbol leaves alone, and that its RAM stays canonical. -/

namespace Sys2Proof.Machine.Laws

/-! ### Registers -/

theorem index_injective : ∀ c d : Command, c.index = d.index → c = d := by
  intro c d
  cases c <;> cases d <;> decide

/-- `p_reg` after a write. -/
theorem regOf_setReg (p : Panel) (c d : Command) (as : List Byte) :
    (p.setReg c as).regOf d = if d = c then some as else p.regOf d := by
  unfold Panel.setReg Panel.regOf
  by_cases h : d = c
  · subst h
    simp [Vector.get_eq_getElem]
  · have hi : (c.index : Nat) ≠ d.index := fun e => h (index_injective _ _ (Fin.ext e)).symm
    simp only [Vector.get_eq_getElem, if_neg h]
    exact Vector.getElem_set_ne _ _ hi

/-- What completing a command records. -/
theorem apply_regOf (c d : Command) (as : List Byte) (p : Panel) :
    (p.apply c as).regOf d = if d = c then some as else p.regOf d := by
  unfold Panel.apply
  split
  · exact regOf_setReg p .setcol d _
  · exact regOf_setReg p .setrow d _
  · exact regOf_setReg p c d as

@[simp] theorem apply_ram (c : Command) (as : List Byte) (p : Panel) : (p.apply c as).ram = p.ram := by
  unfold Panel.apply; split <;> rfl
@[simp] theorem apply_cfgd (c : Command) (as : List Byte) (p : Panel) : (p.apply c as).cfgd = p.cfgd := by
  unfold Panel.apply; split <;> rfl
@[simp] theorem apply_sync (c : Command) (as : List Byte) (p : Panel) : (p.apply c as).sync = p.sync := by
  unfold Panel.apply; split <;> rfl
@[simp] theorem apply_stream (c : Command) (as : List Byte) (p : Panel) : (p.apply c as).stream = p.stream := by
  unfold Panel.apply; split <;> rfl
@[simp] theorem apply_pend (c : Command) (as : List Byte) (p : Panel) : (p.apply c as).pend = p.pend := by
  unfold Panel.apply; split <;> rfl

/-- What is owed before a command completes does not matter after it. -/
theorem apply_pend_irrel (c : Command) (as : List Byte) (p : Panel) (d e : Option Pend) :
    { ({ p with pend := d } : Panel).apply c as with pend := e } = { p.apply c as with pend := e } := by
  unfold Panel.apply; split <;> rfl

/-- A command other than SETCOL leaves the column window and pointer alone. -/
theorem apply_col {c : Command} (h : c ≠ .setcol) (as : List Byte) (p : Panel) :
    (p.apply c as).cs = p.cs ∧ (p.apply c as).ce = p.ce ∧ (p.apply c as).cc = p.cc := by
  unfold Panel.apply
  split
  · exact absurd rfl h
  · exact ⟨rfl, rfl, rfl⟩
  · exact ⟨rfl, rfl, rfl⟩

/-- A command other than SETROW leaves the row window and pointer alone. -/
theorem apply_row {c : Command} (h : c ≠ .setrow) (as : List Byte) (p : Panel) :
    (p.apply c as).rs = p.rs ∧ (p.apply c as).re = p.re ∧ (p.apply c as).rc = p.rc := by
  unfold Panel.apply
  split
  · exact ⟨rfl, rfl, rfl⟩
  · exact absurd rfl h
  · exact ⟨rfl, rfl, rfl⟩

/-! ### Display RAM -/

@[simp] theorem setCell_cc (p : Panel) (c r : Nat) (b : Byte) : (p.setCell c r b).cc = p.cc := by
  unfold Panel.setCell; split <;> rfl
@[simp] theorem setCell_rc (p : Panel) (c r : Nat) (b : Byte) : (p.setCell c r b).rc = p.rc := by
  unfold Panel.setCell; split <;> rfl
@[simp] theorem setCell_cs (p : Panel) (c r : Nat) (b : Byte) : (p.setCell c r b).cs = p.cs := by
  unfold Panel.setCell; split <;> rfl
@[simp] theorem setCell_ce (p : Panel) (c r : Nat) (b : Byte) : (p.setCell c r b).ce = p.ce := by
  unfold Panel.setCell; split <;> rfl
@[simp] theorem setCell_rs (p : Panel) (c r : Nat) (b : Byte) : (p.setCell c r b).rs = p.rs := by
  unfold Panel.setCell; split <;> rfl
@[simp] theorem setCell_re (p : Panel) (c r : Nat) (b : Byte) : (p.setCell c r b).re = p.re := by
  unfold Panel.setCell; split <;> rfl
@[simp] theorem setCell_sync (p : Panel) (c r : Nat) (b : Byte) : (p.setCell c r b).sync = p.sync := by
  unfold Panel.setCell; split <;> rfl
@[simp] theorem setCell_cfgd (p : Panel) (c r : Nat) (b : Byte) : (p.setCell c r b).cfgd = p.cfgd := by
  unfold Panel.setCell; split <;> rfl
@[simp] theorem setCell_pend (p : Panel) (c r : Nat) (b : Byte) : (p.setCell c r b).pend = p.pend := by
  unfold Panel.setCell; split <;> rfl
@[simp] theorem setCell_stream (p : Panel) (c r : Nat) (b : Byte) : (p.setCell c r b).stream = p.stream := by
  unfold Panel.setCell; split <;> rfl
@[simp] theorem setCell_reg (p : Panel) (c r : Nat) (b : Byte) : (p.setCell c r b).reg = p.reg := by
  unfold Panel.setCell; split <;> rfl

/-- A cell after a write to a cell. -/
theorem setCell_cell {p : Panel} (h : Mem.wf p.ram = true) {c r : Nat} (hc : c < 128) (hr : r < 64) (b : Byte)
    {c' r' : Nat} (hc' : c' < 128) : (p.setCell c r b).cell c' r' = if c' = c ∧ r' = r then b else p.cell c' r' := by
  have ha : cellAddr c r < Mem.size := by simp only [cellAddr, Mem.size]; omega
  have he : cellAddr c' r' = cellAddr c r ↔ c' = c ∧ r' = r := by unfold cellAddr; omega
  simp only [Panel.setCell, reachedCell, hc, hr, and_self, if_true, Panel.cell, read_write h ha, he]

theorem setCell_ram_wf {p : Panel} (h : Mem.wf p.ram = true) (c r : Nat) (b : Byte) :
    Mem.wf (p.setCell c r b).ram = true := by
  unfold Panel.setCell
  split
  · exact write_wf _ _ h
  · exact h

@[simp] theorem advance_ram (p : Panel) : p.advance.ram = p.ram := by
  unfold Panel.advance; split_ifs <;> rfl
@[simp] theorem advance_sync (p : Panel) : p.advance.sync = p.sync := by
  unfold Panel.advance; split_ifs <;> rfl
@[simp] theorem advance_cfgd (p : Panel) : p.advance.cfgd = p.cfgd := by
  unfold Panel.advance; split_ifs <;> rfl
@[simp] theorem advance_pend (p : Panel) : p.advance.pend = p.pend := by
  unfold Panel.advance; split_ifs <;> rfl
@[simp] theorem advance_stream (p : Panel) : p.advance.stream = p.stream := by
  unfold Panel.advance; split_ifs <;> rfl
@[simp] theorem advance_reg (p : Panel) : p.advance.reg = p.reg := by
  unfold Panel.advance; split_ifs <;> rfl
@[simp] theorem advance_cs (p : Panel) : p.advance.cs = p.cs := by
  unfold Panel.advance; split_ifs <;> rfl
@[simp] theorem advance_ce (p : Panel) : p.advance.ce = p.ce := by
  unfold Panel.advance; split_ifs <;> rfl
@[simp] theorem advance_rs (p : Panel) : p.advance.rs = p.rs := by
  unfold Panel.advance; split_ifs <;> rfl
@[simp] theorem advance_re (p : Panel) : p.advance.re = p.re := by
  unfold Panel.advance; split_ifs <;> rfl

/-! ### Reset and failure -/

@[simp] theorem freeContents_cfgd (n : Nat) (p : Panel) : (p.freeContents n).cfgd = p.cfgd := rfl
@[simp] theorem freeContents_reg (n : Nat) (p : Panel) : (p.freeContents n).reg = p.reg := rfl
@[simp] theorem freeContents_pend (n : Nat) (p : Panel) : (p.freeContents n).pend = p.pend := rfl
@[simp] theorem freeContents_stream (n : Nat) (p : Panel) : (p.freeContents n).stream = p.stream := rfl
@[simp] theorem freeContents_sync (n : Nat) (p : Panel) : (p.freeContents n).sync = p.sync := rfl

@[simp] theorem unreliable_cfgd (n : Nat) (p : Panel) : (p.unreliable n).cfgd = p.cfgd := rfl
@[simp] theorem unreliable_pend (n : Nat) (p : Panel) : (p.unreliable n).pend = p.pend := rfl
@[simp] theorem unreliable_stream (n : Nat) (p : Panel) : (p.unreliable n).stream = p.stream := rfl
@[simp] theorem unreliable_sync (n : Nat) (p : Panel) : (p.unreliable n).sync = p.sync := rfl

/-- A panel in sync keeps its contents. -/
theorem settle_of_sync {p : Panel} (h : p.sync = true) (n : Nat) : p.settle n = p := if_pos h
/-- Of a panel out of sync only the parser's state is kept. -/
theorem settle_of_desync {p : Panel} (h : p.sync = false) (n : Nat) : p.settle n = p.unreliable n := by
  simp [Panel.settle, h]
@[simp] theorem settle_cfgd (n : Nat) (p : Panel) : (p.settle n).cfgd = p.cfgd := by
  unfold Panel.settle; split_ifs <;> rfl
@[simp] theorem settle_pend (n : Nat) (p : Panel) : (p.settle n).pend = p.pend := by
  unfold Panel.settle; split_ifs <;> rfl
@[simp] theorem settle_stream (n : Nat) (p : Panel) : (p.settle n).stream = p.stream := by
  unfold Panel.settle; split_ifs <;> rfl
@[simp] theorem settle_sync (n : Nat) (p : Panel) : (p.settle n).sync = p.sync := by
  unfold Panel.settle; split_ifs <;> rfl

theorem settle_ram_wf {p : Panel} (h : Mem.wf p.ram = true) (n : Nat) : Mem.wf (p.settle n).ram = true := by
  unfold Panel.settle
  split_ifs
  · exact h
  · exact ofFn_wf _

@[simp] theorem hardReset_cfgd (n : Nat) : (Panel.hardReset n).cfgd = .undef := rfl
@[simp] theorem hardReset_pend (n : Nat) : (Panel.hardReset n).pend = none := rfl
@[simp] theorem hardReset_stream (n : Nat) : (Panel.hardReset n).stream = false := rfl
@[simp] theorem hardReset_sync (n : Nat) : (Panel.hardReset n).sync = true := rfl

theorem hardReset_regOf (n : Nat) (c : Command) : (Panel.hardReset n).regOf c = none := by
  show Vector.get (Vector.replicate 30 none) c.index = none
  simp [Vector.get_eq_getElem]

@[simp] theorem failed_cfgd (cfg : Config) (dc : Bool) (n : Nat) (bs : List Byte) (p : Panel) :
    (p.failed cfg dc n bs).cfgd = .undef := settle_cfgd n _
@[simp] theorem failed_sync (cfg : Config) (dc : Bool) (n : Nat) (bs : List Byte) (p : Panel) :
    (p.failed cfg dc n bs).sync = false := settle_sync n _

/-! ### Every operation of the receiver keeps the RAM canonical -/

theorem dataByte_ram_wf {p : Panel} (h : Mem.wf p.ram = true) (b : Byte) : Mem.wf (p.dataByte b).ram = true := by
  unfold Panel.dataByte
  split
  · split_ifs
    · simpa using h
    · exact h
  · split_ifs
    · simpa [Panel.ramByte] using setCell_ram_wf h _ _ b
    · exact h

theorem commandByte_ram {cfg : Config} (p : Panel) (b : Byte) : (p.commandByte cfg b).ram = p.ram := by
  unfold Panel.commandByte
  cases cfg.command? b with
  | none => dsimp only; split_ifs <;> rfl
  | some c => dsimp only; split_ifs <;> simp

theorem symbol_ram_wf {p : Panel} (h : Mem.wf p.ram = true) (cfg : Config) (dc : Bool) (n : Nat) (b : Byte) :
    Mem.wf (p.symbol cfg dc n b).ram = true := by
  refine settle_ram_wf ?_ n
  split_ifs
  · exact dataByte_ram_wf h b
  · rw [commandByte_ram]; exact h

theorem deliver_ram_wf (cfg : Config) (dc : Bool) (n : Nat) : ∀ (bs : List Byte) (p : Panel), Mem.wf p.ram = true →
    Mem.wf (p.deliver cfg dc n bs).ram = true := by
  intro bs
  induction bs with
  | nil => intro p h; exact h
  | cons b bs ih => intro p h; exact ih _ (symbol_ram_wf h cfg dc n b)

theorem failed_ram_wf (cfg : Config) (dc : Bool) (n : Nat) (bs : List Byte) (p : Panel) :
    Mem.wf (p.failed cfg dc n bs).ram = true := by
  rw [Panel.failed, settle_of_desync rfl]
  exact ofFn_wf _

/-- Whatever the wire carries, the panel's RAM stays canonical. -/
theorem recv_ram_wf {p : Panel} (h : Mem.wf p.ram = true) (cfg : Config) (dc : Bool) (n : Nat) (ev : Event) :
    Mem.wf (Panel.recv cfg dc n ev p).ram = true := by
  unfold Panel.recv
  split
  · exact ofFn_wf _
  · exact h
  · exact h
  · exact h
  · exact deliver_ram_wf cfg dc n _ p h
  · exact failed_ram_wf cfg dc _ _ p

/-- A transaction's bytes in two parts. -/
theorem deliver_append (cfg : Config) (dc : Bool) (n : Nat) (bs bs' : List Byte) (p : Panel) :
    p.deliver cfg dc n (bs ++ bs') = (p.deliver cfg dc n bs).deliver cfg dc n bs' := by
  simp [Panel.deliver]

/-- A byte of the display-RAM stream. -/
theorem symbol_stream (cfg : Config) (n : Nat) (b : Byte) {p : Panel} (h1 : p.pend = none) (h2 : p.stream = true) :
    p.symbol cfg true n b = (p.ramByte b).settle n := by
  simp [Panel.symbol, Panel.dataByte, h1, h2]

/-- Bytes of the display-RAM stream keep the parser in it. -/
theorem deliver_stream (cfg : Config) (n : Nat) : ∀ (bs : List Byte) (p : Panel), p.pend = none → p.stream = true →
    (p.deliver cfg true n bs).pend = none ∧ (p.deliver cfg true n bs).stream = true ∧
    (p.deliver cfg true n bs).sync = p.sync ∧ (p.deliver cfg true n bs).cfgd = p.cfgd := by
  intro bs
  induction bs with
  | nil => intro p h1 h2; exact ⟨h1, h2, rfl, rfl⟩
  | cons b bs ih =>
    intro p h1 h2
    have e : p.deliver cfg true n (b :: bs) = (p.symbol cfg true n b).deliver cfg true n bs := rfl
    have hs := symbol_stream cfg n b h1 h2
    obtain ⟨i1, i2, i3, i4⟩ := ih (p.symbol cfg true n b) (by simp [hs, Panel.ramByte, h1]) (by simp [hs, Panel.ramByte, h2])
    exact ⟨i1, i2, by rw [e, i3, hs]; simp [Panel.ramByte], by rw [e, i4, hs]; simp [Panel.ramByte]⟩

/-- In sync, they are display-RAM writes and nothing else. -/
theorem deliver_stream_sync (cfg : Config) (n : Nat) : ∀ (bs : List Byte) (p : Panel), p.pend = none → p.stream = true →
    p.sync = true → p.deliver cfg true n bs = bs.foldl (fun p b => p.ramByte b) p := by
  intro bs
  induction bs with
  | nil => intro _ _ _ _; rfl
  | cons b bs ih =>
    intro p h1 h2 h3
    have hr : (p.ramByte b).sync = true := by simp [Panel.ramByte, h3]
    show (p.symbol cfg true n b).deliver cfg true n bs = _
    rw [symbol_stream cfg n b h1 h2, settle_of_sync hr,
      ih _ (by simp [Panel.ramByte, h1]) (by simp [Panel.ramByte, h2]) hr]
    rfl

/-! ### The parser -/

/-- A byte that is a command's opcode, under an injective `OPC`. -/
theorem command?_opc {cfg : Config} (h : cfg.wf = true) (c : Command) : cfg.command? (cfg.opc c) = some c := by
  have hn : (Command.all.map cfg.opc).Nodup := by
    simp only [Config.wf, Bool.and_eq_true, decide_eq_true_eq] at h
    exact h.1.1.1.1.1.1.1.1.1.1.1.1.1
  have hm : ∀ d : Command, d ∈ Command.all := by intro d; cases d <;> decide
  have hinj : ∀ d ∈ Command.all, ∀ e ∈ Command.all, cfg.opc d = cfg.opc e → d = e :=
    fun d hd e he => List.inj_on_of_nodup_map hn hd he
  unfold Config.command?
  cases hf : Command.all.find? fun d => cfg.opc d == cfg.opc c with
  | none => simpa using List.find?_eq_none.mp hf c (hm c)
  | some d =>
    have := List.find?_some hf
    exact congrArg some (hinj d (hm d) c (hm c) (by simpa using this))

/-- The command byte of a frame, received in order. -/
theorem commandByte_opc {cfg : Config} (h : cfg.wf = true) (c : Command) {p : Panel} (hp : p.pend = none) :
    p.commandByte cfg (cfg.opc c) =
      if cfg.nargs c = 0 then
        { ({ p with stream := decide (c = Command.ramWrite) } : Panel).apply c [] with pend := none }
      else
        { p with
          stream := decide (c = Command.ramWrite)
          pend := some { cmd := c, need := cfg.nargs c, got := [] } } := by
  simp [Panel.commandByte, command?_opc h, hp]

@[simp] theorem receiveArgs_nil (cfg : Config) (n : Nat) (p : Panel) : p.receiveArgs cfg n [] = p := rfl
@[simp] theorem receiveArgs_cons (cfg : Config) (n : Nat) (b : Byte) (bs : List Byte) (p : Panel) :
    p.receiveArgs cfg n (b :: bs) = (p.symbol cfg true n b).receiveArgs cfg (n + 1) bs := rfl

/-- The arguments of a frame, received in order: the parser is at rest when the last one is in; and in sync they are then
recorded and applied. -/
theorem receiveArgs_complete (cfg : Config) : ∀ (args got : List Byte) (p : Panel) (c : Command) (need n : Nat),
    p.pend = some { cmd := c, need := need, got := got } → got.length + args.length = need → args ≠ [] →
    (p.receiveArgs cfg n args).pend = none ∧ (p.receiveArgs cfg n args).sync = p.sync ∧
    (p.receiveArgs cfg n args).stream = p.stream ∧ (p.receiveArgs cfg n args).cfgd = p.cfgd ∧
    (p.sync = true → p.receiveArgs cfg n args = { p.apply c (got ++ args) with pend := none }) := by
  intro args
  induction args with
  | nil => intro _ _ _ _ _ _ _ h; exact absurd rfl h
  | cons a args ih =>
    intro got p c need n hp hl _
    simp only [List.length_cons] at hl
    by_cases hz : args = []
    · subst hz
      have e : p.receiveArgs cfg n [a] = Panel.settle n { p.apply c (got ++ [a]) with pend := none } := by
        simp only [Panel.receiveArgs, Panel.symbol, Panel.dataByte, hp, if_true]
        rw [if_pos (by simpa using hl)]
      refine ⟨by simp [e], by simp [e], by simp [e], by simp [e], fun h => ?_⟩
      rw [e, settle_of_sync (by simpa using h)]
    · have hpos := List.length_pos_iff.mpr hz
      have e : p.receiveArgs cfg n (a :: args) =
          (Panel.settle n { p with pend := some { cmd := c, need := need, got := got ++ [a] } }).receiveArgs cfg (n + 1)
            args := by
        simp only [Panel.receiveArgs, Panel.symbol, Panel.dataByte, hp, if_true]
        rw [if_neg (by omega)]
      obtain ⟨i1, i2, i3, i4, i5⟩ := ih (got ++ [a])
        (Panel.settle n { p with pend := some { cmd := c, need := need, got := got ++ [a] } }) c need (n + 1) (by simp)
        (by simp; omega) hz
      rw [e]
      refine ⟨i1, by simpa using i2, by simpa using i3, by simpa using i4, fun h => ?_⟩
      rw [i5 (by simpa using h), settle_of_sync (by simpa using h)]
      simp only [List.append_assoc, List.cons_append, List.nil_append]
      exact apply_pend_irrel c _ p _ _

/-- A whole frame of the right length, received by a panel that owes no argument. -/
theorem frame_received {cfg : Config} (h : cfg.wf = true) (c : Command) (args : List Byte) (n m : Nat) {p q : Panel}
    (hp : p.pend = none) (hn : args.length = cfg.nargs c)
    (hq : q = (p.symbol cfg false n (cfg.opc c)).receiveArgs cfg m args) :
    q.pend = none ∧ q.sync = p.sync ∧ q.stream = decide (c = Command.ramWrite) ∧ q.cfgd = p.cfgd ∧
    (p.sync = true →
      q = { ({ p with stream := decide (c = Command.ramWrite) } : Panel).apply c args with pend := none }) := by
  subst hq
  simp only [Panel.symbol, Bool.false_eq_true, if_false, commandByte_opc h c hp]
  by_cases hz : cfg.nargs c = 0
  · have : args = [] := List.length_eq_zero_iff.mp (by omega)
    subst this
    rw [if_pos hz]
    refine ⟨by simp, by simp, by simp, by simp, fun hs => ?_⟩
    rw [settle_of_sync (by simpa using hs)]
    rfl
  · rw [if_neg hz]
    obtain ⟨i1, i2, i3, i4, i5⟩ := receiveArgs_complete cfg args [] _ c (cfg.nargs c) m
      (settle_pend n { p with
        stream := decide (c = Command.ramWrite)
        pend := some { cmd := c, need := cfg.nargs c, got := [] } })
      (by simpa using hn) (by rintro rfl; exact hz (by simpa using hn.symm))
    refine ⟨i1, by simpa using i2, by simpa using i3, by simpa using i4, fun hs => ?_⟩
    rw [i5 (by simpa using hs), settle_of_sync (by simpa using hs)]
    exact apply_pend_irrel c args { p with stream := decide (c = Command.ramWrite) } _ _

/-- Arguments in two parts. -/
theorem receiveArgs_append (cfg : Config) : ∀ (bs bs' : List Byte) (n : Nat) (p : Panel),
    p.receiveArgs cfg n (bs ++ bs') = (p.receiveArgs cfg n bs).receiveArgs cfg (n + bs.length) bs' := by
  intro bs
  induction bs with
  | nil => intro _ _ _; rfl
  | cons b bs ih =>
    intro bs' n p
    rw [List.cons_append, Panel.receiveArgs, ih, Panel.receiveArgs, List.length_cons, Nat.add_assoc, Nat.add_comm 1]

end Sys2Proof.Machine.Laws
end

