-- ==== Sys2Proof/Laws/State.lean ====
section
/-! SUPPORT. Beside State: what each named update of `Machine/Ops.lean` does to each field, one lemma a field, so that no
later proof unfolds a record update. -/

namespace Sys2Proof.Machine.Laws

/-! #### `State.emit` -/

@[simp] theorem emit_cfg (s : State) (ev : Event) : (s.emit ev).cfg = s.cfg := rfl
@[simp] theorem emit_fb (s : State) (ev : Event) : (s.emit ev).fb = s.fb := rfl
@[simp] theorem emit_ctrl (s : State) (ev : Event) : (s.emit ev).ctrl = s.ctrl := rfl
@[simp] theorem emit_phase (s : State) (ev : Event) : (s.emit ev).phase = s.phase := rfl
@[simp] theorem emit_seq (s : State) (ev : Event) : (s.emit ev).seq = s.seq := rfl
@[simp] theorem emit_dc (s : State) (ev : Event) : (s.emit ev).dc = s.dc := rfl
@[simp] theorem emit_prst (s : State) (ev : Event) : (s.emit ev).prst = s.prst := rfl
@[simp] theorem emit_err (s : State) (ev : Event) : (s.emit ev).err = s.err := rfl
@[simp] theorem emit_errSeq (s : State) (ev : Event) : (s.emit ev).errSeq = s.errSeq := rfl
@[simp] theorem emit_faultLog (s : State) (ev : Event) : (s.emit ev).faultLog = s.faultLog := rfl
@[simp] theorem emit_fbLive (s : State) (ev : Event) : (s.emit ev).fbLive = s.fbLive := rfl
@[simp] theorem emit_rqOp (s : State) (ev : Event) : (s.emit ev).rqOp = s.rqOp := rfl
@[simp] theorem emit_rqX (s : State) (ev : Event) : (s.emit ev).rqX = s.rqX := rfl
@[simp] theorem emit_rqY (s : State) (ev : Event) : (s.emit ev).rqY = s.rqY := rfl
@[simp] theorem emit_hung (s : State) (ev : Event) : (s.emit ev).hung = s.hung := rfl
@[simp] theorem emit_trace (s : State) (ev : Event) : (s.emit ev).trace = s.trace ++ [ev] := rfl
@[simp] theorem emit_rsps (s : State) (ev : Event) : (s.emit ev).rsps = s.rsps := rfl
@[simp] theorem emit_panel (s : State) (ev : Event) : (s.emit ev).panel = Panel.recv s.cfg s.dc s.draws ev s.panel := rfl
@[simp] theorem emit_cancel (s : State) (ev : Event) : (s.emit ev).cancel = s.cancel := rfl
@[simp] theorem emit_reqs (s : State) (ev : Event) : (s.emit ev).reqs = s.reqs := rfl
@[simp] theorem emit_host (s : State) (ev : Event) : (s.emit ev).host = s.host := rfl
@[simp] theorem emit_bus (s : State) (ev : Event) : (s.emit ev).bus = s.bus := rfl
@[simp] theorem emit_issue (s : State) (ev : Event) : (s.emit ev).issue = s.issue := rfl
@[simp] theorem emit_draws (s : State) (ev : Event) : (s.emit ev).draws = s.draws + 1 := rfl

/-! #### `State.answered` -/

@[simp] theorem answered_cfg (s : State) : (s.answered).cfg = s.cfg := rfl
@[simp] theorem answered_fb (s : State) : (s.answered).fb = s.fb := rfl
@[simp] theorem answered_ctrl (s : State) : (s.answered).ctrl = s.ctrl := rfl
@[simp] theorem answered_phase (s : State) : (s.answered).phase = s.phase := rfl
@[simp] theorem answered_seq (s : State) : (s.answered).seq = s.seq := rfl
@[simp] theorem answered_dc (s : State) : (s.answered).dc = s.dc := rfl
@[simp] theorem answered_prst (s : State) : (s.answered).prst = s.prst := rfl
@[simp] theorem answered_err (s : State) : (s.answered).err = s.err := rfl
@[simp] theorem answered_errSeq (s : State) : (s.answered).errSeq = s.errSeq := rfl
@[simp] theorem answered_faultLog (s : State) : (s.answered).faultLog = s.faultLog := rfl
@[simp] theorem answered_fbLive (s : State) : (s.answered).fbLive = s.fbLive := rfl
@[simp] theorem answered_rqOp (s : State) : (s.answered).rqOp = s.rqOp := rfl
@[simp] theorem answered_rqX (s : State) : (s.answered).rqX = s.rqX := rfl
@[simp] theorem answered_rqY (s : State) : (s.answered).rqY = s.rqY := rfl
@[simp] theorem answered_hung (s : State) : (s.answered).hung = s.hung := rfl
@[simp] theorem answered_trace (s : State) : (s.answered).trace = s.trace := rfl
@[simp] theorem answered_rsps (s : State) : (s.answered).rsps = s.rsps := rfl
@[simp] theorem answered_panel (s : State) : (s.answered).panel = s.panel := rfl
@[simp] theorem answered_cancel (s : State) : (s.answered).cancel = s.cancel := rfl
@[simp] theorem answered_reqs (s : State) : (s.answered).reqs = s.reqs := rfl
@[simp] theorem answered_host (s : State) : (s.answered).host = s.host := rfl
@[simp] theorem answered_bus (s : State) : (s.answered).bus = { s.bus with script := s.bus.script.tail } := rfl
@[simp] theorem answered_issue (s : State) : (s.answered).issue = s.issue := rfl
@[simp] theorem answered_draws (s : State) : (s.answered).draws = s.draws := rfl

/-! #### `State.advance` -/

@[simp] theorem advance_cfg (s : State) : (s.advance).cfg = s.cfg := rfl
@[simp] theorem advance_fb (s : State) : (s.advance).fb = s.fb := rfl
@[simp] theorem advance_ctrl (s : State) : (s.advance).ctrl = s.ctrl := rfl
@[simp] theorem advance_phase (s : State) : (s.advance).phase = s.phase := rfl
@[simp] theorem advance_seq (s : State) : (s.advance).seq = s.seq + 1 := rfl
@[simp] theorem advance_dc (s : State) : (s.advance).dc = s.dc := rfl
@[simp] theorem advance_prst (s : State) : (s.advance).prst = s.prst := rfl
@[simp] theorem advance_err (s : State) : (s.advance).err = s.err := rfl
@[simp] theorem advance_errSeq (s : State) : (s.advance).errSeq = s.errSeq := rfl
@[simp] theorem advance_faultLog (s : State) : (s.advance).faultLog = s.faultLog := rfl
@[simp] theorem advance_fbLive (s : State) : (s.advance).fbLive = s.fbLive := rfl
@[simp] theorem advance_rqOp (s : State) : (s.advance).rqOp = s.rqOp := rfl
@[simp] theorem advance_rqX (s : State) : (s.advance).rqX = s.rqX := rfl
@[simp] theorem advance_rqY (s : State) : (s.advance).rqY = s.rqY := rfl
@[simp] theorem advance_hung (s : State) : (s.advance).hung = s.hung := rfl
@[simp] theorem advance_trace (s : State) : (s.advance).trace = s.trace := rfl
@[simp] theorem advance_rsps (s : State) : (s.advance).rsps = s.rsps := rfl
@[simp] theorem advance_panel (s : State) : (s.advance).panel = s.panel := rfl
@[simp] theorem advance_cancel (s : State) : (s.advance).cancel = s.cancel := rfl
@[simp] theorem advance_reqs (s : State) : (s.advance).reqs = s.reqs := rfl
@[simp] theorem advance_host (s : State) : (s.advance).host = s.host := rfl
@[simp] theorem advance_bus (s : State) : (s.advance).bus = s.bus := rfl
@[simp] theorem advance_issue (s : State) : (s.advance).issue = s.issue := rfl
@[simp] theorem advance_draws (s : State) : (s.advance).draws = s.draws := rfl

/-! #### `State.respond` -/

@[simp] theorem respond_cfg (s : State) (e : Response) : (s.respond e).cfg = s.cfg := rfl
@[simp] theorem respond_fb (s : State) (e : Response) : (s.respond e).fb = s.fb := rfl
@[simp] theorem respond_ctrl (s : State) (e : Response) : (s.respond e).ctrl = s.ctrl := rfl
@[simp] theorem respond_phase (s : State) (e : Response) : (s.respond e).phase = .idle := rfl
@[simp] theorem respond_seq (s : State) (e : Response) : (s.respond e).seq = 0 := rfl
@[simp] theorem respond_dc (s : State) (e : Response) : (s.respond e).dc = s.dc := rfl
@[simp] theorem respond_prst (s : State) (e : Response) : (s.respond e).prst = s.prst := rfl
@[simp] theorem respond_err (s : State) (e : Response) : (s.respond e).err = e := rfl
@[simp] theorem respond_errSeq (s : State) (e : Response) : (s.respond e).errSeq = s.errSeq := rfl
@[simp] theorem respond_faultLog (s : State) (e : Response) : (s.respond e).faultLog = s.faultLog := rfl
@[simp] theorem respond_fbLive (s : State) (e : Response) : (s.respond e).fbLive = s.fbLive := rfl
@[simp] theorem respond_rqOp (s : State) (e : Response) : (s.respond e).rqOp = s.rqOp := rfl
@[simp] theorem respond_rqX (s : State) (e : Response) : (s.respond e).rqX = s.rqX := rfl
@[simp] theorem respond_rqY (s : State) (e : Response) : (s.respond e).rqY = s.rqY := rfl
@[simp] theorem respond_hung (s : State) (e : Response) : (s.respond e).hung = s.hung := rfl
@[simp] theorem respond_trace (s : State) (e : Response) : (s.respond e).trace = s.trace := rfl
@[simp] theorem respond_rsps (s : State) (e : Response) : (s.respond e).rsps = s.rsps ++ [e] := rfl
@[simp] theorem respond_panel (s : State) (e : Response) : (s.respond e).panel = s.panel := rfl
@[simp] theorem respond_cancel (s : State) (e : Response) : (s.respond e).cancel = s.cancel := rfl
@[simp] theorem respond_reqs (s : State) (e : Response) : (s.respond e).reqs = s.reqs := rfl
@[simp] theorem respond_host (s : State) (e : Response) : (s.respond e).host = s.host := rfl
@[simp] theorem respond_bus (s : State) (e : Response) : (s.respond e).bus = s.bus := rfl
@[simp] theorem respond_issue (s : State) (e : Response) : (s.respond e).issue = s.issue := rfl
@[simp] theorem respond_draws (s : State) (e : Response) : (s.respond e).draws = s.draws := rfl

/-! #### `State.raise` -/

@[simp] theorem raise_cfg (s : State) (e : Response) : (s.raise e).cfg = s.cfg := rfl
@[simp] theorem raise_fb (s : State) (e : Response) : (s.raise e).fb = s.fb := rfl
@[simp] theorem raise_ctrl (s : State) (e : Response) : (s.raise e).ctrl = .uninit := rfl
@[simp] theorem raise_phase (s : State) (e : Response) : (s.raise e).phase = .idle := rfl
@[simp] theorem raise_seq (s : State) (e : Response) : (s.raise e).seq = 0 := rfl
@[simp] theorem raise_dc (s : State) (e : Response) : (s.raise e).dc = s.dc := rfl
@[simp] theorem raise_prst (s : State) (e : Response) : (s.raise e).prst = s.prst := rfl
@[simp] theorem raise_err (s : State) (e : Response) : (s.raise e).err = e := rfl
@[simp] theorem raise_errSeq (s : State) (e : Response) : (s.raise e).errSeq = s.seq := rfl
@[simp] theorem raise_faultLog (s : State) (e : Response) : (s.raise e).faultLog = true := rfl
@[simp] theorem raise_fbLive (s : State) (e : Response) : (s.raise e).fbLive = s.fbLive := rfl
@[simp] theorem raise_rqOp (s : State) (e : Response) : (s.raise e).rqOp = s.rqOp := rfl
@[simp] theorem raise_rqX (s : State) (e : Response) : (s.raise e).rqX = s.rqX := rfl
@[simp] theorem raise_rqY (s : State) (e : Response) : (s.raise e).rqY = s.rqY := rfl
@[simp] theorem raise_hung (s : State) (e : Response) : (s.raise e).hung = s.hung := rfl
@[simp] theorem raise_trace (s : State) (e : Response) : (s.raise e).trace = s.trace := rfl
@[simp] theorem raise_rsps (s : State) (e : Response) : (s.raise e).rsps = s.rsps ++ [e] := rfl
@[simp] theorem raise_panel (s : State) (e : Response) : (s.raise e).panel = s.panel := rfl
@[simp] theorem raise_cancel (s : State) (e : Response) : (s.raise e).cancel = s.cancel := rfl
@[simp] theorem raise_reqs (s : State) (e : Response) : (s.raise e).reqs = s.reqs := rfl
@[simp] theorem raise_host (s : State) (e : Response) : (s.raise e).host = s.host := rfl
@[simp] theorem raise_bus (s : State) (e : Response) : (s.raise e).bus = s.bus := rfl
@[simp] theorem raise_issue (s : State) (e : Response) : (s.raise e).issue = s.issue := rfl
@[simp] theorem raise_draws (s : State) (e : Response) : (s.raise e).draws = s.draws := rfl

/-! #### `State.latch` -/

@[simp] theorem latch_cfg (s : State) (op : BitVec 2) (y : BitVec 14) (x : BitVec 16) : (s.latch op y x).cfg = s.cfg := rfl
@[simp] theorem latch_fb (s : State) (op : BitVec 2) (y : BitVec 14) (x : BitVec 16) : (s.latch op y x).fb = s.fb := rfl
@[simp] theorem latch_ctrl (s : State) (op : BitVec 2) (y : BitVec 14) (x : BitVec 16) : (s.latch op y x).ctrl = s.ctrl := rfl
@[simp] theorem latch_phase (s : State) (op : BitVec 2) (y : BitVec 14) (x : BitVec 16) : (s.latch op y x).phase = s.phase := rfl
@[simp] theorem latch_seq (s : State) (op : BitVec 2) (y : BitVec 14) (x : BitVec 16) : (s.latch op y x).seq = s.seq := rfl
@[simp] theorem latch_dc (s : State) (op : BitVec 2) (y : BitVec 14) (x : BitVec 16) : (s.latch op y x).dc = s.dc := rfl
@[simp] theorem latch_prst (s : State) (op : BitVec 2) (y : BitVec 14) (x : BitVec 16) : (s.latch op y x).prst = s.prst := rfl
@[simp] theorem latch_err (s : State) (op : BitVec 2) (y : BitVec 14) (x : BitVec 16) : (s.latch op y x).err = s.err := rfl
@[simp] theorem latch_errSeq (s : State) (op : BitVec 2) (y : BitVec 14) (x : BitVec 16) : (s.latch op y x).errSeq = s.errSeq := rfl
@[simp] theorem latch_faultLog (s : State) (op : BitVec 2) (y : BitVec 14) (x : BitVec 16) : (s.latch op y x).faultLog = s.faultLog := rfl
@[simp] theorem latch_fbLive (s : State) (op : BitVec 2) (y : BitVec 14) (x : BitVec 16) : (s.latch op y x).fbLive = s.fbLive := rfl
@[simp] theorem latch_rqOp (s : State) (op : BitVec 2) (y : BitVec 14) (x : BitVec 16) : (s.latch op y x).rqOp = op := rfl
@[simp] theorem latch_rqX (s : State) (op : BitVec 2) (y : BitVec 14) (x : BitVec 16) : (s.latch op y x).rqX = x := rfl
@[simp] theorem latch_rqY (s : State) (op : BitVec 2) (y : BitVec 14) (x : BitVec 16) : (s.latch op y x).rqY = y := rfl
@[simp] theorem latch_hung (s : State) (op : BitVec 2) (y : BitVec 14) (x : BitVec 16) : (s.latch op y x).hung = s.hung := rfl
@[simp] theorem latch_trace (s : State) (op : BitVec 2) (y : BitVec 14) (x : BitVec 16) : (s.latch op y x).trace = s.trace := rfl
@[simp] theorem latch_rsps (s : State) (op : BitVec 2) (y : BitVec 14) (x : BitVec 16) : (s.latch op y x).rsps = s.rsps := rfl
@[simp] theorem latch_panel (s : State) (op : BitVec 2) (y : BitVec 14) (x : BitVec 16) : (s.latch op y x).panel = s.panel := rfl
@[simp] theorem latch_cancel (s : State) (op : BitVec 2) (y : BitVec 14) (x : BitVec 16) : (s.latch op y x).cancel = s.cancel := rfl
@[simp] theorem latch_reqs (s : State) (op : BitVec 2) (y : BitVec 14) (x : BitVec 16) : (s.latch op y x).reqs = s.reqs := rfl
@[simp] theorem latch_host (s : State) (op : BitVec 2) (y : BitVec 14) (x : BitVec 16) : (s.latch op y x).host = s.host := rfl
@[simp] theorem latch_bus (s : State) (op : BitVec 2) (y : BitVec 14) (x : BitVec 16) : (s.latch op y x).bus = s.bus := rfl
@[simp] theorem latch_issue (s : State) (op : BitVec 2) (y : BitVec 14) (x : BitVec 16) : (s.latch op y x).issue = s.issue := rfl
@[simp] theorem latch_draws (s : State) (op : BitVec 2) (y : BitVec 14) (x : BitVec 16) : (s.latch op y x).draws = s.draws := rfl

/-! #### `State.driveDc` -/

@[simp] theorem driveDc_cfg (s : State) (l : Bool) : (s.driveDc l).cfg = s.cfg := rfl
@[simp] theorem driveDc_fb (s : State) (l : Bool) : (s.driveDc l).fb = s.fb := rfl
@[simp] theorem driveDc_ctrl (s : State) (l : Bool) : (s.driveDc l).ctrl = s.ctrl := rfl
@[simp] theorem driveDc_phase (s : State) (l : Bool) : (s.driveDc l).phase = s.phase := rfl
@[simp] theorem driveDc_seq (s : State) (l : Bool) : (s.driveDc l).seq = s.seq := rfl
@[simp] theorem driveDc_dc (s : State) (l : Bool) : (s.driveDc l).dc = l := rfl
@[simp] theorem driveDc_prst (s : State) (l : Bool) : (s.driveDc l).prst = s.prst := rfl
@[simp] theorem driveDc_err (s : State) (l : Bool) : (s.driveDc l).err = s.err := rfl
@[simp] theorem driveDc_errSeq (s : State) (l : Bool) : (s.driveDc l).errSeq = s.errSeq := rfl
@[simp] theorem driveDc_faultLog (s : State) (l : Bool) : (s.driveDc l).faultLog = s.faultLog := rfl
@[simp] theorem driveDc_fbLive (s : State) (l : Bool) : (s.driveDc l).fbLive = s.fbLive := rfl
@[simp] theorem driveDc_rqOp (s : State) (l : Bool) : (s.driveDc l).rqOp = s.rqOp := rfl
@[simp] theorem driveDc_rqX (s : State) (l : Bool) : (s.driveDc l).rqX = s.rqX := rfl
@[simp] theorem driveDc_rqY (s : State) (l : Bool) : (s.driveDc l).rqY = s.rqY := rfl
@[simp] theorem driveDc_hung (s : State) (l : Bool) : (s.driveDc l).hung = s.hung := rfl
@[simp] theorem driveDc_trace (s : State) (l : Bool) : (s.driveDc l).trace = s.trace ++ [.dc l] := rfl
@[simp] theorem driveDc_rsps (s : State) (l : Bool) : (s.driveDc l).rsps = s.rsps := rfl
@[simp] theorem driveDc_panel (s : State) (l : Bool) : (s.driveDc l).panel = s.panel := rfl
@[simp] theorem driveDc_cancel (s : State) (l : Bool) : (s.driveDc l).cancel = s.cancel := rfl
@[simp] theorem driveDc_reqs (s : State) (l : Bool) : (s.driveDc l).reqs = s.reqs := rfl
@[simp] theorem driveDc_host (s : State) (l : Bool) : (s.driveDc l).host = s.host := rfl
@[simp] theorem driveDc_bus (s : State) (l : Bool) : (s.driveDc l).bus = s.bus := rfl
@[simp] theorem driveDc_issue (s : State) (l : Bool) : (s.driveDc l).issue = s.issue := rfl
@[simp] theorem driveDc_draws (s : State) (l : Bool) : (s.driveDc l).draws = s.draws + 1 := rfl

/-! #### `State.driveRst` -/

@[simp] theorem driveRst_cfg (s : State) (l : Bool) : (s.driveRst l).cfg = s.cfg := rfl
@[simp] theorem driveRst_fb (s : State) (l : Bool) : (s.driveRst l).fb = s.fb := rfl
@[simp] theorem driveRst_ctrl (s : State) (l : Bool) : (s.driveRst l).ctrl = s.ctrl := rfl
@[simp] theorem driveRst_phase (s : State) (l : Bool) : (s.driveRst l).phase = s.phase := rfl
@[simp] theorem driveRst_seq (s : State) (l : Bool) : (s.driveRst l).seq = s.seq := rfl
@[simp] theorem driveRst_dc (s : State) (l : Bool) : (s.driveRst l).dc = s.dc := rfl
@[simp] theorem driveRst_prst (s : State) (l : Bool) : (s.driveRst l).prst = l := rfl
@[simp] theorem driveRst_err (s : State) (l : Bool) : (s.driveRst l).err = s.err := rfl
@[simp] theorem driveRst_errSeq (s : State) (l : Bool) : (s.driveRst l).errSeq = s.errSeq := rfl
@[simp] theorem driveRst_faultLog (s : State) (l : Bool) : (s.driveRst l).faultLog = s.faultLog := rfl
@[simp] theorem driveRst_fbLive (s : State) (l : Bool) : (s.driveRst l).fbLive = s.fbLive := rfl
@[simp] theorem driveRst_rqOp (s : State) (l : Bool) : (s.driveRst l).rqOp = s.rqOp := rfl
@[simp] theorem driveRst_rqX (s : State) (l : Bool) : (s.driveRst l).rqX = s.rqX := rfl
@[simp] theorem driveRst_rqY (s : State) (l : Bool) : (s.driveRst l).rqY = s.rqY := rfl
@[simp] theorem driveRst_hung (s : State) (l : Bool) : (s.driveRst l).hung = s.hung := rfl
@[simp] theorem driveRst_trace (s : State) (l : Bool) : (s.driveRst l).trace = s.trace ++ [.rst l] := rfl
@[simp] theorem driveRst_rsps (s : State) (l : Bool) : (s.driveRst l).rsps = s.rsps := rfl
@[simp] theorem driveRst_panel (s : State) (l : Bool) : (s.driveRst l).panel = Panel.recv s.cfg s.dc s.draws (.rst l) s.panel := rfl
@[simp] theorem driveRst_cancel (s : State) (l : Bool) : (s.driveRst l).cancel = s.cancel := rfl
@[simp] theorem driveRst_reqs (s : State) (l : Bool) : (s.driveRst l).reqs = s.reqs := rfl
@[simp] theorem driveRst_host (s : State) (l : Bool) : (s.driveRst l).host = s.host := rfl
@[simp] theorem driveRst_bus (s : State) (l : Bool) : (s.driveRst l).bus = s.bus := rfl
@[simp] theorem driveRst_issue (s : State) (l : Bool) : (s.driveRst l).issue = s.issue := rfl
@[simp] theorem driveRst_draws (s : State) (l : Bool) : (s.driveRst l).draws = s.draws + 1 := rfl

end Sys2Proof.Machine.Laws
end

