-- ==== Sys2Proof/Laws/Ops.lean ====
section
/-! SUPPORT. For each shared operation, what it can do, said once: the bus environment, transactions, error entry, the
primitives, frames, and the gates before them. -/

namespace Sys2Proof.Machine.Laws

/-! ### The bus environment -/

theorem answer_eq_nth (s : State) : s.answer = s.bus.nth 0 := by
  unfold State.answer BusEnv.nth
  cases s.bus.script <;> rfl

@[simp] theorem nth_after (b : BusEnv) (k j : Nat) : (b.after k).nth j = b.nth (k + j) := by
  simp [BusEnv.nth, BusEnv.after]

@[simp] theorem after_after (b : BusEnv) (k j : Nat) : (b.after k).after j = b.after (k + j) := by
  simp [BusEnv.after]

@[simp] theorem after_zero (b : BusEnv) : b.after 0 = b := rfl

theorem answered_eq (s : State) : s.answered = { s with bus := s.bus.after 1 } := by
  simp [State.answered, BusEnv.after]

/-! ### Transactions -/

theorem busWrite_ok {s : State} (bs : List Byte) (h : s.bus.nth 0 = .ok) :
    s.busWrite bs = .ok (State.emit { s with bus := s.bus.after 1 } (.tx bs .ok)) := by
  rw [← answer_eq_nth] at h
  simp [State.busWrite, h, answered_eq]

theorem busWrite_fail {s : State} (bs : List Byte) (h : s.bus.nth 0 = .fail) :
    s.busWrite bs = .failed (State.emit { s with bus := s.bus.after 1 } (.tx bs .fail)) := by
  rw [← answer_eq_nth] at h
  simp [State.busWrite, h, answered_eq]

theorem busWrite_hang {s : State} (bs : List Byte) (h : s.bus.nth 0 = .hang) :
    s.busWrite bs = .hung { s with bus := s.bus.after 1, hung := true } := by
  rw [← answer_eq_nth] at h
  simp [State.busWrite, h, answered_eq]

/-! ### The gates -/

theorem whenFree_next {s t : State} {o : Host.Outcome State Fault Refusal} :
    s.whenFree o = .next t ↔ s.hung = false ∧ o = .next t := by
  unfold State.whenFree
  cases s.hung <;> simp

theorem whenFree_free {s : State} (h : s.hung = false) (o : Host.Outcome State Fault Refusal) : s.whenFree o = o := by
  simp [State.whenFree, h]

theorem whenFree_hung {s : State} (h : s.hung = true) (o : Host.Outcome State Fault Refusal) :
    s.whenFree o = .fault .busHang := by
  simp [State.whenFree, h]

theorem reqReady_iff {s : State} : s.reqReady = true ↔ s.phase = .idle ∧ s.cancel = false := by
  simp [State.reqReady]

/-- A host operation that answers a next state was accepted and run, or not accepted and nothing changed. -/
theorem request_next {s t : State} {op : BitVec 2} {y : BitVec 14} {x : BitVec 16} {run : State → State}
    (h : s.request op y x run = .next t) :
    s.hung = false ∧ (s.phase = .idle ∧ s.cancel = false ∧ t = run (s.latch op y x) ∨ s.reqReady = false ∧ t = s) := by
  unfold State.request at h
  obtain ⟨hf, h⟩ := whenFree_next.mp h
  refine ⟨hf, ?_⟩
  by_cases hr : s.reqReady = true
  · rw [if_pos hr] at h
    exact .inl ⟨(reqReady_iff.mp hr).1, (reqReady_iff.mp hr).2, by simpa [eq_comm] using h⟩
  · rw [if_neg hr] at h
    exact .inr ⟨by simpa using hr, by simpa [eq_comm] using h⟩

theorem request_accepted {s : State} {op : BitVec 2} {y : BitVec 14} {x : BitVec 16} {run : State → State}
    (h1 : s.hung = false) (h2 : s.phase = .idle) (h3 : s.cancel = false) :
    s.request op y x run = .next (run (s.latch op y x)) := by
  rw [State.request, whenFree_free h1, if_pos (reqReady_iff.mpr ⟨h2, h3⟩)]

/-! ### Error entry -/

theorem busFail_eq (s : State) :
    s.busFail = s.raise (if s.phase = .runInit then .configuration else .transfer) := by
  unfold State.busFail
  split <;> rfl

/-! ### Primitives, by the answer -/

/-- What the receiver makes of a good transaction at the current level. -/
theorem recv_tx_ok (cfg : Config) (dc : Bool) (n : Nat) (bs : List Byte) (p : Panel) :
    Panel.recv cfg dc n (.tx bs .ok) p = p.deliver cfg dc n bs := rfl

theorem sendCommand_ok {s : State} (c : Byte) (h : s.bus.nth 0 = .ok) :
    s.sendCommand c = .ok
      { s with
        dc := true, seq := s.seq + 1, trace := s.trace ++ [.dc false, .tx [c] .ok, .dc true]
        panel := s.panel.symbol s.cfg false (s.draws + 1) c, bus := s.bus.after 1, draws := s.draws + 3 } := by
  have h' : (s.driveDc false).bus.nth 0 = .ok := h
  rw [State.sendCommand, busWrite_ok _ h']
  simp [BusDone.restoreDc, BusDone.finish, State.driveDc, State.emit, State.advance,
    Panel.recv, Panel.deliver]

theorem sendCommand_fail {s : State} (c : Byte) (h : s.bus.nth 0 = .fail) :
    s.sendCommand c = .failed (State.raise
      { s with
        dc := true, trace := s.trace ++ [.dc false, .tx [c] .fail, .dc true]
        panel := s.panel.failed s.cfg false (s.draws + 1) [c], bus := s.bus.after 1, draws := s.draws + 3 }
      (if s.phase = .runInit then .configuration else .transfer)) := by
  have h' : (s.driveDc false).bus.nth 0 = .fail := h
  rw [State.sendCommand, busWrite_fail _ h']
  simp [BusDone.restoreDc, BusDone.finish, busFail_eq, State.driveDc, State.emit, Panel.recv]

theorem sendCommand_hang {s : State} (c : Byte) (h : s.bus.nth 0 = .hang) :
    s.sendCommand c = .hung
      { s with
        dc := false, trace := s.trace ++ [.dc false], hung := true, bus := s.bus.after 1, draws := s.draws + 1 } := by
  have h' : (s.driveDc false).bus.nth 0 = .hang := h
  rw [State.sendCommand, busWrite_hang _ h']
  simp [BusDone.restoreDc, BusDone.finish, State.driveDc, State.emit, Panel.recv]

theorem sendData_ok {s : State} (b : Byte) (h : s.bus.nth 0 = .ok) :
    s.sendData b = .ok
      { s with
        seq := s.seq + 1, trace := s.trace ++ [.tx [b] .ok]
        panel := s.panel.symbol s.cfg s.dc s.draws b
        bus := s.bus.after 1, draws := s.draws + 1 } := by
  simp [State.sendData, busWrite_ok _ h, BusDone.finish, State.emit, State.advance, Panel.recv, Panel.deliver]

theorem sendData_fail {s : State} (b : Byte) (h : s.bus.nth 0 = .fail) :
    s.sendData b = .failed (State.raise
      { s with
        trace := s.trace ++ [.tx [b] .fail], panel := s.panel.failed s.cfg s.dc s.draws [b], bus := s.bus.after 1
        draws := s.draws + 1 }
      (if s.phase = .runInit then .configuration else .transfer)) := by
  simp [State.sendData, busWrite_fail _ h, BusDone.finish, busFail_eq, State.emit, Panel.recv]

theorem sendData_hang {s : State} (b : Byte) (h : s.bus.nth 0 = .hang) :
    s.sendData b = .hung { s with hung := true, bus := s.bus.after 1 } := by
  simp [State.sendData, busWrite_hang _ h, BusDone.finish]

theorem sendBytes_ok {s : State} (a n : Nat) (h : s.bus.nth 0 = .ok) :
    s.sendBytes a n = .ok
      { s with
        seq := s.seq + 1, trace := s.trace ++ [.tx (Mem.readRange s.fb a n) .ok]
        panel := s.panel.deliver s.cfg s.dc s.draws (Mem.readRange s.fb a n), bus := s.bus.after 1, draws := s.draws + 1 } := by
  simp [State.sendBytes, busWrite_ok _ h, BusDone.finish, State.emit, State.advance, Panel.recv]

theorem sendBytes_fail {s : State} (a n : Nat) (h : s.bus.nth 0 = .fail) :
    s.sendBytes a n = .failed (State.raise
      { s with
        trace := s.trace ++ [.tx (Mem.readRange s.fb a n) .fail]
        panel := s.panel.failed s.cfg s.dc s.draws (Mem.readRange s.fb a n), bus := s.bus.after 1, draws := s.draws + 1 }
      (if s.phase = .runInit then .configuration else .transfer)) := by
  simp [State.sendBytes, busWrite_fail _ h, BusDone.finish, busFail_eq, State.emit, Panel.recv]

theorem sendBytes_hang {s : State} (a n : Nat) (h : s.bus.nth 0 = .hang) :
    s.sendBytes a n = .hung { s with hung := true, bus := s.bus.after 1 } := by
  simp [State.sendBytes, busWrite_hang _ h, BusDone.finish]

/-! ### Frames -/

theorem sendArgs_nil (s : State) : s.sendArgs [] = .ok s := by simp [State.sendArgs]

theorem sendArgs_cons (s : State) (b : Byte) (bs : List Byte) :
    s.sendArgs (b :: bs) = match s.sendData b with
      | .ok t => t.sendArgs bs
      | .failed t => .failed t
      | .hung t => .hung t := by
  cases h : s.sendData b <;> simp only [State.sendArgs, h]

/-- Arguments in two parts. -/
theorem sendArgs_append (bs bs' : List Byte) : ∀ s : State,
    s.sendArgs (bs ++ bs') = match s.sendArgs bs with
      | .ok t => t.sendArgs bs'
      | .failed t => .failed t
      | .hung t => .hung t := by
  induction bs with
  | nil => intro s; rw [List.nil_append, sendArgs_nil]
  | cons b bs ih =>
    intro s
    rw [List.cons_append, sendArgs_cons, sendArgs_cons]
    cases s.sendData b with
    | ok t => exact ih t
    | failed t => rfl
    | hung t => rfl

/-- What SEND_DATA keeps, its arguments keep. -/
theorem sendArgs_induct {P : State → Prop} (hd : ∀ s b, P s → s.hung = false → P (s.sendData b).state)
    (hf : ∀ (s : State) (b : Byte) (t : State), s.sendData b = .ok t → s.hung = false → t.hung = false) :
    ∀ (bs : List Byte) (s : State), P s → s.hung = false → P (s.sendArgs bs).state := by
  intro bs
  induction bs with
  | nil => intro s hs _; simpa [sendArgs_nil, BusDone.state] using hs
  | cons b bs ih =>
    intro s hs hh
    have h := hd s b hs hh
    rw [sendArgs_cons]
    cases hb : s.sendData b with
    | ok t => exact ih t (by simpa [hb, BusDone.state] using h) (hf s b t hb hh)
    | failed t => simpa [hb, BusDone.state] using h
    | hung t => simpa [hb, BusDone.state] using h

theorem sendData_ok_free {s t : State} {b : Byte} (h : s.sendData b = .ok t) (hh : s.hung = false) : t.hung = false := by
  cases hb : s.bus.nth 0 with
  | ok => rw [sendData_ok b hb] at h; cases h; exact hh
  | fail => rw [sendData_fail b hb] at h; cases h
  | hang => rw [sendData_hang b hb] at h; cases h

theorem sendCommand_ok_free {s t : State} {c : Byte} (h : s.sendCommand c = .ok t) (hh : s.hung = false) :
    t.hung = false := by
  cases hb : s.bus.nth 0 with
  | ok => rw [sendCommand_ok c hb] at h; cases h; exact hh
  | fail => rw [sendCommand_fail c hb] at h; cases h
  | hang => rw [sendCommand_hang c hb] at h; cases h

/-- What SEND_COMMAND and SEND_DATA keep, a frame keeps. -/
theorem sendFrame_induct {P : State → Prop} (hc : ∀ s b, P s → s.hung = false → P (s.sendCommand b).state)
    (hd : ∀ s b, P s → s.hung = false → P (s.sendData b).state) (s : State) (c : Command) (args : List Byte)
    (hs : P s) (hh : s.hung = false) : P (s.sendFrame c args).state := by
  have h := hc s (s.cfg.opc c) hs hh
  unfold State.sendFrame
  cases hb : s.sendCommand (s.cfg.opc c) with
  | ok t =>
    exact sendArgs_induct hd (fun _ _ _ => sendData_ok_free) args t (by simpa [hb, BusDone.state] using h)
      (sendCommand_ok_free hb hh)
  | failed t => simpa [hb, BusDone.state] using h
  | hung t => simpa [hb, BusDone.state] using h

/-- All arguments go through: one transaction each, delivered as data. -/
theorem sendArgs_ok : ∀ (bs : List Byte) (s : State), s.dc = true → (∀ k, k < bs.length → s.bus.nth k = .ok) →
    s.sendArgs bs = .ok
      { s with
        seq := s.seq + BitVec.ofNat 14 bs.length, trace := s.trace ++ bs.map fun a => Event.tx [a] .ok
        panel := s.panel.receiveArgs s.cfg s.draws bs, bus := s.bus.after bs.length
        draws := s.draws + bs.length } := by
  intro bs
  induction bs with
  | nil => intro s _ _; simp [sendArgs_nil]
  | cons b bs ih =>
    intro s hdc h
    have h0 : s.bus.nth 0 = .ok := h 0 (by simp)
    rw [sendArgs_cons, sendData_ok b h0]
    simp only [hdc]
    rw [ih { s with
      seq := s.seq + 1, trace := s.trace ++ [.tx [b] .ok], dc := true, panel := s.panel.symbol s.cfg true s.draws b
      bus := s.bus.after 1, draws := s.draws + 1 } rfl
      (fun k hk => by rw [nth_after]; exact h (1 + k) (by simp only [List.length_cons]; omega))]
    have hl : (b :: bs).length = 1 + bs.length := by simp [Nat.add_comm]
    simp [hl, BitVec.ofNat_add, BitVec.add_assoc, Nat.add_assoc]

/-- Argument `k`, when those before it go through: what its own SEND_DATA does decides the rest. -/
theorem sendArgs_at (args : List Byte) (k : Nat) (a : Byte) (s : State) (hdc : s.dc = true) (hok : ∀ j, j < k → s.bus.nth j = .ok)
    (hk : args[k]? = some a) : s.sendArgs args = match (State.sendData
      { s with
        seq := s.seq + BitVec.ofNat 14 k, trace := s.trace ++ (args.take k).map fun a => Event.tx [a] .ok
        panel := s.panel.receiveArgs s.cfg s.draws (args.take k), bus := s.bus.after k
        draws := s.draws + k } a) with
      | .ok t => t.sendArgs (args.drop (k + 1))
      | .failed t => .failed t
      | .hung t => .hung t := by
  have hlt : k < args.length := (List.getElem?_eq_some_iff.mp hk).1
  have hl : (args.take k).length = k := List.length_take_of_le (by omega)
  have e : args = args.take k ++ a :: args.drop (k + 1) := by
    conv_lhs => rw [← List.take_append_drop k args, List.drop_eq_getElem?_toList_append, hk]
    simp
  conv_lhs => rw [e, sendArgs_append, sendArgs_ok _ _ hdc (fun j hj => hok j (by omega)), hl]
  exact sendArgs_cons _ _ _

/-- The meaning of a command's constructor is its frame. -/
theorem exec_ofCommand (c : Command) (args : List Byte) (s : State) :
    exec (Instr.ofCommand c args) s = execFrame c args s := by cases c <;> rfl

theorem command?_ofCommand (c : Command) (args : List Byte) : (Instr.ofCommand c args).command? = some (c, args) := by
  cases c <;> rfl

theorem ofCommand_of_command? {i : Instr} {c : Command} {args : List Byte} (h : i.command? = some (c, args)) :
    i = Instr.ofCommand c args := by
  cases i <;> simp [Instr.command?] at h <;> obtain ⟨rfl, rfl⟩ := h <;> rfl

/-- Every instruction is a host operation, a transport primitive, or a command frame. -/
theorem instr_cases (i : Instr) :
    i.isHostOp = true ∨ (∃ c, i = .sendCommand c) ∨ (∃ b, i = .sendData b) ∨ (∃ a n, i = .sendBytes a n) ∨
      i = .rstLow ∨ i = .rstHigh ∨ i = .wait ∨ ∃ c args, i = Instr.ofCommand c args := by
  cases h : i.command? with
  | some p => exact .inr <| .inr <| .inr <| .inr <| .inr <| .inr <| .inr ⟨p.1, p.2, ofCommand_of_command? h⟩
  | none => cases i <;> simp_all [Instr.command?, Instr.isHostOp]

end Sys2Proof.Machine.Laws
end

