-- ==== Sys2Proof/Laws/PerInstr.lean ====
section
/-! SUPPORT. Statements made of every instruction as syntax, one lemma per constructor. -/

namespace Sys2Proof.Laws

open Sys2Proof.Machine

/-- How many wire symbols an instruction's transaction has (level T). -/
def wireCount : Instr → Nat
  | .sendBytes _ n => n
  | _ => 1

/-- The encoded form of an instruction is that of its level (`30_encoding.md` R60): a request word for the host operations; a
run of the right length, or an event, for the primitives; for a command a symbol at level 0 and one symbol at level 1
per argument, and the command with its arguments gives the instruction back. -/
def EncodedForm.Statement (i : Instr) : Prop :=
  ∀ (cfg : Config) (fb : Mem), match encode cfg fb i with
    | .word _ => i.isHostOp = true ∧ i.command? = none
    | .run _ ys => i.isHostOp = false ∧ i.command? = none ∧ ys.length = wireCount i
    | .rst _ => i.isHostOp = false ∧ i.command? = none
    | .hold _ => i.isHostOp = false ∧ i.command? = none
    | .frame ys => ∃ c args, i.command? = some (c, args) ∧ i = Instr.ofCommand c args ∧ i.isHostOp = false ∧
        ys = mkSymbol false (cfg.opc c) :: args.map (mkSymbol true)

/-- The form of a command frame. -/
theorem frame_form (c : Command) (args : List Byte) {i : Instr} (hi : i = Instr.ofCommand c args)
    (he : ∀ cfg fb, encode cfg fb i = .frame (encodeFrame cfg c args)) : EncodedForm.Statement i := by
  intro cfg fb
  rw [he]
  subst hi
  exact ⟨c, args, by cases c <;> rfl, rfl, by cases c <;> rfl, rfl⟩

theorem EncodedForm.init (low : BitVec 30) : EncodedForm.Statement (.init low) :=
  fun _ _ => ⟨rfl, rfl⟩

theorem EncodedForm.setpix (x : BitVec 16) (y : BitVec 14) : EncodedForm.Statement (.setpix x y) :=
  fun _ _ => ⟨rfl, rfl⟩

theorem EncodedForm.fill (low : BitVec 30) : EncodedForm.Statement (.fill low) :=
  fun _ _ => ⟨rfl, rfl⟩

theorem EncodedForm.flush (low : BitVec 30) : EncodedForm.Statement (.flush low) :=
  fun _ _ => ⟨rfl, rfl⟩

theorem EncodedForm.sendCommand (c : Byte) : EncodedForm.Statement (.sendCommand c) :=
  fun _ _ => ⟨rfl, rfl, rfl⟩

theorem EncodedForm.sendData (b : Byte) : EncodedForm.Statement (.sendData b) :=
  fun _ _ => ⟨rfl, rfl, rfl⟩

theorem EncodedForm.sendBytes (a : Nat) (n : Nat) : EncodedForm.Statement (.sendBytes a n) :=
  fun _ _ => ⟨rfl, rfl, by simp [Mem.readRange, wireCount]⟩

theorem EncodedForm.rstLow : EncodedForm.Statement (.rstLow) :=
  fun _ _ => ⟨rfl, rfl⟩

theorem EncodedForm.rstHigh : EncodedForm.Statement (.rstHigh) :=
  fun _ _ => ⟨rfl, rfl⟩

theorem EncodedForm.wait : EncodedForm.Statement (.wait) :=
  fun _ _ => ⟨rfl, rfl⟩

theorem EncodedForm.lock (args : List Byte) : EncodedForm.Statement (.lock args) :=
  frame_form _ _ rfl fun _ _ => rfl

theorem EncodedForm.clock (args : List Byte) : EncodedForm.Statement (.clock args) :=
  frame_form _ _ rfl fun _ _ => rfl

theorem EncodedForm.mux (args : List Byte) : EncodedForm.Statement (.mux args) :=
  frame_form _ _ rfl fun _ _ => rfl

theorem EncodedForm.offset (args : List Byte) : EncodedForm.Statement (.offset args) :=
  frame_form _ _ rfl fun _ _ => rfl

theorem EncodedForm.startline (args : List Byte) : EncodedForm.Statement (.startline args) :=
  frame_form _ _ rfl fun _ _ => rfl

theorem EncodedForm.remap (args : List Byte) : EncodedForm.Statement (.remap args) :=
  frame_form _ _ rfl fun _ _ => rfl

theorem EncodedForm.gpio (args : List Byte) : EncodedForm.Statement (.gpio args) :=
  frame_form _ _ rfl fun _ _ => rfl

theorem EncodedForm.vdd (args : List Byte) : EncodedForm.Statement (.vdd args) :=
  frame_form _ _ rfl fun _ _ => rfl

theorem EncodedForm.enhA (args : List Byte) : EncodedForm.Statement (.enhA args) :=
  frame_form _ _ rfl fun _ _ => rfl

theorem EncodedForm.contrast (args : List Byte) : EncodedForm.Statement (.contrast args) :=
  frame_form _ _ rfl fun _ _ => rfl

theorem EncodedForm.brightness (args : List Byte) : EncodedForm.Statement (.brightness args) :=
  frame_form _ _ rfl fun _ _ => rfl

theorem EncodedForm.greyDefault (args : List Byte) : EncodedForm.Statement (.greyDefault args) :=
  frame_form _ _ rfl fun _ _ => rfl

theorem EncodedForm.phase (args : List Byte) : EncodedForm.Statement (.phase args) :=
  frame_form _ _ rfl fun _ _ => rfl

theorem EncodedForm.enhB (args : List Byte) : EncodedForm.Statement (.enhB args) :=
  frame_form _ _ rfl fun _ _ => rfl

theorem EncodedForm.prechgV (args : List Byte) : EncodedForm.Statement (.prechgV args) :=
  frame_form _ _ rfl fun _ _ => rfl

theorem EncodedForm.prechgPeriod (args : List Byte) : EncodedForm.Statement (.prechgPeriod args) :=
  frame_form _ _ rfl fun _ _ => rfl

theorem EncodedForm.vcomh (args : List Byte) : EncodedForm.Statement (.vcomh args) :=
  frame_form _ _ rfl fun _ _ => rfl

theorem EncodedForm.modeNormal (args : List Byte) : EncodedForm.Statement (.modeNormal args) :=
  frame_form _ _ rfl fun _ _ => rfl

theorem EncodedForm.partialOff (args : List Byte) : EncodedForm.Statement (.partialOff args) :=
  frame_form _ _ rfl fun _ _ => rfl

theorem EncodedForm.sleepOff (args : List Byte) : EncodedForm.Statement (.sleepOff args) :=
  frame_form _ _ rfl fun _ _ => rfl

theorem EncodedForm.setcol (args : List Byte) : EncodedForm.Statement (.setcol args) :=
  frame_form _ _ rfl fun _ _ => rfl

theorem EncodedForm.setrow (args : List Byte) : EncodedForm.Statement (.setrow args) :=
  frame_form _ _ rfl fun _ _ => rfl

theorem EncodedForm.ramWrite (args : List Byte) : EncodedForm.Statement (.ramWrite args) :=
  frame_form _ _ rfl fun _ _ => rfl

theorem EncodedForm.greyTable (args : List Byte) : EncodedForm.Statement (.greyTable args) :=
  frame_form _ _ rfl fun _ _ => rfl

theorem EncodedForm.modeInverse (args : List Byte) : EncodedForm.Statement (.modeInverse args) :=
  frame_form _ _ rfl fun _ _ => rfl

theorem EncodedForm.modeAllon (args : List Byte) : EncodedForm.Statement (.modeAllon args) :=
  frame_form _ _ rfl fun _ _ => rfl

theorem EncodedForm.modeAlloff (args : List Byte) : EncodedForm.Statement (.modeAlloff args) :=
  frame_form _ _ rfl fun _ _ => rfl

theorem EncodedForm.partialOn (args : List Byte) : EncodedForm.Statement (.partialOn args) :=
  frame_form _ _ rfl fun _ _ => rfl

theorem EncodedForm.sleepOn (args : List Byte) : EncodedForm.Statement (.sleepOn args) :=
  frame_form _ _ rfl fun _ _ => rfl

theorem EncodedForm.ramRead (args : List Byte) : EncodedForm.Statement (.ramRead args) :=
  frame_form _ _ rfl fun _ _ => rfl

end Sys2Proof.Laws
end

