-- ==== Sys2Proof/Laws/Step.lean ====
section
/-! SUPPORT. What a step can do, said once. -/

namespace Sys2Proof.Machine.Laws

/-- The block's turn fetches what `blockFetch` says. -/
theorem fetch_blockTurn {s t : State} (h : BlockTurn s t) : fetch s = blockFetch t := by
  rcases h with ⟨h, rfl⟩ | ⟨r, h, rfl⟩ <;> simp [fetch, h]

/-- On the block's turn only the host's schedule differs. -/
theorem blockTurn_eq {s t : State} (h : BlockTurn s t) : t = { s with host := t.host } := by
  rcases h with ⟨_, rfl⟩ | ⟨r, _, rfl⟩ <;> rfl

/-- A step is a host move or the block's turn. -/
theorem turn_cases (s : State) :
    (∃ m r, s.host = m :: r ∧ m ≠ .pass ∧ fetch s = .quiet (State.hostMove { s with host := r } m)) ∨
      ∃ t, BlockTurn s t ∧ fetch s = blockFetch t := by
  rcases h : s.host with _ | ⟨m, r⟩
  · exact .inr ⟨s, .inl ⟨h, rfl⟩, by simp [fetch, h]⟩
  · cases m with
    | pass => exact .inr ⟨_, .inr ⟨r, h, rfl⟩, by simp [fetch, h]⟩
    | offer w => exact .inl ⟨_, r, rfl, by simp, by simp [fetch, h]⟩
    | cancel l => exact .inl ⟨_, r, rfl, by simp, by simp [fetch, h]⟩
    | reset => exact .inl ⟨_, r, rfl, by simp, by simp [fetch, h]⟩

/-- The block's turn, taken apart: bench port, waiting, a request, completion, or a primitive. -/
theorem blockFetch_cases {s : State} (hh : s.hung = false) :
    (∃ i, s.issue = some i ∧ blockFetch s = .instr i { s with issue := none }) ∨
    (s.issue = none ∧ s.phase = .idle ∧ (s.reqs = [] ∨ s.cancel = true) ∧ blockFetch s = .quiet s) ∨
    (∃ w r, s.issue = none ∧ s.phase = .idle ∧ s.cancel = false ∧ s.reqs = w :: r ∧
      blockFetch s = .instr (decodeRequest w) { s with reqs := r }) ∨
    (s.issue = none ∧ s.phase ≠ .idle ∧ s.seq.toNat = s.prog.length ∧ blockFetch s = .quiet s.complete) ∨
    (∃ i, s.issue = none ∧ s.phase ≠ .idle ∧ s.seq.toNat ≠ s.prog.length ∧ s.prog[s.seq.toNat]? = some i ∧
      blockFetch s = .instr i s) ∨
    (s.issue = none ∧ s.phase ≠ .idle ∧ s.prog.length < s.seq.toNat ∧ blockFetch s = .stuck .seqOverrun) := by
  cases hi : s.issue with
  | some i => exact .inl ⟨i, rfl, by simp [blockFetch, hh, hi]⟩
  | none =>
    by_cases hp : s.phase = .idle
    · rcases hr : s.reqs with _ | ⟨w, r⟩
      · exact .inr <| .inl ⟨rfl, hp, .inl rfl, by simp [blockFetch, hh, hi, hp, requestFetch, hr]⟩
      · cases hc : s.cancel with
        | true => exact .inr <| .inl ⟨rfl, hp, .inr rfl, by simp [blockFetch, hh, hi, hp, requestFetch, hr, hc]⟩
        | false =>
          exact .inr <| .inr <| .inl ⟨w, r, rfl, hp, rfl, rfl, by simp [blockFetch, hh, hi, hp, requestFetch, hr, hc]⟩
    · by_cases hl : s.seq.toNat = s.prog.length
      · exact .inr <| .inr <| .inr <| .inl ⟨rfl, hp, hl, by simp [blockFetch, hh, hi, hp, sequencerFetch, hl]⟩
      · cases hg : s.prog[s.seq.toNat]? with
        | some i =>
          exact .inr <| .inr <| .inr <| .inr <| .inl
            ⟨i, rfl, hp, hl, rfl, by simp [blockFetch, hh, hi, hp, sequencerFetch, hl, hg]⟩
        | none =>
          refine .inr <| .inr <| .inr <| .inr <| .inr ⟨rfl, hp, ?_, by simp [blockFetch, hh, hi, hp, sequencerFetch, hl, hg]⟩
          have := List.getElem?_eq_none_iff.mp hg
          omega

theorem blockFetch_hung {s : State} (hh : s.hung = true) : blockFetch s = .stuck .busHang := by
  simp [blockFetch, hh]

/-- A step that answers a next state: a host move; or on the block's turn, from a state with no transaction outstanding,
waiting, a completion, or an instruction run. -/
theorem step_next {s t : State} (h : step s = .next t) :
    (∃ m r, s.host = m :: r ∧ m ≠ .pass ∧ t = State.hostMove { s with host := r } m) ∨
    ∃ u, BlockTurn s u ∧ u.hung = false ∧
      ((∃ i, u.issue = some i ∧ exec i { u with issue := none } = .next t) ∨
      (u.issue = none ∧ u.phase = .idle ∧ (u.reqs = [] ∨ u.cancel = true) ∧ t = u) ∨
      (∃ w r, u.issue = none ∧ u.phase = .idle ∧ u.cancel = false ∧ u.reqs = w :: r ∧
        exec (decodeRequest w) { u with reqs := r } = .next t) ∨
      (u.issue = none ∧ u.phase ≠ .idle ∧ u.seq.toNat = u.prog.length ∧ t = u.complete) ∨
      (∃ i, u.issue = none ∧ u.phase ≠ .idle ∧ u.seq.toNat ≠ u.prog.length ∧ u.prog[u.seq.toNat]? = some i ∧
        exec i u = .next t)) := by
  unfold step at h
  rcases turn_cases s with ⟨m, r, hm, hp, hf⟩ | ⟨u, hu, hf⟩
  · rw [hf] at h
    exact .inl ⟨m, r, hm, hp, by simpa [eq_comm] using h⟩
  · refine .inr ⟨u, hu, ?_⟩
    rw [hf] at h
    by_cases ht : u.hung = true
    · simp [blockFetch_hung ht] at h
    · have hh : u.hung = false := by simpa using ht
      refine ⟨hh, ?_⟩
      rcases blockFetch_cases hh with ⟨i, hi, e⟩ | ⟨hi, hp, hr, e⟩ | ⟨w, r, hi, hp, hc, hr, e⟩ | ⟨hi, hp, hl, e⟩ |
        ⟨i, hi, hp, hl, hg, e⟩ | ⟨hi, hp, hl, e⟩ <;> rw [e] at h
      · exact .inl ⟨i, hi, h⟩
      · exact .inr <| .inl ⟨hi, hp, hr, by simpa [eq_comm] using h⟩
      · exact .inr <| .inr <| .inl ⟨w, r, hi, hp, hc, hr, h⟩
      · exact .inr <| .inr <| .inr <| .inl ⟨hi, hp, hl, by simpa [eq_comm] using h⟩
      · exact .inr <| .inr <| .inr <| .inr ⟨i, hi, hp, hl, hg, h⟩
      · cases h

/-- Every instruction of a primitive list is a transport primitive. -/
theorem prog_primitive {s : State} {i : Instr} (h : i ∈ s.prog) :
    (∃ c, i = .sendCommand c) ∨ (∃ b, i = .sendData b) ∨ (∃ a n, i = .sendBytes a n) ∨ i = .rstLow ∨ i = .rstHigh ∨
      i = .wait := by
  unfold State.prog at h
  cases hp : s.phase <;> simp only [hp] at h
  · simp at h
  · simp only [initProg, framePrims, List.mem_append, List.mem_flatMap, List.mem_cons, List.mem_map,
      List.not_mem_nil, or_false] at h
    rcases h with ((rfl | rfl | rfl | rfl) | ⟨c, _, rfl | ⟨a, _, rfl⟩⟩) | rfl <;> simp
  · simp only [flushProg, flushChunks, framePrims, List.mem_append, List.mem_cons, List.mem_map,
      List.not_mem_nil, or_false] at h
    rcases h with (((rfl | ⟨a, _, rfl⟩) | rfl | ⟨a, _, rfl⟩) | rfl | ⟨a, h, rfl⟩) | ⟨k, _, rfl⟩ <;> simp_all

end Sys2Proof.Machine.Laws
end

