-- ==== Sys2Proof/Laws/Primitive.lean ====
section
/-! SUPPORT. Everything a transport primitive of a primitive list can do, said once: it goes through, its transaction fails,
or its transaction never returns. -/

namespace Sys2Proof.Machine.Laws

/-- The primitives of the lists. -/
def IsPrimitive (i : Instr) : Prop :=
  (∃ c, i = .sendCommand c) ∨ (∃ b, i = .sendData b) ∨ (∃ a n, i = .sendBytes a n) ∨ i = .rstLow ∨ i = .rstHigh ∨ i = .wait

/-- How many transactions a primitive has. -/
def txCount : Instr → Nat
  | .sendCommand _ => 1
  | .sendData _ => 1
  | .sendBytes _ _ => 1
  | _ => 0

/-- A primitive's events when its transaction fails. -/
def failEvents (fb : Mem) : Instr → List Event
  | .sendCommand c => [.dc false, .tx [c] .fail, .dc true]
  | .sendData b => [.tx [b] .fail]
  | .sendBytes a n => [.tx (Mem.readRange fb a n) .fail]
  | _ => []

/-- A primitive's events when its transaction never returns. -/
def hangEvents : Instr → List Event
  | .sendCommand _ => [.dc false]
  | _ => []

/-- The reset line after a primitive. -/
def prstAfter (l : Bool) : Instr → Bool
  | .rstLow => false
  | .rstHigh => true
  | _ => l

/-- SEND_BYTES of a legal range is its transaction. -/
theorem exec_sendBytes {s : State} {a n : Nat} (h : s.hung = false) (h1 : 1 ≤ n) (h2 : n ≤ s.cfg.chunk)
    (h3 : a + n ≤ fbBytes) : exec (.sendBytes a n) s = .next (s.sendBytes a n).state := by
  have h4 : ¬ a + n > Mem.size := by simp only [Mem.size]; simp only [fbBytes] at h3; omega
  have h5 : chunkLengthOk s.cfg n = true := by simp [chunkLengthOk, h1, h2]
  show execSendBytes a n s = _
  rw [execSendBytes, whenFree_free h, if_neg h4, h5]
  rfl

/-- SEND_BYTES that answers a next state had a legal range. -/
theorem sendBytes_next {s t : State} {a n : Nat} (h : exec (.sendBytes a n) s = .next t) :
    s.hung = false ∧ 1 ≤ n ∧ n ≤ s.cfg.chunk ∧ a + n ≤ fbBytes ∧ t = (s.sendBytes a n).state := by
  obtain ⟨hf, h⟩ := whenFree_next.mp (show execSendBytes a n s = .next t from h)
  by_cases h4 : a + n > Mem.size
  · rw [if_pos h4] at h; cases h
  · rw [if_neg h4] at h
    by_cases h5 : chunkLengthOk s.cfg n = true
    · rw [if_neg (by simp [h5])] at h
      simp only [chunkLengthOk, Bool.and_eq_true, decide_eq_true_eq] at h5
      refine ⟨hf, h5.1, h5.2, ?_, by simpa [eq_comm] using h⟩
      simp only [Mem.size] at h4; simp only [fbBytes]; omega
    · rw [if_pos (by simpa using h5)] at h; cases h

/-- A primitive that answers a next state at the data level: it went through, or its transaction failed and the error was
taken, or its transaction never returned. -/
theorem primitive_next {s t : State} {i : Instr} (hi : IsPrimitive i) (hdc : s.dc = true) (h : exec i s = .next t) :
    s.hung = false ∧ ∃ p b d, (Mem.wf s.panel.ram = true → Mem.wf p.ram = true) ∧
      (t = { s with
          seq := s.seq + 1, trace := s.trace ++ okEvents s.fb i, prst := prstAfter s.prst i, panel := p, bus := b
          draws := d } ∨
      (txCount i = 1 ∧ t = State.raise
          { s with trace := s.trace ++ failEvents s.fb i, panel := p, bus := b, draws := d }
          (if s.phase = .runInit then .configuration else .transfer)) ∨
      (txCount i = 1 ∧ t = { s with
          hung := true, dc := hangEvents i == [], trace := s.trace ++ hangEvents i, bus := b, draws := d })) := by
  rcases hi with ⟨c, rfl⟩ | ⟨c, rfl⟩ | ⟨a, n, rfl⟩ | rfl | rfl | rfl
  · obtain ⟨hf, h⟩ := whenFree_next.mp (show execSendCommand c s = .next t from h)
    refine ⟨hf, ?_⟩
    cases hb : s.bus.nth 0 with
    | ok =>
      rw [sendCommand_ok c hb] at h; cases h
      exact ⟨s.panel.symbol s.cfg false (s.draws + 1) c, s.bus.after 1, s.draws + 3, fun hw => symbol_ram_wf hw _ _ _ _,
        .inl (by simp [BusDone.state, okEvents, prstAfter]; exact hdc)⟩
    | fail =>
      rw [sendCommand_fail c hb] at h; cases h
      exact ⟨s.panel.failed s.cfg false (s.draws + 1) [c], s.bus.after 1, s.draws + 3, fun _ => failed_ram_wf _ _ _ _ _,
        .inr (.inl ⟨rfl, by simp [BusDone.state, failEvents, hdc]⟩)⟩
    | hang =>
      rw [sendCommand_hang c hb] at h; cases h
      exact ⟨s.panel, s.bus.after 1, s.draws + 1, id, .inr (.inr ⟨rfl, by simp [BusDone.state, hangEvents]⟩)⟩
  · obtain ⟨hf, h⟩ := whenFree_next.mp (show execSendData c s = .next t from h)
    refine ⟨hf, ?_⟩
    cases hb : s.bus.nth 0 with
    | ok =>
      rw [sendData_ok c hb] at h; cases h
      exact ⟨s.panel.symbol s.cfg true s.draws c, s.bus.after 1, s.draws + 1, fun hw => symbol_ram_wf hw _ _ _ _,
        .inl (by simp [BusDone.state, okEvents, prstAfter, hdc])⟩
    | fail =>
      rw [sendData_fail c hb] at h; cases h
      exact ⟨s.panel.failed s.cfg s.dc s.draws [c], s.bus.after 1, s.draws + 1, fun _ => failed_ram_wf _ _ _ _ _,
        .inr (.inl ⟨rfl, by simp [BusDone.state, failEvents]⟩)⟩
    | hang =>
      rw [sendData_hang c hb] at h; cases h
      exact ⟨s.panel, s.bus.after 1, s.draws, id, .inr (.inr ⟨rfl, by simp [BusDone.state, hangEvents, hdc]⟩)⟩
  · obtain ⟨hf, _, _, _, rfl⟩ := sendBytes_next h
    refine ⟨hf, ?_⟩
    cases hb : s.bus.nth 0 with
    | ok =>
      rw [sendBytes_ok a n hb]
      exact ⟨s.panel.deliver s.cfg s.dc s.draws (Mem.readRange s.fb a n), s.bus.after 1, s.draws + 1,
        deliver_ram_wf s.cfg s.dc s.draws _ s.panel, .inl (by simp [BusDone.state, okEvents, prstAfter])⟩
    | fail =>
      rw [sendBytes_fail a n hb]
      exact ⟨s.panel.failed s.cfg s.dc s.draws (Mem.readRange s.fb a n), s.bus.after 1, s.draws + 1,
        fun _ => failed_ram_wf _ _ _ _ _, .inr (.inl ⟨rfl, by simp [BusDone.state, failEvents]⟩)⟩
    | hang =>
      rw [sendBytes_hang a n hb]
      exact ⟨s.panel, s.bus.after 1, s.draws, id, .inr (.inr ⟨rfl, by simp [BusDone.state, hangEvents, hdc]⟩)⟩
  · obtain ⟨hf, h⟩ := whenFree_next.mp (show execRstLow s = .next t from h)
    cases h
    exact ⟨hf, _, _, _, fun hw => recv_ram_wf hw s.cfg s.dc s.draws (.rst false), .inl rfl⟩
  · obtain ⟨hf, h⟩ := whenFree_next.mp (show execRstHigh s = .next t from h)
    cases h
    exact ⟨hf, _, _, _, id, .inl rfl⟩
  · obtain ⟨hf, h⟩ := whenFree_next.mp (show execWait s = .next t from h)
    cases h
    exact ⟨hf, _, _, _, id, .inl rfl⟩

/-- The panel after a primitive that went through at the data level. -/
def panelAfter (s : State) : Instr → Panel
  | .sendCommand c => s.panel.symbol s.cfg false (s.draws + 1) c
  | .sendData b => s.panel.symbol s.cfg true s.draws b
  | .sendBytes a n => s.panel.deliver s.cfg true s.draws (Mem.readRange s.fb a n)
  | .rstLow => Panel.hardReset s.draws
  | _ => s.panel

/-- What a primitive of a list does to the panel, at the data level: it went through, or a failed transaction is in the
trace, or its transaction never returned. -/
theorem primitive_panel {s t : State} {i : Instr} (hi : IsPrimitive i) (hdc : s.dc = true) (h : exec i s = .next t) :
    (t.hung = false ∧ t.panel = panelAfter s i) ∨ noFail t.trace = false ∨ (t.hung = true ∧ t.panel = s.panel) := by
  rcases hi with ⟨c, rfl⟩ | ⟨c, rfl⟩ | ⟨a, n, rfl⟩ | rfl | rfl | rfl
  · obtain ⟨hf, h⟩ := whenFree_next.mp (show execSendCommand c s = .next t from h)
    cases hb : s.bus.nth 0 with
    | ok =>
      rw [sendCommand_ok c hb] at h; cases h
      exact .inl ⟨hf, rfl⟩
    | fail =>
      rw [sendCommand_fail c hb] at h; cases h
      exact .inr (.inl (by simp [BusDone.state, State.raise, State.respond, noFail, Event.isFail]))
    | hang =>
      rw [sendCommand_hang c hb] at h; cases h
      exact .inr (.inr ⟨rfl, rfl⟩)
  · obtain ⟨hf, h⟩ := whenFree_next.mp (show execSendData c s = .next t from h)
    cases hb : s.bus.nth 0 with
    | ok =>
      rw [sendData_ok c hb] at h; cases h
      exact .inl ⟨hf, by simp [BusDone.state, panelAfter, hdc]⟩
    | fail =>
      rw [sendData_fail c hb] at h; cases h
      exact .inr (.inl (by simp [BusDone.state, State.raise, State.respond, noFail, Event.isFail]))
    | hang =>
      rw [sendData_hang c hb] at h; cases h
      exact .inr (.inr ⟨rfl, rfl⟩)
  · obtain ⟨hf, _, _, _, rfl⟩ := sendBytes_next h
    cases hb : s.bus.nth 0 with
    | ok =>
      rw [sendBytes_ok a n hb]
      exact .inl ⟨hf, by simp [BusDone.state, panelAfter, hdc]⟩
    | fail =>
      rw [sendBytes_fail a n hb]
      exact .inr (.inl (by simp [BusDone.state, State.raise, State.respond, noFail, Event.isFail]))
    | hang =>
      rw [sendBytes_hang a n hb]
      exact .inr (.inr ⟨rfl, rfl⟩)
  all_goals
    obtain ⟨hf, h⟩ := whenFree_next.mp h
    cases h
    exact .inl ⟨hf, rfl⟩

end Sys2Proof.Machine.Laws
end

