-- ==== Sys2Proof/Laws/Sequencer.lean ====
section
/-! SUPPORT. The primitive lists and what may follow what in them, the outcome of a host operation, and everything a step can do
from a state in which the bench port is unused. -/

namespace Sys2Proof.Machine.Laws

/-! ### The primitive lists -/

theorem length_framePrims (cfg : Config) (c : Command) (args : List Byte) :
    (framePrims cfg c args).length = 1 + args.length := by
  simp [framePrims, Nat.add_comm]

theorem length_initProg (cfg : Config) : (initProg cfg).length = 25 + cfg.initArgTotal := by
  simp only [initProg, List.length_append, List.length_flatMap, length_framePrims, Config.initArgTotal,
    Command.initList, List.map_cons, List.map_nil, List.sum_cons, List.sum_nil, List.length_cons, List.length_nil]
  omega

theorem length_flushProg (cfg : Config) : (flushProg cfg).length = 7 + cfg.nchunk := by
  simp [flushProg, framePrims, flushChunks]
  omega

/-- Every chunk of a flush is a legal range. -/
theorem flushChunks_legal {cfg : Config} (h1 : 1 ≤ cfg.chunk) {i : Instr} (hi : i ∈ flushChunks cfg) :
    ∃ a n, i = .sendBytes a n ∧ 1 ≤ n ∧ n ≤ cfg.chunk ∧ a + n ≤ fbBytes := by
  simp only [flushChunks, List.mem_map, List.mem_range] at hi
  obtain ⟨k, hk, rfl⟩ := hi
  have hlt : k * cfg.chunk < fbBytes := by
    have h2 : (k + 1) * cfg.chunk ≤ fbBytes + cfg.chunk - 1 :=
      (Nat.mul_le_mul_right _ hk).trans (Nat.div_mul_le_self _ _)
    rw [Nat.add_mul] at h2
    omega
  exact ⟨_, _, rfl, by omega, by omega, by omega⟩

/-- Every instruction of a list is a transport primitive. -/
theorem prog_isPrimitive {s : State} {i : Instr} (h : i ∈ s.prog) : IsPrimitive i := prog_primitive h

/-- A SEND_BYTES of a list has a legal range. -/
theorem prog_sendBytes_legal {s : State} (h1 : 1 ≤ s.cfg.chunk) {a n : Nat} (h : .sendBytes a n ∈ s.prog) :
    1 ≤ n ∧ n ≤ s.cfg.chunk ∧ a + n ≤ fbBytes := by
  unfold State.prog at h
  cases hp : s.phase <;> simp only [hp] at h
  · simp at h
  · simp [initProg, framePrims] at h
  · simp only [flushProg, framePrims, List.mem_append, List.mem_cons, List.mem_map, List.not_mem_nil, or_false] at h
    rcases h with ((h | h) | h) | h
    · simp at h
    · simp at h
    · simp at h
    · obtain ⟨a', n', e, h⟩ := flushChunks_legal h1 h
      cases e
      exact h

/-- A primitive of a list completes, fails or hangs, but never stops. -/
theorem prog_exec {s : State} {i : Instr} (hc : s.cfg.wf = true) (hf : s.hung = false) (h : i ∈ s.prog) :
    ∃ t, exec i s = .next t := by
  have h1 : 1 ≤ s.cfg.chunk := by
    simp only [Config.wf, Bool.and_eq_true, decide_eq_true_eq] at hc
    exact hc.1.1.1.1.1.2
  rcases prog_isPrimitive h with ⟨c, rfl⟩ | ⟨b, rfl⟩ | ⟨a, n, rfl⟩ | rfl | rfl | rfl
  · exact ⟨_, whenFree_free hf _⟩
  · exact ⟨_, whenFree_free hf _⟩
  · obtain ⟨h2, h3, h4⟩ := prog_sendBytes_legal h1 h
    exact ⟨_, exec_sendBytes hf h2 h3 h4⟩
  · exact ⟨_, whenFree_free hf _⟩
  · exact ⟨_, whenFree_free hf _⟩
  · exact ⟨_, whenFree_free hf _⟩

theorem nchunk_le {cfg : Config} (h : 1 ≤ cfg.chunk) : cfg.nchunk ≤ fbBytes := by
  unfold Config.nchunk
  refine Nat.div_le_of_le_mul ?_
  obtain ⟨c, hc⟩ := Nat.exists_eq_add_of_le' h
  rw [hc, Nat.add_mul, fbBytes]
  omega
/-- The counter never overflows its 14 bits (R23). -/
theorem length_prog_lt {s : State} (hc : s.cfg.wf = true) : s.prog.length < 2 ^ 14 := by
  simp only [Config.wf, Bool.and_eq_true, decide_eq_true_eq] at hc
  unfold State.prog
  cases s.phase with
  | idle => exact Nat.two_pow_pos 14
  | runInit => exact (length_initProg _).trans_lt hc.1.2
  | runFlush =>
    have := nchunk_le hc.1.1.1.1.1.2
    rw [fbBytes] at this
    exact (length_flushProg _).trans_lt (by omega)
/-! ### What stands next in a list -/

/-- What may follow a primitive in a list: as many arguments as a command byte asks for, and the stream only after RAM_WRITE
or itself. -/
def Follows (cfg : Config) (i : Instr) (rest : List Instr) : Prop :=
  (∀ b, i = .sendCommand b → ∃ c, b = cfg.opc c ∧ leadingArgs rest = cfg.nargs c ∧
    (∀ a n, rest.head? = some (.sendBytes a n) → c = .ramWrite)) ∧
  ((∀ b, i ≠ .sendCommand b) → (∀ b, i ≠ .sendData b) → leadingArgs rest = 0) ∧
  ((∀ b, i ≠ .sendCommand b) → (∀ a n, i ≠ .sendBytes a n) → ∀ a n, rest.head? ≠ some (.sendBytes a n))

/-- Every primitive of a list has what may follow it after it. -/
def Ordered (cfg : Config) : List Instr → Prop
  | [] => True
  | i :: is => Follows cfg i is ∧ Ordered cfg is

theorem leadingArgs_append (args : List Byte) (rest : List Instr) :
    leadingArgs (args.map Instr.sendData ++ rest) = args.length + leadingArgs rest := by
  induction args with
  | nil => simp
  | cons a as ih => simp [leadingArgs, ih]; omega

theorem ordered_args (cfg : Config) (rest : List Instr) (hr : Ordered cfg rest)
    (hb : ∀ a n, rest.head? ≠ some (.sendBytes a n)) :
    ∀ args : List Byte, Ordered cfg (args.map Instr.sendData ++ rest) ∧
      ∀ a n, (args.map Instr.sendData ++ rest).head? ≠ some (.sendBytes a n) := by
  intro args
  induction args with
  | nil => exact ⟨hr, hb⟩
  | cons a as ih => exact ⟨⟨⟨nofun, fun _ h => absurd rfl (h a), fun _ _ => ih.2⟩, ih.1⟩, by simp⟩

/-- A frame of the right length, before what is ordered itself. -/
theorem ordered_frame {cfg : Config} {c : Command} {args : List Byte} {rest : List Instr} (hr : Ordered cfg rest)
    (h0 : leadingArgs rest = 0) (hb : ∀ a n, rest.head? = some (.sendBytes a n) → c = .ramWrite ∧ args = [])
    (hn : args.length = cfg.nargs c) :
    Ordered cfg (framePrims cfg c args ++ rest) := by
  by_cases ha : args = []
  · subst ha
    refine ⟨⟨fun b h => ?_, fun h => absurd rfl (h _), fun h => absurd rfl (h _)⟩, hr⟩
    cases h
    exact ⟨c, rfl, by simpa [h0] using hn, fun a n h => (hb a n h).1⟩
  · have hb' : ∀ a n, rest.head? ≠ some (.sendBytes a n) := fun a n h => ha (hb a n h).2
    obtain ⟨h1, h2⟩ := ordered_args cfg rest hr hb' args
    refine ⟨⟨fun b h => ?_, fun h => absurd rfl (h _), fun h => absurd rfl (h _)⟩, h1⟩
    cases h
    exact ⟨c, rfl, (leadingArgs_append args rest).trans (by rw [h0]; exact hn), fun a n h => absurd h (h2 a n)⟩

theorem framePrims_head (cfg : Config) (c : Command) (args : List Byte) (rest : List Instr) :
    leadingArgs (framePrims cfg c args ++ rest) = 0 ∧
      ∀ a n, (framePrims cfg c args ++ rest).head? ≠ some (.sendBytes a n) :=
  ⟨rfl, by simp [framePrims]⟩

theorem ordered_frames {cfg : Config} {rest : List Instr} (hr : Ordered cfg rest) (h0 : leadingArgs rest = 0)
    (hb : ∀ a n, rest.head? ≠ some (.sendBytes a n)) :
    ∀ cs : List Command, (∀ c ∈ cs, (cfg.initArgs c).length = cfg.nargs c) →
    Ordered cfg (cs.flatMap (fun c => framePrims cfg c (cfg.initArgs c)) ++ rest) ∧
    leadingArgs (cs.flatMap (fun c => framePrims cfg c (cfg.initArgs c)) ++ rest) = 0 ∧
    ∀ a n, (cs.flatMap (fun c => framePrims cfg c (cfg.initArgs c)) ++ rest).head? ≠ some (.sendBytes a n) := by
  intro cs
  induction cs with
  | nil => intro _; exact ⟨hr, h0, hb⟩
  | cons c cs ih =>
    intro h
    obtain ⟨i1, i2, i3⟩ := ih (fun d hd => h d (List.mem_cons_of_mem _ hd))
    rw [List.flatMap_cons, List.append_assoc]
    exact ⟨ordered_frame i1 i2 (fun a n h => absurd h (i3 a n)) (h c (by simp)), framePrims_head cfg c _ _⟩

theorem ordered_initProg {cfg : Config} (hc : cfg.wf = true) : Ordered cfg (initProg cfg) := by
  have hl : ∀ c ∈ Command.initList, (cfg.initArgs c).length = cfg.nargs c := by
    simp only [Config.wf, Bool.and_eq_true, List.all_eq_true, beq_iff_eq] at hc
    exact hc.1.1.1.1.1.1.1.2
  obtain ⟨h1, h2, h3⟩ := ordered_frames (cfg := cfg) (rest := [.wait])
    ⟨⟨nofun, fun _ _ => rfl, by simp⟩, trivial⟩ rfl (by simp) Command.initList hl
  unfold initProg
  simp only [List.cons_append, List.nil_append]
  exact ⟨⟨nofun, fun _ _ => rfl, by simp⟩, ⟨nofun, fun _ _ => rfl, by simp⟩, ⟨nofun, fun _ _ => rfl, by simp⟩,
    ⟨nofun, fun _ _ => h2, fun _ _ => h3⟩, h1⟩

theorem ordered_chunks (cfg : Config) : ∀ is : List Instr, (∀ i ∈ is, ∃ a n, i = .sendBytes a n) →
    Ordered cfg is ∧ leadingArgs is = 0 := by
  intro is
  induction is with
  | nil => intro _; exact ⟨trivial, rfl⟩
  | cons i is ih =>
    intro h
    obtain ⟨a, n, rfl⟩ := h i (by simp)
    obtain ⟨i1, i2⟩ := ih (fun d hd => h d (List.mem_cons_of_mem _ hd))
    exact ⟨⟨⟨nofun, fun _ _ => i2, fun _ h => absurd rfl (h a n)⟩, i1⟩, rfl⟩

theorem ordered_flushProg {cfg : Config} (hc : cfg.wf = true) : Ordered cfg (flushProg cfg) := by
  have hl : cfg.nargs .setcol = 2 ∧ cfg.nargs .setrow = 2 ∧ cfg.nargs .ramWrite = 0 := by
    simp only [Config.wf, Bool.and_eq_true, List.all_eq_true, beq_iff_eq] at hc
    exact ⟨hc.1.1.1.1.1.1.1.1.1.1.2, hc.1.1.1.1.1.1.1.1.1.2, hc.1.1.1.1.1.1.1.1.2⟩
  obtain ⟨h1, h2⟩ := ordered_chunks cfg (flushChunks cfg) (by simp [flushChunks])
  unfold flushProg
  simp only [List.append_assoc]
  have h3 := ordered_frame h1 h2 (fun _ _ _ => ⟨rfl, rfl⟩) hl.2.2.symm
  have h4 := ordered_frame (c := .setrow) (args := [cfg.rowStart, cfg.rowEnd]) h3 (framePrims_head ..).1 (fun a n h => absurd h ((framePrims_head ..).2 a n)) hl.2.1.symm
  exact ordered_frame h4 (framePrims_head ..).1 (fun a n h => absurd h ((framePrims_head ..).2 a n)) hl.1.symm

/-- A primitive of an ordered list and what stands after it. -/
theorem ordered_drop {cfg : Config} : ∀ (is : List Instr) (k : Nat) (i : Instr), Ordered cfg is → is[k]? = some i →
    ∃ rest, is.drop k = i :: rest ∧ is.drop (k+1) = rest ∧ Follows cfg i rest := by
  intro is
  induction is with
  | nil => intro k i _ h; simp at h
  | cons j js ih =>
    intro k i hw h
    cases k with
    | zero => simp at h; subst h; exact ⟨js, rfl, rfl, hw.1⟩
    | succ k => exact ih k i hw.2 (by simpa using h)

/-- The lists the sequencer walks are ordered. -/
theorem ordered_prog {s : State} (hc : s.cfg.wf = true) : Ordered s.cfg s.prog := by
  unfold State.prog
  cases s.phase with
  | idle => trivial
  | runInit => exact ordered_initProg hc
  | runFlush => exact ordered_flushProg hc

/-! ### Host operations -/

/-- Everything a host operation can do: not accepted; ended with a response, the framebuffer perhaps written; or dispatched
to the sequencer. -/
theorem hostOp_next {s t : State} {i : Instr} (hi : i.isHostOp = true) (h : exec i s = .next t) :
    s.hung = false ∧ (t = s ∨ s.phase = .idle ∧ s.cancel = false ∧ ∃ op y x,
      ((∃ e m, (Mem.wf s.fb = true → Mem.wf m = true) ∧ e ≠ .configuration ∧ e ≠ .transfer ∧ e ≠ .acquisition ∧
          t = State.respond { s with rqOp := op, rqY := y, rqX := x, fb := m } e) ∨
      (s.ctrl = .uninit ∧ t = { s with rqOp := op, rqY := y, rqX := x, phase := .runInit, seq := 0 }) ∨
      (s.ctrl = .active ∧ s.fbLive = true ∧
        t = { s with rqOp := op, rqY := y, rqX := x, phase := .runFlush, seq := 0 }))) := by
  have key : ∀ (op : BitVec 2) (y : BitVec 14) (x : BitVec 16) (run : State → State),
      s.request op y x run = .next t → s.hung = false ∧
        (t = s ∨ s.phase = .idle ∧ s.cancel = false ∧ t = run (s.latch op y x)) := by
    intro op y x run h
    obtain ⟨hf, ⟨hp, hc, h⟩ | ⟨_, h⟩⟩ := request_next h
    · exact ⟨hf, .inr ⟨hp, hc, h⟩⟩
    · exact ⟨hf, .inl h⟩
  cases i <;> simp only [Instr.isHostOp, Bool.false_eq_true] at hi <;>
    simp only [exec, execInit, execSetpix, execFill, execFlush] at h
  · obtain ⟨hf, h | ⟨hp, hc, rfl⟩⟩ := key _ _ _ _ h
    · exact ⟨hf, .inl h⟩
    · rename_i low
      refine ⟨hf, .inr ⟨hp, hc, 0, lowY low, lowX low, ?_⟩⟩
      unfold State.dispatch initError
      cases hu : s.ctrl with
      | active => exact .inl ⟨.state, s.fb, id, by simp, by simp, by simp, by simp [State.latch, hu]⟩
      | uninit => exact .inr (.inl ⟨rfl, by simp [State.latch, hu]⟩)
  · obtain ⟨hf, h | ⟨hp, hc, rfl⟩⟩ := key _ _ _ _ h
    · exact ⟨hf, .inl h⟩
    · rename_i x y
      refine ⟨hf, .inr ⟨hp, hc, 1, y, x, .inl ?_⟩⟩
      unfold State.settle
      cases he : setpixError (s.latch 1 y x) with
      | none =>
        exact ⟨.ok, _, fun hw => write_wf _ _ hw, by simp, by simp, by simp, rfl⟩
      | some e =>
        refine ⟨e, s.fb, id, ?_, ?_, ?_, rfl⟩ <;> (rintro rfl; unfold setpixError at he; split_ifs at he <;> cases he)
  · obtain ⟨hf, h | ⟨hp, hc, rfl⟩⟩ := key _ _ _ _ h
    · exact ⟨hf, .inl h⟩
    · rename_i low
      refine ⟨hf, .inr ⟨hp, hc, 2, lowY low, lowX low, .inl ?_⟩⟩
      unfold State.settle
      cases he : fillError (s.latch 2 (lowY low) (lowX low)) with
      | none => exact ⟨.ok, _, fun _ => ofFn_wf _, by simp, by simp, by simp, rfl⟩
      | some e =>
        refine ⟨e, s.fb, id, ?_, ?_, ?_, rfl⟩ <;> (rintro rfl; unfold fillError at he; split_ifs at he; cases he)
  · obtain ⟨hf, h | ⟨hp, hc, rfl⟩⟩ := key _ _ _ _ h
    · exact ⟨hf, .inl h⟩
    · rename_i low
      refine ⟨hf, .inr ⟨hp, hc, 3, lowY low, lowX low, ?_⟩⟩
      unfold State.dispatch flushError
      cases hl : s.fbLive with
      | false => exact .inl ⟨.released, s.fb, id, by simp, by simp, by simp, by simp [State.latch, hl]⟩
      | true =>
        cases hu : s.ctrl with
        | uninit => exact .inl ⟨.state, s.fb, id, by simp, by simp, by simp, by simp [State.latch, hl, hu]⟩
        | active => exact .inr (.inr ⟨rfl, rfl, by simp [State.latch, hl, hu]⟩)

theorem decodeRequest_isHostOp (w : Request) : (decodeRequest w).isHostOp = true := by
  unfold decodeRequest
  split_ifs <;> rfl

/-! ### The step -/

/-- Everything a step can do where the bench port is unused: a host move; waiting; an accepted request; a completion; or a
primitive of the list. -/
theorem step_next_unbenched {s t : State} (hb : s.issue = none) (h : step s = .next t) :
    (∃ m r, s.host = m :: r ∧ m ≠ .pass ∧ t = State.hostMove { s with host := r } m) ∨
    (s.hung = false ∧ ∃ r,
      (s.phase = .idle ∧ t = { s with host := r }) ∨
      (∃ i q, s.phase = .idle ∧ s.cancel = false ∧ i.isHostOp = true ∧ exec i { s with host := r, reqs := q } = .next t) ∨
      (s.phase ≠ .idle ∧ s.seq.toNat = s.prog.length ∧ t = ({ s with host := r } : State).complete) ∨
      (∃ i, s.phase ≠ .idle ∧ s.seq.toNat < s.prog.length ∧ s.prog[s.seq.toNat]? = some i ∧ i ∈ s.prog ∧
        exec i { s with host := r } = .next t)) := by
  rcases step_next h with h | ⟨u, hu, hf, h⟩
  · exact .inl h
  · right
    have e := blockTurn_eq hu
    generalize u.host = r at e
    subst e
    refine ⟨hf, r, ?_⟩
    rcases h with ⟨i, hi, _⟩ | ⟨_, hp, _, h⟩ | ⟨w, q, _, hp, hc, _, h⟩ | ⟨_, hp, hl, h⟩ | ⟨i, _, hp, hl, hg, h⟩
    · exact absurd (hb.symm.trans hi) (by simp)
    · exact .inl ⟨hp, h⟩
    · exact .inr (.inl ⟨_, q, hp, hc, decodeRequest_isHostOp w, h⟩)
    · exact .inr (.inr (.inl ⟨hp, hl, h⟩))
    · have hlt := (List.getElem?_eq_some_iff.mp hg).1
      exact .inr (.inr (.inr ⟨i, hp, hlt, hg, List.mem_of_getElem? hg, h⟩))

end Sys2Proof.Machine.Laws
end

