-- ==== Sys2Proof/Tests/Slice0.lean ====
section
/-! SUPPORT. The model's own tests: ill-formed terms refused, words of the spec decoded, one step on small states (expected
results from `95_test_vectors.md`), and for each statement with hypotheses a witness that meets them. -/

namespace Sys2Proof.Tests

open Sys2Proof Sys2Proof.Machine

/-! ### Ill-formed terms are refused -/

theorem test_wf_bytes_empty : Instr.wf Config.defGK (.sendBytes 0 0) = false := by decide
theorem test_wf_bytes_over_chunk : Instr.wf Config.defGK (.sendBytes 0 4097) = false := by decide
theorem test_wf_bytes_past_end : Instr.wf Config.defGK (.sendBytes 8191 2) = false := by decide
theorem test_wf_bytes_last : Instr.wf Config.defGK (.sendBytes 8191 1) = true := by decide

/-- Every command refuses one argument more and (where it takes any) one fewer than `NARGS`, and takes `NARGS`. -/
theorem test_wf_argument_counts : Command.all.all (fun c =>
    Instr.wf Config.defGK (Instr.ofCommand c (List.replicate (Config.defGK.nargs c) 0)) &&
    !Instr.wf Config.defGK (Instr.ofCommand c (List.replicate (Config.defGK.nargs c + 1) 0)) &&
    (Config.defGK.nargs c == 0 ||
      !Instr.wf Config.defGK (Instr.ofCommand c (List.replicate (Config.defGK.nargs c - 1) 0)))) = true := by decide

theorem test_cfg_default_wf : Config.defGK.wf = true := by decide
theorem test_cfg_opcode_clash : Config.wf { Config.defGK with opcode := Vector.replicate 30 0 } = false := by decide
theorem test_cfg_chunk_zero : Config.wf { Config.defGK with chunk := 0 } = false := by decide
theorem test_cfg_chunk_large : Config.wf { Config.defGK with chunk := 8193 } = false := by decide
theorem test_cfg_columns : Config.wf { Config.defGK with colEnd := 126 } = false := by decide
theorem test_cfg_rows : Config.wf { Config.defGK with rowEnd := 62 } = false := by decide
theorem test_cfg_fb : Config.wf { Config.defGK with fbReset := [(8192, 1)] } = false := by decide
theorem test_cfg_mux : Config.wf { Config.defGK with
    initArg := Config.defGK.initArg.set 2 [62] } = false := by decide
theorem test_cfg_counts : Config.wf { Config.defGK with
    argCount := Config.defGK.argCount.set 0 2 } = false := by decide
theorem test_cfg_init_args : Config.wf { Config.defGK with
    initArg := Config.defGK.initArg.set 1 [] } = false := by decide
theorem test_cfg_window_counts : Config.wf { Config.defGK with
    argCount := (Config.defGK.argCount.set 20 1) } = false := by decide

theorem test_mem_wf_order : Mem.wf [(1, 1), (0, 1)] = false := by decide
theorem test_mem_wf_blank : Mem.wf [(0, 0)] = false := by decide
theorem test_mem_wf_range : Mem.wf [(8192, 1)] = false := by decide

/-! ### Decoding: each instruction from a word written out from the spec's encoding (`30_encoding.md` R61, R64, R65, R72;
the opcode bytes are those of the opcode table) -/

theorem test_decode_init : decode Config.defGK (.word 0b00_00000000000000_0000000000000000#32) = .instr (.init 0) := by decide
theorem test_decode_init_dontcare : decode Config.defGK (.word 0x3FFFFFFF#32) = .instr (.init 0x3FFFFFFF#30) := by decide
theorem test_decode_setpix : decode Config.defGK (.word 0b01_00000000111111_0000000011111111#32) = .instr (.setpix 255 63) := by
  decide
theorem test_decode_setpix_max : decode Config.defGK (.word 0x7FFFFFFF#32) = .instr (.setpix 65535 16383) := by decide
theorem test_decode_fill : decode Config.defGK (.word 0b10_00000000000000_0000000000000000#32) = .instr (.fill 0) := by decide
theorem test_decode_flush : decode Config.defGK (.word 0b11_00000000000000_0000000000000000#32) = .instr (.flush 0) := by decide
theorem test_decode_sendCommand : decode Config.defGK (.run none [0b011111101]) = .instr (.sendCommand 0xFD) := by decide
theorem test_decode_sendData : decode Config.defGK (.run none [0b100111111]) = .instr (.sendData 0x3F) := by decide
theorem test_decode_sendBytes :
    decode Config.defGK (.run (some 4096) [0b111111111, 0b100000000]) = .instr (.sendBytes 4096 2) := by decide
theorem test_decode_rstLow : decode Config.defGK (.rst false) = .instr .rstLow := by decide
theorem test_decode_rstHigh : decode Config.defGK (.rst true) = .instr .rstHigh := by decide
theorem test_decode_wait : decode Config.defGK (.hold 150) = .instr .wait := by decide

theorem test_decode_lock : decode Config.defGK (.frame [0b011111101, 0b100010010])
    = .instr (.lock [0x12]) := by decide
theorem test_decode_clock : decode Config.defGK (.frame [0b010110011, 0b100010010])
    = .instr (.clock [0x12]) := by decide
theorem test_decode_mux : decode Config.defGK (.frame [0b011001010, 0b100010010])
    = .instr (.mux [0x12]) := by decide
theorem test_decode_offset : decode Config.defGK (.frame [0b010100010, 0b100010010])
    = .instr (.offset [0x12]) := by decide
theorem test_decode_startline : decode Config.defGK (.frame [0b010100001, 0b100010010])
    = .instr (.startline [0x12]) := by decide
theorem test_decode_remap : decode Config.defGK (.frame [0b010100000, 0b100010010, 0b100110100])
    = .instr (.remap [0x12, 0x34]) := by decide
theorem test_decode_gpio : decode Config.defGK (.frame [0b010110101, 0b100010010])
    = .instr (.gpio [0x12]) := by decide
theorem test_decode_vdd : decode Config.defGK (.frame [0b010101011, 0b100010010])
    = .instr (.vdd [0x12]) := by decide
theorem test_decode_enhA : decode Config.defGK (.frame [0b010110100, 0b100010010, 0b100110100])
    = .instr (.enhA [0x12, 0x34]) := by decide
theorem test_decode_contrast : decode Config.defGK (.frame [0b011000001, 0b100010010])
    = .instr (.contrast [0x12]) := by decide
theorem test_decode_brightness : decode Config.defGK (.frame [0b011000111, 0b100010010])
    = .instr (.brightness [0x12]) := by decide
theorem test_decode_greyDefault : decode Config.defGK (.frame [0b010111001])
    = .instr (.greyDefault []) := by decide
theorem test_decode_phase : decode Config.defGK (.frame [0b010110001, 0b100010010])
    = .instr (.phase [0x12]) := by decide
theorem test_decode_enhB : decode Config.defGK (.frame [0b011010001, 0b100010010, 0b100110100])
    = .instr (.enhB [0x12, 0x34]) := by decide
theorem test_decode_prechgV : decode Config.defGK (.frame [0b010111011, 0b100010010])
    = .instr (.prechgV [0x12]) := by decide
theorem test_decode_prechgPeriod : decode Config.defGK (.frame [0b010110110, 0b100010010])
    = .instr (.prechgPeriod [0x12]) := by decide
theorem test_decode_vcomh : decode Config.defGK (.frame [0b010111110, 0b100010010])
    = .instr (.vcomh [0x12]) := by decide
theorem test_decode_modeNormal : decode Config.defGK (.frame [0b010100110])
    = .instr (.modeNormal []) := by decide
theorem test_decode_partialOff : decode Config.defGK (.frame [0b010101001])
    = .instr (.partialOff []) := by decide
theorem test_decode_sleepOff : decode Config.defGK (.frame [0b010101111])
    = .instr (.sleepOff []) := by decide
theorem test_decode_setcol : decode Config.defGK (.frame [0b000010101, 0b100010010, 0b100110100])
    = .instr (.setcol [0x12, 0x34]) := by decide
theorem test_decode_setrow : decode Config.defGK (.frame [0b001110101, 0b100010010, 0b100110100])
    = .instr (.setrow [0x12, 0x34]) := by decide
theorem test_decode_ramWrite : decode Config.defGK (.frame [0b001011100])
    = .instr (.ramWrite []) := by decide
theorem test_decode_greyTable : decode Config.defGK (.frame [0b010111000, 0b100000001, 0b100000010, 0b100000011, 0b100000100, 0b100000101, 0b100000110, 0b100000111, 0b100001000, 0b100001001, 0b100001010, 0b100001011, 0b100001100, 0b100001101, 0b100001110, 0b100001111])
    = .instr (.greyTable [0x01, 0x02, 0x03, 0x04, 0x05, 0x06, 0x07, 0x08, 0x09, 0x0A, 0x0B, 0x0C, 0x0D, 0x0E, 0x0F]) := by decide
theorem test_decode_modeInverse : decode Config.defGK (.frame [0b010100111])
    = .instr (.modeInverse []) := by decide
theorem test_decode_modeAllon : decode Config.defGK (.frame [0b010100101])
    = .instr (.modeAllon []) := by decide
theorem test_decode_modeAlloff : decode Config.defGK (.frame [0b010100100])
    = .instr (.modeAlloff []) := by decide
theorem test_decode_partialOn : decode Config.defGK (.frame [0b010101000, 0b100010010, 0b100110100])
    = .instr (.partialOn [0x12, 0x34]) := by decide
theorem test_decode_sleepOn : decode Config.defGK (.frame [0b010101110])
    = .instr (.sleepOn []) := by decide
theorem test_decode_ramRead : decode Config.defGK (.frame [0b001011101])
    = .instr (.ramRead []) := by decide

theorem test_reject_unknown : decode Config.defGK (.frame [0b011101110]) = .reject .unknownOpcode := by decide
theorem test_reject_short : decode Config.defGK (.frame [0b010100000, 0b100010100]) = .reject .shortFrame := by decide
theorem test_reject_long : decode Config.defGK (.frame [0b010100110, 0b100000000]) = .reject .longFrame := by decide
theorem test_reject_data_first : decode Config.defGK (.frame [0b100000000]) = .reject .dataFirst := by decide
theorem test_reject_empty : decode Config.defGK (.frame []) = .reject .empty := by decide
theorem test_reject_long_run : decode Config.defGK (.run none [0b100000000, 0b100000000]) = .reject .longRun := by decide
theorem test_reject_command_in_run :
    decode Config.defGK (.run (some 0) [0b100000000, 0b000000000]) = .reject .commandInRun := by decide
theorem test_reject_overrun : decode Config.defGK (.run (some 8192) [0b100000000]) = .reject .streamOverrun := by decide
theorem test_reject_hold : decode Config.defGK (.hold 149) = .reject .holdLength := by decide

/-- The opcode table's words at the host's numbering. -/
theorem test_table_words : decodeTableWord 32 0x40010003 = some (.setpix 3 1) ∧ decodeTableWord 16 0x000 = some (.sendCommand 0) ∧
    decodeTableWord 16 0x100 = some (.sendData 0) ∧ decodeTableWord 16 0x0FD = some (.lock [0]) ∧
    decodeTableWord 16 0x05C = some (.ramWrite []) := by decide

/-! ### Small states -/

/-- The next state of an outcome, if there is one. -/
def next? : Host.Outcome State Fault Refusal → Option State
  | .next s => some s
  | _ => none

/-- Whether an outcome is a next state with a property. -/
def nextHas (o : Host.Outcome State Fault Refusal) (p : State → Bool) : Bool := (next? o).elim false p

/-- After reset, with the bus environment's next answers. -/
def idleS (script : List BusAnswer := []) : State := { State.reset with bus := { script := script, rest := .ok } }

/-- The controller active, and the panel with it. -/
def activeS : State := { State.reset with ctrl := .active, panel := { Panel.initial with cfgd := .active } }

/-- INIT just dispatched. -/
def initS (script : List BusAnswer := []) : State := { idleS script with phase := .runInit }

/-- FLUSH just dispatched. -/
def flushS : State := { activeS with phase := .runFlush }

/-- A SEND_COMMAND of INIT that never returned. -/
def hungS : State := { initS with hung := true, dc := false, trace := [.dc false] }

/-- A released buffer under `SINGLE_USE`. -/
def releasedS : State := { activeS with fbLive := false, cfg := { Config.defGK with singleUse := true } }

/-! ### One step of each instruction, by the vectors of `95_test_vectors.md` -/

/-- V30's first step: dispatch. -/
theorem test_init_dispatch : nextHas (exec (.init 0) idleS) (fun t => t.phase == .runInit && t.seq == 0 && t.rsps == []) := by
  decide
/-- V31: StateError while active. -/
theorem test_init_active : nextHas (exec (.init 0) activeS) (fun t => t.err == .state && t.trace == [] && t.ctrl == .active) := by
  decide
/-- V8 with `old = 0x5A`: the low lane of byte 129. -/
theorem test_setpix_low_lane :
    nextHas (exec (.setpix 3 1) { idleS with fb := [(129, 0x5A)] }) (fun t => t.fb == [(129, 0x5F)] && t.err == .ok) := by decide
/-- V15: `y = 64` does not alias to row 0. -/
theorem test_setpix_bounds : nextHas (exec (.setpix 0 64) idleS) (fun t => t.err == .bounds && t.fb == [] && t.rqY == 64) := by
  decide
/-- V20: `fb[127] = FF`, `fb[128] = 00`. -/
theorem test_fill_bands : ∃ t, exec (.fill 0) idleS = .next t ∧ Mem.read t.fb 127 = 0xFF ∧ Mem.read t.fb 128 = 0x00 ∧
    Mem.read t.fb 8063 = 0xFF ∧ Mem.read t.fb 8191 = 0x00 := by
  refine ⟨_, rfl, ?_, ?_, ?_, ?_⟩ <;> exact (Laws.read_ofFn bandByte (by decide)).trans (by decide)
/-- V92: FILL on a released buffer. -/
theorem test_fill_released : nextHas (exec (.fill 0) releasedS) (fun t => t.err == .released && t.fb == []) := by decide
/-- V45: FLUSH before INIT. -/
theorem test_flush_uninit : nextHas (exec (.flush 0) idleS) (fun t => t.err == .state && t.phase == .idle) := by decide
/-- V94: Released before State. -/
theorem test_flush_priority :
    nextHas (exec (.flush 0) { releasedS with ctrl := .uninit }) (fun t => t.err == .released) := by decide
/-- V50. -/
theorem test_sendCommand_ok : nextHas (exec (.sendCommand 0xAF) initS) (fun t =>
    t.trace == [.dc false, .tx [0xAF] .ok, .dc true] && t.dc && t.seq == 1) := by decide
/-- V51: the line is restored before the error entry. -/
theorem test_sendCommand_fail : nextHas (exec (.sendCommand 0xAF) { initS [.fail] with seq := 42 }) (fun t =>
    t.trace == [.dc false, .tx [0xAF] .fail, .dc true] && t.dc && t.errSeq == 42 && t.seq == 0 && t.phase == .idle
      && t.err == .configuration && t.faultLog) := by decide
/-- V53. -/
theorem test_sendData_ok : nextHas (exec (.sendData 0x3F) { initS with seq := 9 }) (fun t =>
    t.trace == [.tx [0x3F] .ok] && t.seq == 10) := by decide
/-- V47: a failed window argument of a flush is a TransferError. -/
theorem test_sendData_fail : nextHas (exec (.sendData 0x00)
    { flushS with seq := 4, bus := { script := [.fail], rest := .ok } }) (fun t =>
    t.err == .transfer && t.errSeq == 4 && t.ctrl == .uninit && t.panel.cfgd == .undef && !t.panel.sync) := by decide
/-- V56. -/
theorem test_sendBytes_last : nextHas (exec (.sendBytes 8191 1) { flushS with fb := [(8191, 0x0F)], seq := 8 }) (fun t =>
    t.trace == [.tx [0x0F] .ok] && t.seq == 9 && t.fb == [(8191, 0x0F)]) := by decide
/-- A range past the framebuffer (R8). -/
theorem test_sendBytes_range : exec (.sendBytes 8191 2) flushS = .fault .fbRange := rfl
/-- V58: emitted although the line is already low. -/
theorem test_rstLow : nextHas (exec .rstLow { initS with prst := false }) (fun t =>
    t.trace == [.rst false] && !t.prst && t.seq == 1 && t.panel.cfgd == .undef) := by decide
/-- V59. -/
theorem test_rstHigh : nextHas (exec .rstHigh { initS with prst := false }) (fun t => t.trace == [.rst true] && t.prst) := by
  decide
/-- V60. -/
theorem test_wait : nextHas (exec .wait initS) (fun t => t.trace == [.wait 150] && t.seq == 1) := by decide
/-- V52: the hang leaves `dc = 0` and only `DC(0)`. -/
theorem test_hang : nextHas (exec (.sendCommand 0xAF) (initS [.hang])) (fun t =>
    t.trace == [.dc false] && !t.dc && t.hung && t.seq == 0 && t.phase == .runInit) := by decide

/-- A frame leaves its arguments in `p_reg`, the parser at rest and `seq` past its primitives (V70, V72, V74 and the like
for every command). -/
def frameTest (c : Command) : Bool :=
  let args := (List.range (Config.defGK.nargs c)).map (BitVec.ofNat 8)
  nextHas (exec (Instr.ofCommand c args) initS) fun t =>
    t.panel.regOf c == some args && t.panel.pend == none && t.panel.sync && t.seq == BitVec.ofNat 14 (1 + args.length)

theorem test_frame_lock : frameTest .lock = true := by decide
theorem test_frame_clock : frameTest .clock = true := by decide
theorem test_frame_mux : frameTest .mux = true := by decide
theorem test_frame_offset : frameTest .offset = true := by decide
theorem test_frame_startline : frameTest .startline = true := by decide
theorem test_frame_remap : frameTest .remap = true := by decide
theorem test_frame_gpio : frameTest .gpio = true := by decide
theorem test_frame_vdd : frameTest .vdd = true := by decide
theorem test_frame_enhA : frameTest .enhA = true := by decide
theorem test_frame_contrast : frameTest .contrast = true := by decide
theorem test_frame_brightness : frameTest .brightness = true := by decide
theorem test_frame_greyDefault : frameTest .greyDefault = true := by decide
theorem test_frame_phase : frameTest .phase = true := by decide
theorem test_frame_enhB : frameTest .enhB = true := by decide
theorem test_frame_prechgV : frameTest .prechgV = true := by decide
theorem test_frame_prechgPeriod : frameTest .prechgPeriod = true := by decide
theorem test_frame_vcomh : frameTest .vcomh = true := by decide
theorem test_frame_modeNormal : frameTest .modeNormal = true := by decide
theorem test_frame_partialOff : frameTest .partialOff = true := by decide
theorem test_frame_sleepOff : frameTest .sleepOff = true := by decide
theorem test_frame_setcol : frameTest .setcol = true := by decide
theorem test_frame_setrow : frameTest .setrow = true := by decide
theorem test_frame_ramWrite : frameTest .ramWrite = true := by decide
theorem test_frame_greyTable : frameTest .greyTable = true := by decide
theorem test_frame_modeInverse : frameTest .modeInverse = true := by decide
theorem test_frame_modeAllon : frameTest .modeAllon = true := by decide
theorem test_frame_modeAlloff : frameTest .modeAlloff = true := by decide
theorem test_frame_partialOn : frameTest .partialOn = true := by decide
theorem test_frame_sleepOn : frameTest .sleepOn = true := by decide
theorem test_frame_ramRead : frameTest .ramRead = true := by decide

/-- V76: the window and the pointer. -/
theorem test_setcol_window : nextHas (exec (.setcol [0, 127]) initS) (fun t =>
    t.panel.cs == 0 && t.panel.ce == 127 && t.panel.cc == 0) := by decide
/-- V73: the next opcode while an argument is owed. -/
theorem test_short_frame : nextHas (exec (.gpio []) { initS with panel := { Panel.initial with
    pend := some { cmd := .remap, need := 2, got := [0x14] } } }) (fun t =>
    !t.panel.sync && t.panel.pend == some { cmd := .gpio, need := 1, got := [] }) := by decide
/-- V75: a data byte with no place. -/
theorem test_long_frame : nextHas (exec (.modeNormal [0]) initS) (fun t => !t.panel.sync) := by decide
/-- V78: two display-RAM bytes. -/
theorem test_ram_bytes : nextHas (exec (.sendBytes 0 2) { flushS with
    fb := [(0, 0xAA), (1, 0xBB)], panel := { Panel.initial with stream := true, ce := 127, re := 63 } }) (fun t =>
    t.panel.cell 0 0 == 0xAA && t.panel.cell 1 0 == 0xBB && t.panel.cc == 2 && t.panel.rc == 0) := by decide

/-! ### The step -/

/-- V100 and V32: `cancel` raised. -/
theorem test_step_cancel : step { idleS with cancel := true, reqs := [0] } = .next { idleS with cancel := true, reqs := [0] } := rfl
/-- The sequencer's first primitive. -/
theorem test_step_init_first : nextHas (step initS) (fun t => t.trace == [.rst false] && t.seq == 1) := by decide
/-- Completion of INIT. -/
theorem test_step_init_complete : nextHas (step { initS with seq := 44 }) (fun t =>
    t.ctrl == .active && t.phase == .idle && t.seq == 0 && t.err == .ok && t.panel.cfgd == .active) := by decide
/-- V48: completion of FLUSH under `SINGLE_USE`. -/
theorem test_step_flush_complete : nextHas (step { flushS with
    seq := 9, cfg := { Config.defGK with singleUse := true } }) (fun t => !t.fbLive && t.ctrl == .active && t.phase == .idle) := by
  decide
/-- Block reset leaves a hang. -/
theorem test_step_reset : nextHas (step { hungS with host := [.reset] }) (fun t => !t.hung && t.dc && t.trace == []) := by decide
/-- Otherwise a hang has no step. -/
theorem test_step_hung : step hungS = .fault .busHang := rfl
/-- A table word runs as the first instruction after reset. -/
theorem test_first_instruction : nextHas (step (State.reset.withFetchWord 32 0x40000000)) (fun t => t.fb == [(0, 0xF0)]) ∧
    nextHas (step (State.reset.withFetchWord 16 0x0FD)) (fun t => t.panel.regOf .lock == some [0]) := by decide

/-! ### Witnesses: a state and operands that meet each statement's hypotheses -/

theorem inv_of_small {s : State} (h1 : s.cfg.wf = true) (h2 : Mem.wf s.fb = true) (h3 : Mem.wf s.panel.ram = true)
    (h4 : s.phase = .idle → s.seq = 0) (h5 : s.hung = false → s.dc = true) (h6 : s.dc = dcLevel s.trace)
    (h7 : s.faultLog = false → noFail s.trace = true) (h8 : s.fbLive = false → s.cfg.singleUse = true)
    (h9 : s.phase = .runFlush → s.ctrl = .active ∧ s.fbLive = true) (h10 : s.phase = .runInit → s.ctrl = .uninit)
    (h11 : s.phase ≠ .idle → s.seq.toNat ≤ s.prog.length) (h12 : s.hung = true → s.phase ≠ .idle)
    (h13 : s.err = s.rsps.getLastD .ok) (h14 : s.issue = none) : Inv s :=
  ⟨h1, h2, h3, h4, h5, h6, h7, h8, h9, h10, h11, h12, h13, h14⟩

/-- No block reset stands next. -/
theorem no_reset_init (r : List HostMove) : initS.host ≠ .reset :: r := by intro h; cases h
theorem no_reset_script (r : List HostMove) : (initS [.fail]).host ≠ .reset :: r := by intro h; cases h

theorem witness_inv_idle : Inv idleS := by
  apply inv_of_small <;> decide
theorem witness_inv_active : Inv activeS := by
  apply inv_of_small <;> decide
theorem witness_inv_init : Inv initS := by
  apply inv_of_small <;> decide
theorem witness_inv_init_end : Inv { initS with seq := 44 } := by
  apply inv_of_small <;> decide
theorem witness_inv_flush : Inv flushS := by
  apply inv_of_small <;> decide
theorem witness_inv_flush_end : Inv { flushS with seq := 9 } := by
  apply inv_of_small <;> decide
theorem witness_inv_hung : Inv hungS := by
  apply inv_of_small <;> decide
theorem witness_inv_released : Inv releasedS := by
  apply inv_of_small <;> decide
theorem witness_inv_script : Inv (initS [.fail]) := by
  apply inv_of_small <;> decide

theorem witness_DecodeEncodeAgree : Config.defGK.wf = true ∧ Instr.wf Config.defGK (.sendBytes 4096 4096) = true ∧
    Instr.wf Config.defGK (.lock [0x12]) = true ∧ Instr.wf Config.defGK (.greyTable (List.replicate 15 7)) = true := by decide

theorem witness_EveryRequestWordDecodes : (0x3FFFFFFF#32).toNat / 2 ^ 30 = 0 ∧ (0x7FFFFFFF#32).toNat / 2 ^ 30 = 1 ∧
    (0xBFFFFFFF#32).toNat / 2 ^ 30 = 2 ∧ (0xFFFFFFFF#32).toNat / 2 ^ 30 = 3 := by decide

theorem witness_FrameEndsWhereItsOpcodeSays :
    Config.defGK.wf = true ∧ [(0x14 : Byte), 0x11].length = Config.defGK.nargs .remap := by decide

theorem witness_OpcodesToldApart : Config.defGK.wf = true ∧ Config.defGK.opc .lock = Config.defGK.opc .lock ∧
    (∀ c, Config.defGK.opc c ≠ 0xEE) := ⟨by decide, rfl, fun c => by cases c <;> decide⟩

theorem witness_blockTurn : BlockTurn idleS idleS ∧ BlockTurn { idleS with host := [.pass, .reset] } { idleS with host := [.reset] } :=
  ⟨.inl ⟨rfl, rfl⟩, .inr ⟨[.reset], rfl, rfl⟩⟩

theorem witness_StepRunsRequest : ∃ s t w rest, BlockTurn s t ∧ s.hung = false ∧ s.issue = none ∧ s.phase = .idle ∧
    s.cancel = false ∧ s.reqs = w :: rest :=
  ⟨{ idleS with reqs := [0xC0000000] }, _, _, _, .inl ⟨rfl, rfl⟩, rfl, rfl, rfl, rfl, rfl⟩

theorem witness_StepRunsPrimitive_init : BlockTurn { initS with seq := 43 } { initS with seq := 43 } ∧ initS.hung = false ∧
    initS.issue = none ∧ initS.phase = .runInit ∧ (initProg initS.cfg)[(43 : BitVec 14).toNat]? = some .wait :=
  ⟨.inl ⟨rfl, rfl⟩, rfl, rfl, rfl, by decide⟩
theorem witness_StepRunsPrimitive_flush : BlockTurn { flushS with seq := 8 } { flushS with seq := 8 } ∧ flushS.hung = false ∧
    flushS.issue = none ∧ flushS.phase = .runFlush ∧ (flushProg flushS.cfg)[(8 : BitVec 14).toNat]? = some (.sendBytes 4096 4096) :=
  ⟨.inl ⟨rfl, rfl⟩, rfl, rfl, rfl, by decide⟩

theorem witness_StepRunsBench : (∃ s t i, BlockTurn s t ∧ s.hung = false ∧ s.issue = some i) ∧
    ((16 : Nat) ≠ 32 ∧ decodeTableWord 16 0x15 = some (.setcol [0, 0])) :=
  ⟨⟨{ idleS with issue := some .wait }, _, _, .inl ⟨rfl, rfl⟩, rfl, rfl⟩, by decide⟩

theorem witness_StepWaitsInIdle : (BlockTurn idleS idleS ∧ idleS.hung = false ∧ idleS.issue = none ∧ idleS.phase = .idle ∧
    idleS.reqs = []) ∧ ({ idleS with cancel := true, reqs := [0] } : State).cancel = true :=
  ⟨⟨.inl ⟨rfl, rfl⟩, rfl, rfl, rfl, rfl⟩, rfl⟩

theorem witness_CancelOnlyGatesAcceptance : initS.host = [] ∧ initS.issue = none ∧ initS.phase ≠ .idle := by decide

theorem witness_OfferNotAcceptedChangesNothing : Instr.isHostOp (.flush 0) = true ∧ initS.hung = false ∧ initS.phase ≠ .idle ∧
    ({ idleS with cancel := true } : State).hung = false ∧ ({ idleS with cancel := true } : State).cancel = true := by decide

theorem witness_BlockResetFromAnywhere : ({ hungS with host := [.reset, .pass] } : State).host = .reset :: [.pass] := rfl

theorem witness_OneIndexFormula : (255 < 256 ∧ 63 < 64) ∧ 8191 < 8192 ∧ pixelIndex 254 63 = pixelIndex 255 63 := by decide

/-- Accepted: the hypotheses of the host operations' statements, and each clause of SETPIX at its boundary. -/
theorem witness_accepted : idleS.hung = false ∧ idleS.phase = .idle ∧ idleS.cancel = false ∧ idleS.seq = 0 ∧
    Mem.wf idleS.fb = true ∧ idleS.fbLive = true := by decide
theorem witness_SetpixEffect_bounds : (256 : BitVec 16).toNat ≥ 256 ∧ (64 : BitVec 14).toNat ≥ 64 ∧ idleS.phase = .idle := by decide
theorem witness_SetpixEffect_released : ¬((255 : BitVec 16).toNat ≥ 256 ∨ (63 : BitVec 14).toNat ≥ 64) ∧ releasedS.fbLive = false ∧
    releasedS.hung = false ∧ releasedS.phase = .idle ∧ releasedS.cancel = false := by decide
theorem witness_SetpixEffect_ok : ¬((255 : BitVec 16).toNat ≥ 256 ∨ (63 : BitVec 14).toNat ≥ 64) ∧ ¬idleS.fbLive = false := by decide
theorem witness_SetpixSetsOnePixel : (255 : BitVec 16).toNat < 256 ∧ (63 : BitVec 14).toNat < 64 ∧
    (254 < 256 ∧ 63 < 64 ∧ ¬(254 = (255 : BitVec 16).toNat ∧ 63 = (63 : BitVec 14).toNat)) ∧
    0 ≠ pixelIndex (255 : BitVec 16).toNat (63 : BitVec 14).toNat := by decide
theorem witness_OutOfBoundsTouchesNothing : idleS.hung = false ∧ idleS.phase = .idle ∧ idleS.cancel = false ∧
    (65535 : BitVec 16).toNat ≥ 256 := by decide
theorem witness_FillWritesBands : idleS.fbLive = true ∧ releasedS.fbLive = false ∧ releasedS.hung = false ∧
    releasedS.phase = .idle ∧ releasedS.cancel = false ∧ (63 < 64 ∧ 127 < 128) := by decide
theorem witness_InitDispatch : activeS.hung = false ∧ activeS.phase = .idle ∧ activeS.cancel = false ∧ activeS.ctrl = .active ∧
    ¬idleS.ctrl = .active := by decide
theorem witness_FlushDispatch : releasedS.fbLive = false ∧ (¬idleS.fbLive = false ∧ idleS.ctrl = .uninit) ∧
    (¬activeS.fbLive = false ∧ ¬activeS.ctrl = .uninit) := by decide
theorem witness_StateErrorCauses : (activeS.hung = false ∧ activeS.phase = .idle ∧ activeS.cancel = false ∧ activeS.seq = 0 ∧
    activeS.ctrl = .active) ∧ (idleS.ctrl = .uninit ∧ idleS.fbLive = true) := by decide
theorem witness_HostOpFrame : (∃ t, exec (.setpix 255 63) idleS = .next t) ∧ (∃ t, exec (.init 0) idleS = .next t) ∧
    (∃ t, exec (.fill 0) idleS = .next t) ∧ (∃ t, exec (.flush 0) activeS = .next t) ∧
    (∃ t, exec (.setpix 256 0) idleS = .next t) ∧ (∃ t, exec (.fill 0) initS = .next t) ∧ Mem.wf idleS.fb = true :=
  ⟨⟨_, rfl⟩, ⟨_, rfl⟩, ⟨_, rfl⟩, ⟨_, rfl⟩, ⟨_, rfl⟩, ⟨_, rfl⟩, rfl⟩

theorem witness_SendCompletes : initS.hung = false ∧ initS.bus.nth 0 = .ok ∧ (1 ≤ 4096 ∧ 4096 ≤ initS.cfg.chunk ∧ 4096 + 4096 ≤ 8192) ∧
    4095 < 4096 := by decide
theorem witness_RstAndWait : initS.hung = false ∧ flushS.hung = false ∧ initS.prst = true := by decide
theorem witness_BusFailureIsFatal : (initS [.fail]).hung = false ∧ (initS [.fail]).bus.nth 0 = .fail ∧
    Response.configuration = (if (initS [.fail]).phase = .runInit then .configuration else .transfer) ∧
    ({ flushS with bus := { script := [.fail], rest := .ok } } : State).bus.nth 0 = .fail ∧
    Response.transfer = (if flushS.phase = .runInit then .configuration else .transfer) ∧
    (1 ≤ 1 ∧ 1 ≤ flushS.cfg.chunk ∧ 8191 + 1 ≤ 8192) := by decide
theorem witness_BusHangLeavesTheLine : (initS [.hang]).hung = false ∧ (initS [.hang]).bus.nth 0 = .hang ∧
    (1 ≤ 4096 ∧ 4096 ≤ (initS [.hang]).cfg.chunk ∧ 0 + 4096 ≤ 8192) := by decide
theorem witness_HangIsStuck : hungS.hung = true ∧ BlockTurn hungS hungS := ⟨rfl, .inl ⟨rfl, rfl⟩⟩
theorem witness_SendBytesStops : flushS.hung = false ∧ 8192 < 8192 + 1 ∧ (8192 + 0 ≤ 8192 ∧ 0 = 0) ∧
    (0 + 4097 ≤ 8192 ∧ flushS.cfg.chunk < 4097) := by decide
theorem witness_WireInstrFrame : Instr.isHostOp (.lock [0x12]) = false ∧ (∃ t, exec (.lock [0x12]) initS = .next t) ∧
    (∃ t, exec (.lock [0x12]) (initS [.ok, .fail]) = .next t) ∧ (∃ t, exec (.sendBytes 0 1) flushS = .next t) ∧
    (∃ t, exec (.sendCommand 0) (initS [.hang]) = .next t) ∧ (∃ t, exec .rstLow initS = .next t) :=
  ⟨rfl, ⟨_, rfl⟩, ⟨_, rfl⟩, ⟨_, rfl⟩, ⟨_, rfl⟩, ⟨_, rfl⟩⟩

theorem witness_CommandFrameCompletes : initS.hung = false ∧ AnswersOk initS (1 + [(0x14 : Byte), 0x11].length) := ⟨rfl, fun _ _ => rfl⟩
theorem witness_CommandFrameRecorded : initS.hung = false ∧ initS.cfg.wf = true ∧ AnswersOk initS (1 + [(0 : Byte), 127].length) ∧
    [(0 : Byte), 127].length = initS.cfg.nargs .setcol ∧ [(0 : Byte), 63].length = initS.cfg.nargs .setrow ∧
    ([] : List Byte).length = initS.cfg.nargs .ramWrite ∧ initS.panel.pend = none ∧
    (let s := { initS with panel := { initS.panel with cfgd := .active } }
     AnswersOk s (1 + [(0 : Byte), 127].length) ∧ s.panel.pend = none ∧ s.panel.cfgd = .active ∧ s.panel.sync = true) :=
  ⟨rfl, by decide, fun _ _ => rfl, rfl, rfl, rfl, rfl, fun _ _ => rfl, rfl, rfl, rfl⟩
theorem witness_CommandFrameCutShort :
    ((initS [.fail]).hung = false ∧ (initS [.fail]).bus.nth 0 = .fail) ∧
    ((initS [.ok, .ok, .fail]).hung = false ∧ AnswersOk (initS [.ok, .ok, .fail]) (1 + 1) ∧
      (initS [.ok, .ok, .fail]).bus.nth (1 + 1) = .fail ∧ [(0x14 : Byte), 0x11][1]? = some 0x11) ∧
    ((initS [.hang]).hung = false ∧ (initS [.hang]).bus.nth 0 = .hang) ∧
    ((initS [.ok, .ok, .hang]).hung = false ∧ AnswersOk (initS [.ok, .ok, .hang]) (1 + 1) ∧
      (initS [.ok, .ok, .hang]).bus.nth (1 + 1) = .hang ∧ 1 < [(0x14 : Byte), 0x11].length) :=
  ⟨⟨rfl, rfl⟩, ⟨rfl, fun k hk => by interval_cases k <;> rfl, rfl, rfl⟩, ⟨rfl, rfl⟩,
    ⟨rfl, fun k hk => by interval_cases k <;> rfl, rfl, by decide⟩⟩

theorem witness_RamByteAndPointer :
    let p : Panel := { Panel.initial with ce := 127, re := 63 }
    Mem.wf p.ram = true ∧ (p.cc.toNat < 128 ∧ p.rc.toNat < 64 ∧ p.cc.toNat < p.ce.toNat) ∧
    (let q := { p with cc := 127, rc := 62 }
     q.cc.toNat < 128 ∧ q.rc.toNat < 64 ∧ q.ce.toNat ≤ q.cc.toNat ∧ q.rc.toNat < q.re.toNat) ∧
    (let q := { p with cc := 127, rc := 63 }
     q.cc.toNat < 128 ∧ q.rc.toNat < 64 ∧ q.ce.toNat ≤ q.cc.toNat ∧ q.re.toNat ≤ q.rc.toNat) ∧
    (126 < 128 ∧ 63 < 64 ∧ ¬(126 = p.cc.toNat ∧ 63 = p.rc.toNat)) := by decide
theorem witness_StreamFillsTheWindow :
    let p : Panel := { Panel.initial with ce := 127, re := 63, stream := true }
    Mem.wf p.ram = true ∧ p.pend = none ∧ p.stream = true ∧ p.cs = 0 ∧ p.ce = 127 ∧ p.rs = 0 ∧ p.re = 63 ∧ p.cc = 0 ∧
    p.rc = 0 ∧ p.sync = true ∧ (List.replicate 8192 (0xFF : Byte)).length = 8192 ∧ 8191 < 8192 :=
  ⟨rfl, rfl, rfl, rfl, rfl, rfl, rfl, rfl, rfl, rfl, List.length_replicate, by decide⟩
theorem witness_MisplacedByteDesynchronises :
    ({ Panel.initial with pend := some { cmd := .remap, need := 2, got := [] } } : Panel).pend.isSome = true ∧
    (Panel.initial.pend = none ∧ Panel.initial.stream = false) ∧ (∀ c, Config.defGK.opc c ≠ 0xEE) ∧
    ((Panel.initial.symbol Config.defGK false 0 0xEE).sync = false ∧ (Panel.initial.symbol Config.defGK true 0 0).sync = false) :=
  ⟨rfl, ⟨rfl, rfl⟩, fun c => by cases c <;> decide, by decide, by decide⟩
theorem witness_OutOfSyncIsSticky : ({ Panel.initial with sync := false } : Panel).sync = false ∧ Event.tx [0] .ok ≠ .rst false ∧
    Event.tx [0] .fail = .tx [0] .fail := by decide

theorem witness_ChunksAreNeutral : (1 ≤ Config.defGK.chunk ∧ Config.defGK.chunk ≤ 8192) ∧
    (1 ≤ ({ Config.defGK with chunk := 1 } : Config).chunk ∧ ({ Config.defGK with chunk := 8192 } : Config).chunk ≤ 8192) := by decide
theorem witness_SequenceCompletes : (initS.host = [] ∧ initS.hung = false ∧ initS.issue = none ∧ initS.phase = .runInit ∧
    (44 : BitVec 14).toNat = (initProg initS.cfg).length) ∧ (flushS.host = [] ∧ flushS.hung = false ∧ flushS.issue = none ∧
    flushS.phase = .runFlush ∧ (9 : BitVec 14).toNat = (flushProg flushS.cfg).length) := by decide
theorem witness_InitRunsToActive : Inv initS ∧ initS.phase = .runInit ∧ initS.seq = 0 ∧ initS.hung = false ∧ initS.host = [] ∧
    AnswersOk initS (20 + initS.cfg.initArgTotal) := ⟨witness_inv_init, rfl, rfl, rfl, rfl, fun _ _ => rfl⟩
theorem witness_FlushRunsToCompletion : Inv flushS ∧ flushS.phase = .runFlush ∧ flushS.seq = 0 ∧ flushS.hung = false ∧
    flushS.host = [] ∧ AnswersOk flushS (7 + flushS.cfg.nchunk) ∧ flushS.panel.pend = none ∧ flushS.cfg.colStart = 0 ∧
    flushS.cfg.rowStart = 0 ∧ flushS.panel.cfgd = .active ∧ flushS.panel.sync = true ∧ (127 < 128 ∧ 63 < 64) :=
  ⟨witness_inv_flush, rfl, rfl, rfl, rfl, fun _ _ => rfl, rfl, rfl, rfl, rfl, rfl, by decide⟩
theorem witness_SeqOnlyGoesForward : Inv initS ∧ initS.phase ≠ .idle ∧ BlockTurn initS initS ∧ (∃ t, step initS = .next t) :=
  ⟨witness_inv_init, by decide, .inl ⟨rfl, rfl⟩, ⟨_, rfl⟩⟩

theorem witness_InvariantsHoldAtReset : Config.defGK.wf = true := by decide
theorem witness_StepKeepsInvariants : (Inv initS ∧ ∃ t, step initS = .next t) ∧
    (Inv { initS with seq := 44 } ∧ ∃ t, step { initS with seq := 44 } = .next t) ∧
    (Inv { flushS with seq := 9 } ∧ ∃ t, step { flushS with seq := 9 } = .next t) :=
  ⟨⟨witness_inv_init, ⟨_, rfl⟩⟩, ⟨witness_inv_init_end, ⟨_, rfl⟩⟩, ⟨witness_inv_flush_end, ⟨_, rfl⟩⟩⟩
theorem witness_ActiveMeansInitialised : Inv initS ∧ ActiveHistory initS ∧ ∃ t, step initS = .next t :=
  ⟨witness_inv_init, ⟨fun h => (by cases h), fun _ _ => ⟨[], rfl⟩⟩, ⟨_, rfl⟩⟩
theorem witness_NoFailKeepsFramesInSync :
    (Inv initS ∧ FramesInSync initS ∧ ∃ t, step initS = .next t) ∧ noFail initS.trace = true ∧
    (∀ b, initS.prog[initS.seq.toNat]? ≠ some (.sendData b)) :=
  ⟨⟨witness_inv_init, fun _ => ⟨rfl, rfl, fun a n h => by cases (show some Instr.rstLow = some (.sendBytes a n) from h)⟩, ⟨_, rfl⟩⟩, rfl,
    fun b h => by cases (show some Instr.rstLow = some (.sendData b) from h)⟩
theorem witness_CommandLineFraming : FramedState initS ∧ (∃ t, exec (.lock [0x12]) initS = .next t) ∧ (∃ t, step initS = .next t) ∧
    FramedState hungS ∧ FramedState { hungS with host := [.reset] } ∧ (∃ t, step { hungS with host := [.reset] } = .next t) :=
  ⟨rfl, ⟨_, rfl⟩, ⟨_, rfl⟩, ⟨rfl, [], rfl, rfl⟩, ⟨rfl, [], rfl, rfl⟩, ⟨_, rfl⟩⟩
theorem witness_StepNeverStops : Inv flushS ∧ flushS.hung = false := ⟨witness_inv_flush, rfl⟩
theorem witness_OnlySetpixAndFillWriteTheBuffer : ((∀ x y, Instr.wait ≠ .setpix x y) ∧ (∀ low, Instr.wait ≠ .fill low) ∧
    ∃ t, exec .wait initS = .next t) ∧ (Inv initS ∧ initS.phase ≠ .idle ∧ (∀ r, initS.host ≠ .reset :: r) ∧ ∃ t, step initS = .next t) :=
  ⟨⟨by simp, by simp, ⟨_, rfl⟩⟩, witness_inv_init, by decide, no_reset_init, ⟨_, rfl⟩⟩
theorem witness_ConfigurationIsConstant : (∃ t, exec .wait initS = .next t) ∧ (∃ t, step initS = .next t) := ⟨⟨_, rfl⟩, ⟨_, rfl⟩⟩
theorem witness_ControllerTransitions : (Inv { initS with seq := 44 } ∧ ∃ t, step { initS with seq := 44 } = .next t ∧
      ({ initS with seq := 44 } : State).ctrl = .uninit ∧ t.ctrl = .active) ∧
    (∃ t, step { flushS with bus := { script := [.fail], rest := .ok } } = .next t ∧ flushS.ctrl = .active ∧ t.ctrl = .uninit) :=
  ⟨⟨witness_inv_init_end, _, rfl, rfl, rfl⟩, _, rfl, rfl, rfl⟩
theorem witness_FaultRecords : Inv (initS [.fail]) ∧ (∀ r, (initS [.fail]).host ≠ .reset :: r) ∧ (initS [.fail]).faultLog = false ∧
    (∃ t, step (initS [.fail]) = .next t) ∧
    (∃ t, step { initS [.fail] with seq := 4 } = .next t ∧ t.faultLog = true ∧ t.errSeq ≠ 0) :=
  ⟨witness_inv_script, no_reset_script, rfl, ⟨_, rfl⟩, _, rfl, rfl, by decide⟩
theorem witness_ResponsesEndOperations : Inv { initS with seq := 44 } ∧ (∀ r, initS.host ≠ .reset :: r) ∧
    (∃ t, step { initS with seq := 44 } = .next t) := ⟨witness_inv_init_end, no_reset_init, ⟨_, rfl⟩⟩
theorem witness_ReleaseOnlyByFlush : (∃ t, step { releasedS with fbLive := true, phase := .runFlush, seq := 9 } = .next t ∧
    t.fbLive = false) ∧ (∃ t, step { releasedS with host := [.reset] } = .next t ∧ t.fbLive = true) := ⟨⟨_, rfl, rfl⟩, ⟨_, rfl, rfl⟩⟩
theorem witness_ReleasedStaysActive : Inv releasedS ∧ ReleasedIdle releasedS ∧ (∃ t, step releasedS = .next t) :=
  ⟨witness_inv_released, fun _ => ⟨rfl, rfl⟩, ⟨_, rfl⟩⟩

end Sys2Proof.Tests
end

section
/-! PROOFS. The scope of the block (`00_scope.md`): an offer that is not accepted (R14), and that the block always has a
next step while no transaction hangs (R12). -/

namespace Sys2Proof.Proofs

open Sys2Proof.Machine Sys2Proof.Machine.Laws

/-! ### Host operations as requests -/

/-- Every host operation goes through the one gate `State.request`. -/
theorem exec_hostOp_eq_request {i : Instr} (hi : i.isHostOp = true) :
    ∃ op y x run, ∀ s, exec i s = s.request op y x run := by
  cases i with
  | init low => exact ⟨_, _, _, _, fun _ => by rw [exec, execInit]⟩
  | setpix x y => exact ⟨_, _, _, _, fun _ => by rw [exec, execSetpix]⟩
  | fill low => exact ⟨_, _, _, _, fun _ => by rw [exec, execFill]⟩
  | flush low => exact ⟨_, _, _, _, fun _ => by rw [exec, execFlush]⟩
  | _ => cases hi

theorem reqReady_eq_false {s : State} (h : s.phase ≠ .idle ∨ s.cancel = true) : s.reqReady = false := by
  rw [← Bool.not_eq_true, reqReady_iff]
  rintro ⟨hp, hc⟩
  rcases h with h | h
  · exact h hp
  · simp [h] at hc

theorem request_notReady {s : State} {op : BitVec 2} {y : BitVec 14} {x : BitVec 16} {run : State → State}
    (hf : s.hung = false) (hr : s.reqReady = false) : s.request op y x run = .next s := by
  rw [State.request, whenFree_free hf, hr]
  rfl

/-- Accepted or not, a host operation has a next state: its errors are responses, not stops. -/
theorem exec_hostOp_next {i : Instr} {s : State} (hi : i.isHostOp = true) (hf : s.hung = false) :
    ∃ t, exec i s = .next t := by
  obtain ⟨op, y, x, run, e⟩ := exec_hostOp_eq_request hi
  rw [e]
  cases hr : s.reqReady with
  | false => exact ⟨s, request_notReady hf hr⟩
  | true =>
    obtain ⟨hp, hc⟩ := reqReady_iff.mp hr
    exact ⟨_, request_accepted hf hp hc⟩

/-- Settles O11: every host operation is a request, and a request that is not ready answers the state it was given. -/
theorem offerNotAcceptedChangesNothing : Obligations.OfferNotAcceptedChangesNothing := by
  intro i s hi hf h
  obtain ⟨op, y, x, run, e⟩ := exec_hostOp_eq_request hi
  exact (e s).trans (request_notReady hf (reqReady_eq_false h))

/-! ### The next step -/

/-- `f` says what to do next and doing it gives a next state. -/
def FetchedNext (f : Fetched) : Prop :=
  (∃ t, f = .quiet t) ∨ ∃ i t u, f = .instr i t ∧ exec i t = .next u

theorem step_next_of_fetchedNext {s : State} (h : FetchedNext (fetch s)) : ∃ t, step s = .next t := by
  unfold step
  rcases h with ⟨t, e⟩ | ⟨i, t, u, e, hu⟩
  · exact ⟨t, by rw [e]⟩
  · exact ⟨u, by rw [e]; exact hu⟩

/-- The block's turn has a next state where the bench port is unused and `seq` stays inside its list: what stands in the
list is a primitive with legal operands, and what the request port gives is a host operation. -/
theorem fetchedNext_blockFetch {s : State} (hc : s.cfg.wf = true) (hb : s.issue = none)
    (hs : s.phase ≠ .idle → s.seq.toNat ≤ s.prog.length) (hf : s.hung = false) : FetchedNext (blockFetch s) := by
  rcases blockFetch_cases hf with ⟨i, hi, -⟩ | ⟨-, -, -, e⟩ | ⟨w, r, -, -, -, -, e⟩ | ⟨-, -, -, e⟩ |
    ⟨i, -, -, -, hg, e⟩ | ⟨-, hp, hl, -⟩
  · simp [hb] at hi
  · exact .inl ⟨_, e⟩
  · obtain ⟨u, hu⟩ := exec_hostOp_next (s := { s with reqs := r }) (decodeRequest_isHostOp w) hf
    exact .inr ⟨_, _, u, e, hu⟩
  · exact .inl ⟨_, e⟩
  · obtain ⟨u, hu⟩ := prog_exec hc hf (List.mem_of_getElem? hg)
    exact .inr ⟨_, _, u, e, hu⟩
  · exact absurd (hs hp) (Nat.not_le.mpr hl)

/-- Settles O53: a host move always has its next state, and the block's turn has one by the invariants. -/
theorem stepNeverStops : Obligations.StepNeverStops := by
  intro s hs hf
  apply step_next_of_fetchedNext
  rcases turn_cases s with ⟨m, r, -, -, e⟩ | ⟨u, hu, e⟩
  · exact .inl ⟨_, e⟩
  · have hus := blockTurn_eq hu
    generalize u.host = r at hus
    subst hus
    rw [e]
    exact fetchedNext_blockFetch hs.cfgWf hs.bench hs.seqBound hf

end Sys2Proof.Proofs
end

section
/-! PROOFS. The state of the block (`10_state.md`): everything a step can do from a state that meets the invariants, said
once; then what every step keeps of R35, and the rules on `seq`, the fault record and the framebuffer read off it. -/

namespace Sys2Proof.Proofs

open Sys2Proof.Machine Sys2Proof.Machine.Laws

/-! ### The operation in progress, by its phase -/

theorem running_cases {p : Phase} (h : p ≠ .idle) : p = .runInit ∨ p = .runFlush := by
  cases p with
  | idle => exact absurd rfl h
  | runInit => exact .inl rfl
  | runFlush => exact .inr rfl

theorem prog_of_runInit {s : State} (h : s.phase = .runInit) : s.prog = initProg s.cfg := by rw [State.prog, h]

theorem prog_of_runFlush {s : State} (h : s.phase = .runFlush) : s.prog = flushProg s.cfg := by rw [State.prog, h]

theorem complete_of_runInit {s : State} (h : s.phase = .runInit) : s.complete = s.completeInit := by rw [State.complete, h]

theorem complete_of_runFlush {s : State} (h : s.phase = .runFlush) : s.complete = s.completeFlush := by
  rw [State.complete, h]

/-! ### Everything a step can do from a state that meets the invariants -/

/-- The sequencer runs, nothing is outstanding, and primitive `i` stands at `seq`. -/
structure AtPrimitive (s : State) (i : Instr) : Prop where
  free : s.hung = false
  running : s.phase ≠ .idle
  next : s.prog[s.seq.toNat]? = some i

theorem AtPrimitive.isPrimitive {s : State} {i : Instr} (h : AtPrimitive s i) : IsPrimitive i :=
  prog_isPrimitive (List.mem_of_getElem? h.next)

theorem AtPrimitive.seq_lt {s : State} {i : Instr} (h : AtPrimitive s i) : s.seq.toNat < s.prog.length :=
  (List.getElem?_eq_some_iff.mp h.next).1

/-- Stepping over a primitive advances the counter without wrapping (R23). -/
theorem AtPrimitive.seq_succ {s : State} {i : Instr} (h : AtPrimitive s i) (hc : s.cfg.wf = true) :
    (s.seq + 1).toNat = s.seq.toNat + 1 := by
  have := length_prog_lt hc
  have := h.seq_lt
  rw [BitVec.toNat_add, show BitVec.toNat (1 : BitVec 14) = 1 from rfl]
  omega

/-- What a step makes of `s`, one constructor per way a step can go. -/
inductive StepEffect (s : State) : State → Prop
  /-- Only the host's inputs move: a host move, or the block waits or does not accept. -/
  | inputs (hs : List HostMove) (q : List Request) (c : Bool)
      (why : s.phase = .idle ∨ ∃ m r, s.host = m :: r ∧ m ≠ .pass) :
      StepEffect s { s with host := hs, reqs := q, cancel := c }
  /-- Block reset. -/
  | reset (r : List HostMove) (hr : s.host = .reset :: r) : StepEffect s (State.blockReset { s with host := r })
  /-- A host operation accepted and ended at once. -/
  | answers (hs : List HostMove) (q : List Request) (op : BitVec 2) (y : BitVec 14) (x : BitVec 16) (m : Mem) (e : Response)
      (idle : s.phase = .idle) (free : s.hung = false) (canon : Mem.wf s.fb = true → Mem.wf m = true) :
      StepEffect s (State.respond { s with host := hs, reqs := q, rqOp := op, rqY := y, rqX := x, fb := m } e)
  /-- INIT accepted and dispatched. -/
  | startsInit (hs : List HostMove) (q : List Request) (op : BitVec 2) (y : BitVec 14) (x : BitVec 16)
      (idle : s.phase = .idle) (free : s.hung = false) (ctrl : s.ctrl = .uninit) :
      StepEffect s { s with host := hs, reqs := q, rqOp := op, rqY := y, rqX := x, phase := .runInit, seq := 0 }
  /-- FLUSH accepted and dispatched. -/
  | startsFlush (hs : List HostMove) (q : List Request) (op : BitVec 2) (y : BitVec 14) (x : BitVec 16)
      (idle : s.phase = .idle) (free : s.hung = false) (ctrl : s.ctrl = .active) (live : s.fbLive = true) :
      StepEffect s { s with host := hs, reqs := q, rqOp := op, rqY := y, rqX := x, phase := .runFlush, seq := 0 }
  /-- INIT completes. -/
  | endsInit (hs : List HostMove) (free : s.hung = false) (run : s.phase = .runInit)
      (done : s.seq.toNat = (initProg s.cfg).length) : StepEffect s (State.completeInit { s with host := hs })
  /-- FLUSH completes. -/
  | endsFlush (hs : List HostMove) (free : s.hung = false) (run : s.phase = .runFlush)
      (done : s.seq.toNat = (flushProg s.cfg).length) : StepEffect s (State.completeFlush { s with host := hs })
  /-- The primitive at `seq` goes through. -/
  | advances (i : Instr) (hs : List HostMove) (l : Bool) (p : Panel) (b : BusEnv) (d : Nat) (here : AtPrimitive s i)
      (canon : Mem.wf s.panel.ram = true → Mem.wf p.ram = true) :
      StepEffect s { s with
        host := hs, seq := s.seq + 1, trace := s.trace ++ okEvents s.fb i, prst := l, panel := p, bus := b, draws := d }
  /-- Its transaction fails. -/
  | fails (i : Instr) (hs : List HostMove) (p : Panel) (b : BusEnv) (d : Nat) (here : AtPrimitive s i) (tx : txCount i = 1)
      (canon : Mem.wf s.panel.ram = true → Mem.wf p.ram = true) :
      StepEffect s (State.raise
        { s with host := hs, trace := s.trace ++ failEvents s.fb i, panel := p, bus := b, draws := d }
        (if s.phase = .runInit then .configuration else .transfer))
  /-- Its transaction never returns. -/
  | hangs (i : Instr) (hs : List HostMove) (b : BusEnv) (d : Nat) (here : AtPrimitive s i) :
      StepEffect s { s with
        host := hs, hung := true, dc := hangEvents i == [], trace := s.trace ++ hangEvents i, bus := b, draws := d }

theorem hostMove_effect {s : State} {m : HostMove} {r : List HostMove} (hm : s.host = m :: r) (hp : m ≠ .pass) :
    StepEffect s (State.hostMove { s with host := r } m) := by
  cases m with
  | offer w => exact .inputs r (s.reqs ++ [w]) s.cancel (.inr ⟨_, r, hm, hp⟩)
  | cancel l => exact .inputs r s.reqs l (.inr ⟨_, r, hm, hp⟩)
  | reset => exact .reset r hm
  | pass => exact absurd rfl hp

theorem complete_effect {s : State} (hs : List HostMove) (free : s.hung = false) (hp : s.phase ≠ .idle)
    (done : s.seq.toNat = s.prog.length) : StepEffect s (State.complete { s with host := hs }) := by
  rcases running_cases hp with h | h
  · rw [complete_of_runInit (s := { s with host := hs }) h]
    exact .endsInit hs free h (by rwa [prog_of_runInit h] at done)
  · rw [complete_of_runFlush (s := { s with host := hs }) h]
    exact .endsFlush hs free h (by rwa [prog_of_runFlush h] at done)

theorem hostOp_effect {s t : State} {i : Instr} {hs : List HostMove} {q : List Request} (hp : s.phase = .idle)
    (hi : i.isHostOp = true) (h : exec i { s with host := hs, reqs := q } = .next t) : StepEffect s t := by
  obtain ⟨free, rfl | ⟨-, -, op, y, x, ⟨e, m, canon, -, -, -, rfl⟩ | ⟨ctrl, rfl⟩ | ⟨ctrl, live, rfl⟩⟩⟩ := hostOp_next hi h
  · exact .inputs hs q s.cancel (.inl hp)
  · exact .answers hs q op y x m e hp free canon
  · exact .startsInit hs q op y x hp free ctrl
  · exact .startsFlush hs q op y x hp free ctrl live

theorem primitive_effect {s t : State} {i : Instr} {hs : List HostMove} (here : AtPrimitive s i) (hdc : s.dc = true)
    (h : exec i { s with host := hs } = .next t) : StepEffect s t := by
  obtain ⟨-, p, b, d, canon, rfl | ⟨tx, rfl⟩ | ⟨-, rfl⟩⟩ := primitive_next (s := { s with host := hs }) here.isPrimitive hdc h
  · exact .advances i hs _ p b d here canon
  · exact .fails i hs p b d here tx canon
  · exact .hangs i hs b d here

/-- Every step from a state that meets the invariants is one of these. -/
theorem step_effect {s t : State} (hs : Inv s) (h : step s = .next t) : StepEffect s t := by
  obtain ⟨m, r, hm, hp, rfl⟩ | ⟨free, r, ⟨hp, rfl⟩ | ⟨i, q, hp, -, hi, h⟩ | ⟨hp, done, rfl⟩ | ⟨i, hp, -, hg, -, h⟩⟩ :=
    step_next_unbenched hs.bench h
  · exact hostMove_effect hm hp
  · exact .inputs r s.reqs s.cancel (.inl hp)
  · exact hostOp_effect hp hi h
  · exact complete_effect r free hp done
  · exact primitive_effect ⟨free, hp, hg⟩ (hs.dcHigh free) h

/-! ### The events of a primitive -/

theorem dcLevel_append (tr evs : List Event) : dcLevel (tr ++ evs) = evs.foldl Event.levelAfter (dcLevel tr) :=
  List.foldl_append

theorem noFail_append (tr evs : List Event) : noFail (tr ++ evs) = (noFail tr && noFail evs) := List.all_append

theorem noRstLow_append (tr evs : List Event) : noRstLow (tr ++ evs) = (noRstLow tr && noRstLow evs) := List.all_append

/-- A primitive that goes through leaves the line high (R80). -/
theorem okEvents_level {i : Instr} (hi : IsPrimitive i) (fb : Mem) : (okEvents fb i).foldl Event.levelAfter true = true := by
  rcases hi with ⟨c, rfl⟩ | ⟨b, rfl⟩ | ⟨a, n, rfl⟩ | rfl | rfl | rfl <;> rfl

theorem okEvents_noFail {i : Instr} (hi : IsPrimitive i) (fb : Mem) : noFail (okEvents fb i) = true := by
  rcases hi with ⟨c, rfl⟩ | ⟨b, rfl⟩ | ⟨a, n, rfl⟩ | rfl | rfl | rfl <;> rfl

/-- A failed one leaves it high too (R80). -/
theorem failEvents_level {i : Instr} (hi : IsPrimitive i) (fb : Mem) :
    (failEvents fb i).foldl Event.levelAfter true = true := by
  rcases hi with ⟨c, rfl⟩ | ⟨b, rfl⟩ | ⟨a, n, rfl⟩ | rfl | rfl | rfl <;> rfl

/-- One that never returns leaves it low exactly when it is a command byte (R87). -/
theorem hangEvents_level (i : Instr) : (hangEvents i).foldl Event.levelAfter true = (hangEvents i == []) := by
  cases i <;> rfl

theorem hangEvents_noFail (i : Instr) : noFail (hangEvents i) = true := by cases i <;> rfl

theorem hangEvents_noRstLow (i : Instr) : noRstLow (hangEvents i) = true := by cases i <;> rfl

/-! ### Every step keeps the invariants -/

/-- What the invariants say when no operation runs and nothing is outstanding. -/
structure Rested (s : State) : Prop where
  cfgWf : s.cfg.wf = true
  fbWf : Mem.wf s.fb = true
  ramWf : Mem.wf s.panel.ram = true
  dcHigh : s.dc = true
  level : dcLevel s.trace = true
  faults : s.faultLog = false → noFail s.trace = true
  live : s.fbLive = false → s.cfg.singleUse = true
  free : s.hung = false
  bench : s.issue = none

theorem rested_of_inv {s : State} (hs : Inv s) (free : s.hung = false) : Rested s :=
  { hs with free, dcHigh := hs.dcHigh free, level := hs.level ▸ hs.dcHigh free }

theorem inv_of_rested {s : State} (hr : Rested s) (hp : s.phase = .idle) (hq : s.seq = 0)
    (latest : s.err = s.rsps.getLastD .ok) : Inv s :=
  { hr with
    latest
    idleSeq := fun _ => hq
    dcHigh := fun _ => hr.dcHigh
    level := hr.dcHigh.trans hr.level.symm
    flushing := by simp [hp]
    initing := by simp [hp]
    seqBound := by simp [hp]
    hungRuns := by simp [hr.free] }

/-- Presenting a response ends in a state that meets the invariants (R169). -/
theorem inv_respond {s : State} (hr : Rested s) (e : Response) : Inv (s.respond e) :=
  inv_of_rested { hr with } rfl rfl (by simp)

theorem rested_resetWith {cfg : Config} (h : cfg.wf = true) : Rested (State.resetWith cfg) where
  cfgWf := h
  fbWf := resetWith_fb_wf h
  ramWf := rfl
  dcHigh := rfl
  level := rfl
  faults := fun _ => rfl
  live := nofun
  free := rfl
  bench := rfl

theorem inv_blockReset {s : State} (h : s.cfg.wf = true) : Inv s.blockReset :=
  inv_of_rested { rested_resetWith h with ramWf := ofFn_wf _ } rfl rfl rfl

/-- INIT completes: only `ctrl`, the shadow's `p_cfg` and the response change. -/
theorem inv_completeInit {s : State} (hr : Rested s) : Inv s.completeInit :=
  inv_respond (s := { s with ctrl := .active, panel := { s.panel with cfgd := .active } }) { hr with } .ok

/-- FLUSH completes: the buffer is released under SINGLE_USE only. -/
theorem inv_completeFlush {s : State} (hr : Rested s) : Inv s.completeFlush := by
  refine inv_respond (s := { s with fbLive := s.fbLive && !s.cfg.singleUse }) { hr with live := fun h => ?_ } .ok
  cases hl : s.fbLive with
  | false => exact hr.live hl
  | true => simpa [hl] using h

/-- Settles O49: by the ways a step can go; where the step ends an operation only the phase-free part is left to keep. -/
theorem stepKeepsInvariants : Obligations.StepKeepsInvariants := by
  intro s t hs h
  cases step_effect hs h with
  | inputs => exact { hs with }
  | reset r => exact inv_blockReset hs.cfgWf
  | answers _ _ _ _ _ _ _ _ free canon => 
    refine inv_respond ?_ _
    exact { rested_of_inv hs free with fbWf := canon hs.fbWf }
  | startsInit _ _ _ _ _ _ free ctrl =>
    exact { hs with
      idleSeq := nofun
      flushing := nofun
      initing := fun _ => ctrl
      seqBound := fun _ => Nat.zero_le _
      hungRuns := fun _ => nofun }
  | startsFlush _ _ _ _ _ _ free ctrl live =>
    exact { hs with
      idleSeq := nofun
      flushing := fun _ => ⟨ctrl, live⟩
      initing := nofun
      seqBound := fun _ => Nat.zero_le _
      hungRuns := fun _ => nofun }
  | endsInit r free => exact inv_completeInit { rested_of_inv hs free with }
  | endsFlush r free => exact inv_completeFlush { rested_of_inv hs free with }
  | advances i _ _ _ _ _ here canon =>
    have hr := rested_of_inv hs here.free
    exact { hs with
      ramWf := canon hs.ramWf
      idleSeq := fun hp => absurd hp here.running
      level := by rw [dcLevel_append, hr.level, okEvents_level here.isPrimitive, hr.dcHigh]
      faults := fun hf => by rw [noFail_append, hs.faults hf, okEvents_noFail here.isPrimitive, Bool.and_self]
      seqBound := fun _ => (here.seq_succ hs.cfgWf).trans_le here.seq_lt }
  | fails i _ _ _ _ here tx canon =>
    have hr := rested_of_inv hs here.free
    refine inv_respond ?_ _
    exact { hr with
      ramWf := canon hs.ramWf
      level := by rw [dcLevel_append, hr.level, failEvents_level here.isPrimitive]
      faults := nofun }
  | hangs i _ _ _ here =>
    have hr := rested_of_inv hs here.free
    exact { hs with
      dcHigh := nofun
      level := by rw [dcLevel_append, hr.level, hangEvents_level]
      faults := fun hf => by rw [noFail_append, hs.faults hf, hangEvents_noFail, Bool.and_self]
      hungRuns := fun _ => here.running }

/-- Settles O48: the reset state is at rest. -/
theorem invariantsHoldAtReset : Obligations.InvariantsHoldAtReset :=
  have h : ∀ cfg : Config, cfg.wf = true → Inv (State.resetWith cfg) :=
    fun _ hc => inv_of_rested (rested_resetWith hc) rfl rfl rfl
  ⟨h, h Config.defGK (by decide)⟩

/-- Settles O13: read off the reset state. -/
theorem resetValues : Obligations.ResetValues := by
  refine fun cfg => ⟨_, rfl, ?_⟩
  simp only [State.resetWith, Panel.initial, Response.code, true_and]
  exact hardReset_regOf 0

/-- Settles O9: on its turn in `IDLE` the block looks at the request port, and waits. -/
theorem stepWaitsInIdle : Obligations.StepWaitsInIdle := by
  intro s t turn free bench idle wait
  have ht : blockFetch t = .quiet t := by
    rw [blockTurn_eq turn]
    rcases wait with hr | hc
    · simp [blockFetch, requestFetch, free, bench, idle, hr]
    · cases s.reqs with
      | nil => simp [blockFetch, requestFetch, free, bench, idle]
      | cons w rest => simp [blockFetch, requestFetch, free, bench, idle, hc]
  rw [step, fetch_blockTurn turn, ht]

/-! ### `ACTIVE` means initialised -/

/-- A trace with a complete all-`ok` run of `INIT_PROG` and no reset pulse and no failure since. -/
def CompletedRun (cfg : Config) (tr : List Event) : Prop :=
  ∃ pre post, tr = pre ++ initTrace cfg ++ post ∧ noRstLow post = true ∧ noFail post = true

/-- A trace that ends with the first `k` primitives of `INIT_PROG`, all `ok`. -/
def PartialRun (cfg : Config) (k : Nat) (tr : List Event) : Prop :=
  ∃ pre, tr = pre ++ ((initProg cfg).take k).flatMap (okEvents [])

/-- R35 (d) as a statement about these two. -/
theorem activeHistory_iff {s : State} : ActiveHistory s ↔
    (s.ctrl = .active → CompletedRun s.cfg s.trace) ∧
    (s.phase = .runInit → s.hung = false → PartialRun s.cfg s.seq.toNat s.trace) := Iff.rfl

theorem completedRun_append {cfg : Config} {tr evs : List Event} (h : CompletedRun cfg tr) (hr : noRstLow evs = true)
    (hf : noFail evs = true) : CompletedRun cfg (tr ++ evs) := by
  obtain ⟨pre, post, rfl, hr', hf'⟩ := h
  exact ⟨pre, post ++ evs, List.append_assoc .., by rw [noRstLow_append, hr', hr, Bool.and_self],
    by rw [noFail_append, hf', hf, Bool.and_self]⟩

theorem partialRun_zero (cfg : Config) (tr : List Event) : PartialRun cfg 0 tr := ⟨tr, by simp⟩

/-- INIT reads no framebuffer. -/
theorem okEvents_of_mem_initProg {cfg : Config} {i : Instr} (h : i ∈ initProg cfg) (fb : Mem) :
    okEvents fb i = okEvents [] i := by
  cases i with
  | sendBytes a n => simp [initProg, framePrims] at h
  | _ => rfl

theorem partialRun_succ {cfg : Config} {k : Nat} {tr : List Event} {i : Instr} (h : PartialRun cfg k tr)
    (hi : (initProg cfg)[k]? = some i) (fb : Mem) : PartialRun cfg (k + 1) (tr ++ okEvents fb i) := by
  obtain ⟨pre, rfl⟩ := h
  refine ⟨pre, ?_⟩
  rw [okEvents_of_mem_initProg (List.mem_of_getElem? hi), List.take_add_one, hi]
  simp

theorem completedRun_of_partialRun {cfg : Config} {tr : List Event} (h : PartialRun cfg (initProg cfg).length tr) :
    CompletedRun cfg tr := by
  obtain ⟨pre, rfl⟩ := h
  exact ⟨pre, [], by simp [initTrace], rfl, rfl⟩

/-- The only reset pulse is INIT's. -/
theorem rstLow_notMem_flushProg (cfg : Config) : .rstLow ∉ flushProg cfg := by
  simp [flushProg, framePrims, flushChunks]

theorem okEvents_noRstLow {i : Instr} (hi : i ≠ .rstLow) (fb : Mem) : noRstLow (okEvents fb i) = true := by
  cases i with
  | rstLow => exact absurd rfl hi
  | _ => rfl

theorem activeHistory_of_uninit {s : State} (hc : s.ctrl = .uninit) (hp : s.phase = .idle) : ActiveHistory s :=
  ⟨fun h => by simp [hc] at h, fun h => by simp [hp] at h⟩

theorem activeHistory_advances {s : State} {i : Instr} (hs : Inv s) (ha : ActiveHistory s) (here : AtPrimitive s i) :
    (s.ctrl = .active → CompletedRun s.cfg (s.trace ++ okEvents s.fb i)) ∧
    (s.phase = .runInit → PartialRun s.cfg (s.seq + 1).toNat (s.trace ++ okEvents s.fb i)) := by
  obtain ⟨completed, running⟩ := activeHistory_iff.mp ha
  have hi := here.next
  rcases running_cases here.running with hp | hp
  · rw [prog_of_runInit hp] at hi
    refine ⟨fun hc => by simp [hs.initing hp] at hc, fun _ => ?_⟩
    rw [here.seq_succ hs.cfgWf]
    exact partialRun_succ (running hp here.free) hi s.fb
  · rw [prog_of_runFlush hp] at hi
    have hr : i ≠ .rstLow := by
      rintro rfl
      exact rstLow_notMem_flushProg _ (List.mem_of_getElem? hi)
    exact ⟨fun hc => completedRun_append (completed hc) (okEvents_noRstLow hr _) (okEvents_noFail here.isPrimitive _),
      fun h => by simp [hp] at h⟩

/-- Settles O50: a run of INIT lengthens primitive by primitive until it completes, and FLUSH pulses no reset. -/
theorem activeMeansInitialised : Obligations.ActiveMeansInitialised := by
  refine ⟨fun cfg => activeHistory_of_uninit rfl rfl, fun s t hs ha h => ?_⟩
  obtain ⟨completed, running⟩ := activeHistory_iff.mp ha
  cases step_effect hs h with
  | inputs => exact ha
  | reset => exact activeHistory_of_uninit rfl rfl
  | answers => exact ⟨completed, nofun⟩
  | startsInit _ _ _ _ _ _ _ ctrl => exact ⟨fun h => by simp [ctrl] at h, fun _ _ => partialRun_zero s.cfg s.trace⟩
  | startsFlush => exact ⟨completed, nofun⟩
  | endsInit _ free run done => exact ⟨fun _ => completedRun_of_partialRun (done ▸ running run free), nofun⟩
  | endsFlush => exact ⟨completed, nofun⟩
  | advances _ _ _ _ _ _ here =>
    obtain ⟨completed', running'⟩ := activeHistory_advances hs ha here
    exact ⟨completed', fun hp _ => running' hp⟩
  | fails => exact activeHistory_of_uninit rfl rfl
  | hangs i => exact ⟨fun hc => completedRun_append (completed hc) (hangEvents_noRstLow i) (hangEvents_noFail i), nofun⟩

/-! ### The counter, the fault record and the framebuffer while the sequencer runs -/

theorem host_pass_of_blockTurn {s u : State} {m : HostMove} {r : List HostMove} (h : BlockTurn s u) (hm : s.host = m :: r) :
    m = .pass := by
  rcases h with ⟨h, -⟩ | ⟨r', h, -⟩ <;> rw [h] at hm <;> cases hm
  rfl

/-- Settles O47: of the ways a step can go, those open to a running sequence on the block's turn. -/
theorem seqOnlyGoesForward : Obligations.SeqOnlyGoesForward := by
  intro s t u hs run turn h
  cases step_effect hs h with
  | inputs _ _ _ why =>
    rcases why with hp | ⟨m, r, hm, hp⟩
    · exact absurd hp run
    · exact absurd (host_pass_of_blockTurn turn hm) hp
  | reset r hr => cases host_pass_of_blockTurn turn hr
  | answers _ _ _ _ _ _ _ idle => exact absurd idle run
  | startsInit _ _ _ _ _ idle => exact absurd idle run
  | startsFlush _ _ _ _ _ idle => exact absurd idle run
  | endsInit _ free => exact .inr (.inl ⟨rfl, rfl, rfl, free⟩)
  | endsFlush _ free => exact .inr (.inl ⟨rfl, rfl, rfl, free⟩)
  | advances _ _ _ _ _ _ here => exact .inl ⟨here.seq_succ hs.cfgWf, rfl, rfl, here.free⟩
  | fails _ _ _ _ _ here => exact .inr (.inl ⟨rfl, rfl, rfl, here.free⟩)
  | hangs => exact .inr (.inr ⟨rfl, rfl, rfl, rfl⟩)

/-- The fault record of a step that takes no fatal error. -/
theorem faultRecord_of_same {s t : State} (hf : t.faultLog = s.faultLog) (he : t.errSeq = s.errSeq) :
    (s.faultLog = true → t.faultLog = true) ∧
    (s.faultLog = false → t.faultLog = true → t.err = .configuration ∨ t.err = .transfer) ∧
    (t.errSeq ≠ s.errSeq → t.errSeq = s.seq ∧ t.faultLog = true ∧ (t.err = .configuration ∨ t.err = .transfer)) :=
  ⟨fun h => hf.trans h, fun h h' => by simp [hf, h] at h', fun h => absurd he h⟩

/-- Settles O57: only a failed transaction writes the fault record. -/
theorem faultRecords : Obligations.FaultRecords := by
  intro s t hs noReset h
  cases step_effect hs h with
  | reset r hr => exact absurd hr (noReset r)
  | fails =>
    have fatal := ite_eq_or_eq (s.phase = .runInit) Response.configuration .transfer
    exact ⟨fun _ => rfl, fun _ _ => fatal, fun _ => ⟨rfl, rfl, fatal⟩⟩
  | _ => exact faultRecord_of_same rfl rfl

/-- A running sequence leaves the framebuffer alone (R20). -/
theorem step_fb_of_running {s t : State} (hs : Inv s) (run : s.phase ≠ .idle) (noReset : ∀ r, s.host ≠ .reset :: r)
    (h : step s = .next t) : t.fb = s.fb := by
  cases step_effect hs h with
  | reset r hr => exact absurd hr (noReset r)
  | answers _ _ _ _ _ _ _ idle => exact absurd idle run
  | _ => rfl

/-! ### What an instruction leaves of the framebuffer -/

/-- `t` has the framebuffer of `s`, as live as it was. -/
def SameBuffer (s t : State) : Prop := t.fb = s.fb ∧ t.fbLive = s.fbLive

theorem SameBuffer.trans {s t u : State} (h : SameBuffer s t) (h' : SameBuffer t u) : SameBuffer s u :=
  ⟨h'.1.trans h.1, h'.2.trans h.2⟩

theorem busWrite_sameBuffer (s : State) (bs : List Byte) : SameBuffer s (s.busWrite bs).state := by
  unfold State.busWrite
  cases s.answer <;> exact ⟨rfl, rfl⟩

theorem restoreDc_sameBuffer (d : BusDone) : SameBuffer d.state d.restoreDc.state := by
  cases d <;> exact ⟨rfl, rfl⟩

theorem finish_sameBuffer (d : BusDone) : SameBuffer d.state d.finish.state := by
  cases d with
  | ok s => exact ⟨rfl, rfl⟩
  | failed s => rw [BusDone.finish, busFail_eq]; exact ⟨rfl, rfl⟩
  | hung s => exact ⟨rfl, rfl⟩

theorem sendCommand_sameBuffer (s : State) (c : Byte) : SameBuffer s (s.sendCommand c).state :=
  (busWrite_sameBuffer (s.driveDc false) [c]).trans ((restoreDc_sameBuffer _).trans (finish_sameBuffer _))

theorem sendData_sameBuffer (s : State) (b : Byte) : SameBuffer s (s.sendData b).state :=
  (busWrite_sameBuffer s [b]).trans (finish_sameBuffer _)

theorem sendBytes_sameBuffer (s : State) (a n : Nat) : SameBuffer s (s.sendBytes a n).state :=
  (busWrite_sameBuffer s _).trans (finish_sameBuffer _)

theorem sendFrame_sameBuffer {s : State} (free : s.hung = false) (c : Command) (args : List Byte) :
    SameBuffer s (s.sendFrame c args).state :=
  sendFrame_induct (P := SameBuffer s) (fun t b h _ => h.trans (sendCommand_sameBuffer t b))
    (fun t b h _ => h.trans (sendData_sameBuffer t b)) s c args ⟨rfl, rfl⟩ free

theorem dispatch_sameBuffer (s : State) (e : Option Response) (p : Phase) : SameBuffer s (s.dispatch e p) := by
  cases e <;> exact ⟨rfl, rfl⟩

/-- An instruction of level T or C reads the framebuffer at most. -/
theorem exec_wire_sameBuffer {s t : State} {i : Instr} (hi : i.isHostOp = false) (h : exec i s = .next t) :
    SameBuffer s t := by
  rcases instr_cases i with h' | ⟨c, rfl⟩ | ⟨b, rfl⟩ | ⟨a, n, rfl⟩ | rfl | rfl | rfl | ⟨c, args, rfl⟩
  · simp [hi] at h'
  · obtain ⟨-, h⟩ := whenFree_next.mp (show execSendCommand c s = .next t from h)
    cases h
    exact sendCommand_sameBuffer s c
  · obtain ⟨-, h⟩ := whenFree_next.mp (show execSendData b s = .next t from h)
    cases h
    exact sendData_sameBuffer s b
  · obtain ⟨-, -, -, -, rfl⟩ := sendBytes_next h
    exact sendBytes_sameBuffer s a n
  · obtain ⟨-, h⟩ := whenFree_next.mp (show execRstLow s = .next t from h)
    cases h
    exact ⟨rfl, rfl⟩
  · obtain ⟨-, h⟩ := whenFree_next.mp (show execRstHigh s = .next t from h)
    cases h
    exact ⟨rfl, rfl⟩
  · obtain ⟨-, h⟩ := whenFree_next.mp (show execWait s = .next t from h)
    cases h
    exact ⟨rfl, rfl⟩
  · rw [exec_ofCommand] at h
    obtain ⟨free, h⟩ := whenFree_next.mp (show execFrame c args s = .next t from h)
    cases h
    exact sendFrame_sameBuffer free c args

/-- INIT and FLUSH are dispatched and write nothing. -/
theorem request_dispatch_sameBuffer {s t : State} {op : BitVec 2} {y : BitVec 14} {x : BitVec 16}
    {error : State → Option Response} {p : Phase}
    (h : s.request op y x (fun u => u.dispatch (error u) p) = .next t) : SameBuffer s t := by
  obtain ⟨-, ⟨-, -, rfl⟩ | ⟨-, rfl⟩⟩ := request_next h
  · exact dispatch_sameBuffer (s.latch op y x) _ p
  · exact ⟨rfl, rfl⟩

theorem exec_fb {s t : State} {i : Instr} (hpix : ∀ x y, i ≠ .setpix x y) (hfill : ∀ low, i ≠ .fill low)
    (h : exec i s = .next t) : t.fb = s.fb := by
  cases hi : i.isHostOp with
  | false => exact (exec_wire_sameBuffer hi h).1
  | true =>
    cases i with
    | init low => exact (request_dispatch_sameBuffer h).1
    | setpix x y => exact absurd rfl (hpix x y)
    | fill low => exact absurd rfl (hfill low)
    | flush low => exact (request_dispatch_sameBuffer h).1
    | _ => cases hi

/-- Settles O54: SETPIX and FILL apart, instructions only read the framebuffer; and a running sequence accepts neither. -/
theorem onlySetpixAndFillWriteTheBuffer : Obligations.OnlySetpixAndFillWriteTheBuffer :=
  ⟨fun _ _ _ => exec_fb, fun _ _ => step_fb_of_running⟩

/-! ### Release -/

/-- No instruction releases the buffer: FLUSH does so when it completes. -/
theorem exec_fbLive {s t : State} {i : Instr} (h : exec i s = .next t) : t.fbLive = s.fbLive := by
  cases hi : i.isHostOp with
  | false => exact (exec_wire_sameBuffer hi h).2
  | true =>
    obtain ⟨-, rfl | ⟨-, -, op, y, x, ⟨e, m, -, -, -, -, rfl⟩ | ⟨-, rfl⟩ | ⟨-, -, rfl⟩⟩⟩ := hostOp_next hi h <;> rfl

/-- Every step leaves the buffer's liveness alone but block reset, and a FLUSH that completes under SINGLE_USE. -/
theorem step_fbLive {s t : State} (h : step s = .next t) :
    t.fbLive = s.fbLive ∨ (t.fbLive = true ∧ ∃ r, s.host = .reset :: r) ∨
    (t.fbLive = (s.fbLive && !s.cfg.singleUse) ∧ s.phase = .runFlush ∧ s.seq.toNat = (flushProg s.cfg).length) := by
  obtain ⟨m, r, hm, hp, rfl⟩ | ⟨u, turn, -, h⟩ := step_next h
  · cases m with
    | reset => exact .inr (.inl ⟨rfl, r, hm⟩)
    | _ => exact .inl rfl
  · have e := blockTurn_eq turn
    generalize u.host = r at e
    subst e
    obtain ⟨i, -, h⟩ | ⟨-, -, -, rfl⟩ | ⟨w, q, -, -, -, -, h⟩ | ⟨-, run, done, rfl⟩ | ⟨i, -, -, -, -, h⟩ := h
    · exact .inl ((exec_fbLive h).trans rfl)
    · exact .inl rfl
    · exact .inl ((exec_fbLive h).trans rfl)
    · rcases running_cases run with hp | hp
      · rw [complete_of_runInit hp]
        exact .inl rfl
      · rw [prog_of_runFlush hp] at done
        rw [complete_of_runFlush hp]
        exact .inr (.inr ⟨rfl, hp, done⟩)
    · exact .inl ((exec_fbLive h).trans rfl)

/-- Settles O59: by what a step can do to `fb_live`. -/
theorem releaseOnlyByFlush : Obligations.ReleaseOnlyByFlush := by
  intro s t h
  rcases step_fbLive h with e | ⟨e, hr⟩ | ⟨e, hp, done⟩
  · exact ⟨fun h h' => by simp [e, h] at h', fun h h' => by simp [e, h] at h'⟩
  · exact ⟨fun _ h' => by simp [e] at h', fun _ _ => hr⟩
  · exact ⟨fun h h' => ⟨hp, by simpa [h, h'] using e, done⟩, fun h h' => by simp [e, h] at h'⟩

end Sys2Proof.Proofs
end

section
/-! PROOFS. The block never reads the panel shadow (`10_state.md` R33): two states that differ in the shadow alone go on to
differ in it alone, through every named operation, every instruction and the step. -/

namespace Sys2Proof.Proofs

open Sys2Proof.Machine Sys2Proof.Machine.Laws

/-- `s'` is `s` but for the shadow. -/
def SameBlock (s s' : State) : Prop := ∃ p, s' = { s with panel := p }

section
variable {s s' : State} (h : SameBlock s s')
include h

/-! ### What the block looks at is the same -/

theorem SameBlock.cfg_eq : s'.cfg = s.cfg := by obtain ⟨p, rfl⟩ := h; rfl
theorem SameBlock.fb_eq : s'.fb = s.fb := by obtain ⟨p, rfl⟩ := h; rfl
theorem SameBlock.phase_eq : s'.phase = s.phase := by obtain ⟨p, rfl⟩ := h; rfl
theorem SameBlock.seq_eq : s'.seq = s.seq := by obtain ⟨p, rfl⟩ := h; rfl
theorem SameBlock.prog_eq : s'.prog = s.prog := by obtain ⟨p, rfl⟩ := h; rfl
theorem SameBlock.hung_eq : s'.hung = s.hung := by obtain ⟨p, rfl⟩ := h; rfl
theorem SameBlock.cancel_eq : s'.cancel = s.cancel := by obtain ⟨p, rfl⟩ := h; rfl
theorem SameBlock.reqs_eq : s'.reqs = s.reqs := by obtain ⟨p, rfl⟩ := h; rfl
theorem SameBlock.reqReady_eq : s'.reqReady = s.reqReady := by obtain ⟨p, rfl⟩ := h; rfl
theorem SameBlock.host_eq : s'.host = s.host := by obtain ⟨p, rfl⟩ := h; rfl
theorem SameBlock.issue_eq : s'.issue = s.issue := by obtain ⟨p, rfl⟩ := h; rfl
theorem SameBlock.answer_eq : s'.answer = s.answer := by obtain ⟨p, rfl⟩ := h; rfl

end

/-! ### Transactions -/

/-- Two primitives that went the same way, from and to the same block. -/
inductive SameDone : BusDone → BusDone → Prop
  | ok {s s' : State} (h : SameBlock s s') : SameDone (.ok s) (.ok s')
  | failed {s s' : State} (h : SameBlock s s') : SameDone (.failed s) (.failed s')
  | hung {s s' : State} (h : SameBlock s s') : SameDone (.hung s) (.hung s')

theorem SameDone.state {d d' : BusDone} (h : SameDone d d') : SameBlock d.state d'.state := by
  cases h with
  | ok h => exact h
  | failed h => exact h
  | hung h => exact h

theorem SameBlock.emit {s s' : State} (h : SameBlock s s') (ev : Event) : SameBlock (s.emit ev) (s'.emit ev) := by
  obtain ⟨p, rfl⟩ := h
  exact ⟨_, rfl⟩

theorem SameBlock.driveDc {s s' : State} (h : SameBlock s s') (l : Bool) : SameBlock (s.driveDc l) (s'.driveDc l) := by
  obtain ⟨p, rfl⟩ := h
  exact ⟨_, rfl⟩

theorem SameBlock.driveRst {s s' : State} (h : SameBlock s s') (l : Bool) : SameBlock (s.driveRst l) (s'.driveRst l) := by
  obtain ⟨p, rfl⟩ := h
  exact ⟨_, rfl⟩

theorem SameBlock.advance {s s' : State} (h : SameBlock s s') : SameBlock s.advance s'.advance := by
  obtain ⟨p, rfl⟩ := h
  exact ⟨_, rfl⟩

theorem SameBlock.respond {s s' : State} (h : SameBlock s s') (e : Response) : SameBlock (s.respond e) (s'.respond e) := by
  obtain ⟨p, rfl⟩ := h
  exact ⟨_, rfl⟩

theorem SameBlock.busFail {s s' : State} (h : SameBlock s s') : SameBlock s.busFail s'.busFail := by
  obtain ⟨p, rfl⟩ := h
  rw [busFail_eq, busFail_eq]
  exact ⟨_, rfl⟩

theorem SameBlock.busWrite {s s' : State} (h : SameBlock s s') (bs : List Byte) :
    SameDone (s.busWrite bs) (s'.busWrite bs) := by
  unfold State.busWrite
  rw [h.answer_eq]
  obtain ⟨p, rfl⟩ := h
  cases s.answer with
  | ok => exact .ok ⟨_, rfl⟩
  | fail => exact .failed ⟨_, rfl⟩
  | hang => exact .hung ⟨_, rfl⟩

theorem SameDone.restoreDc {d d' : BusDone} (h : SameDone d d') : SameDone d.restoreDc d'.restoreDc := by
  cases h with
  | ok h => exact .ok (h.driveDc true)
  | failed h => exact .failed (h.driveDc true)
  | hung h => exact .hung h

theorem SameDone.finish {d d' : BusDone} (h : SameDone d d') : SameDone d.finish d'.finish := by
  cases h with
  | ok h => exact .ok h.advance
  | failed h => exact .failed h.busFail
  | hung h => exact .hung h

theorem SameBlock.sendCommand {s s' : State} (h : SameBlock s s') (c : Byte) :
    SameDone (s.sendCommand c) (s'.sendCommand c) :=
  ((h.driveDc false).busWrite [c]).restoreDc.finish

theorem SameBlock.sendData {s s' : State} (h : SameBlock s s') (b : Byte) : SameDone (s.sendData b) (s'.sendData b) :=
  (h.busWrite [b]).finish

theorem SameBlock.sendBytes {s s' : State} (h : SameBlock s s') (a n : Nat) :
    SameDone (s.sendBytes a n) (s'.sendBytes a n) := by
  unfold State.sendBytes
  rw [h.fb_eq]
  exact (h.busWrite _).finish

theorem SameBlock.sendArgs (bs : List Byte) :
    ∀ {s s' : State}, SameBlock s s' → SameDone (s.sendArgs bs) (s'.sendArgs bs) := by
  induction bs with
  | nil =>
    intro s s' h
    rw [sendArgs_nil, sendArgs_nil]
    exact .ok h
  | cons b bs ih =>
    intro s s' h
    rw [sendArgs_cons, sendArgs_cons]
    have hd := h.sendData b
    generalize s.sendData b = d, s'.sendData b = d' at hd ⊢
    cases hd with
    | ok h => exact ih h
    | failed h => exact .failed h
    | hung h => exact .hung h

theorem SameBlock.sendFrame {s s' : State} (h : SameBlock s s') (c : Command) (args : List Byte) :
    SameDone (s.sendFrame c args) (s'.sendFrame c args) := by
  unfold State.sendFrame
  rw [h.cfg_eq]
  have hc := h.sendCommand (s.cfg.opc c)
  generalize s.sendCommand (s.cfg.opc c) = d, s'.sendCommand (s.cfg.opc c) = d' at hc ⊢
  cases hc with
  | ok h => exact h.sendArgs args
  | failed h => exact .failed h
  | hung h => exact .hung h

/-! ### Instructions -/

/-- The same outcome but for the shadow. -/
def SameOutcome (o o' : Host.Outcome State Fault Refusal) : Prop :=
  ∀ p, onNext (fun t => { t with panel := p }) o' = onNext (fun t => { t with panel := p }) o

theorem SameBlock.next {s s' : State} (h : SameBlock s s') : SameOutcome (.next s) (.next s') := by
  obtain ⟨p, rfl⟩ := h
  exact fun _ => rfl

theorem SameBlock.whenFree {s s' : State} (h : SameBlock s s') {o o' : Host.Outcome State Fault Refusal}
    (ho : SameOutcome o o') : SameOutcome (s.whenFree o) (s'.whenFree o') := by
  unfold State.whenFree
  rw [h.hung_eq]
  cases s.hung with
  | false => exact ho
  | true => exact fun _ => rfl

theorem SameBlock.dispatch {s s' : State} (h : SameBlock s s') (e : Option Response) (ph : Phase) :
    SameBlock (s.dispatch e ph) (s'.dispatch e ph) := by
  cases e with
  | some e => exact h.respond e
  | none =>
    obtain ⟨p, rfl⟩ := h
    exact ⟨_, rfl⟩

theorem SameBlock.settle {s s' : State} (h : SameBlock s s') (e : Option Response) {f f' : State → State}
    (hf : SameBlock (f s) (f' s')) : SameBlock (s.settle e f) (s'.settle e f') := by
  cases e with
  | some e => exact h.respond e
  | none => exact hf.respond .ok

theorem SameBlock.request {s s' : State} (h : SameBlock s s') (op : BitVec 2) (y : BitVec 14) (x : BitVec 16)
    {run : State → State} (hr : ∀ (u : State) (p : Panel), SameBlock (run u) (run { u with panel := p })) :
    SameOutcome (s.request op y x run) (s'.request op y x run) := by
  refine h.whenFree ?_
  rw [h.reqReady_eq]
  obtain ⟨p, rfl⟩ := h
  cases s.reqReady with
  | false => exact SameBlock.next ⟨p, rfl⟩
  | true => exact (hr (s.latch op y x) p).next

theorem SameBlock.execSendBytes {s s' : State} (h : SameBlock s s') (a n : Nat) :
    SameOutcome (execSendBytes a n s) (execSendBytes a n s') := by
  refine h.whenFree ?_
  rw [h.cfg_eq]
  split
  · exact fun _ => rfl
  · cases chunkLengthOk s.cfg n with
    | false => exact fun _ => rfl
    | true => exact (h.sendBytes a n).state.next

/-- No instruction reads the shadow. -/
theorem SameBlock.exec {s s' : State} (h : SameBlock s s') (i : Instr) : SameOutcome (exec i s) (exec i s') := by
  rcases instr_cases i with hi | ⟨c, rfl⟩ | ⟨b, rfl⟩ | ⟨a, n, rfl⟩ | rfl | rfl | rfl | ⟨c, args, rfl⟩
  · cases i with
    | init low =>
      simp only [Machine.exec, execInit]
      refine h.request _ _ _ (fun u p => ?_)
      exact SameBlock.dispatch (s := u) ⟨p, rfl⟩ (initError u) .runInit
    | setpix x y =>
      simp only [Machine.exec, execSetpix]
      refine h.request _ _ _ (fun u p => ?_)
      exact SameBlock.settle (s := u) ⟨p, rfl⟩ (setpixError u) ⟨p, rfl⟩
    | fill low =>
      simp only [Machine.exec, execFill]
      refine h.request _ _ _ (fun u p => ?_)
      exact SameBlock.settle (s := u) ⟨p, rfl⟩ (fillError u) ⟨p, rfl⟩
    | flush low =>
      simp only [Machine.exec, execFlush]
      refine h.request _ _ _ (fun u p => ?_)
      exact SameBlock.dispatch (s := u) ⟨p, rfl⟩ (flushError u) .runFlush
    | _ => cases hi
  · exact h.whenFree (h.sendCommand c).state.next
  · exact h.whenFree (h.sendData b).state.next
  · exact h.execSendBytes a n
  · exact h.whenFree (h.driveRst false).advance.next
  · exact h.whenFree (h.driveRst true).advance.next
  · exact h.whenFree (h.emit (.wait holdMs)).advance.next
  · rw [exec_ofCommand, exec_ofCommand]
    exact h.whenFree (h.sendFrame c args).state.next

/-! ### The step -/

/-- The same thing fetched, to be done from the same block. -/
inductive SameFetched : Fetched → Fetched → Prop
  | instr (i : Instr) {s s' : State} (h : SameBlock s s') : SameFetched (.instr i s) (.instr i s')
  | quiet {s s' : State} (h : SameBlock s s') : SameFetched (.quiet s) (.quiet s')
  | stuck (f : Fault) : SameFetched (.stuck f) (.stuck f)

theorem SameBlock.complete {s s' : State} (h : SameBlock s s') : SameBlock s.complete s'.complete := by
  unfold State.complete
  rw [h.phase_eq]
  cases s.phase with
  | idle => exact h
  | runInit => obtain ⟨p, rfl⟩ := h; exact ⟨_, rfl⟩
  | runFlush => obtain ⟨p, rfl⟩ := h; exact ⟨_, rfl⟩

theorem SameBlock.hostMove {s s' : State} (h : SameBlock s s') (m : HostMove) :
    SameBlock (s.hostMove m) (s'.hostMove m) := by
  obtain ⟨p, rfl⟩ := h
  cases m <;> exact ⟨_, rfl⟩

theorem SameBlock.withHost {s s' : State} (h : SameBlock s s') (r : List HostMove) :
    SameBlock { s with host := r } { s' with host := r } := by
  obtain ⟨p, rfl⟩ := h
  exact ⟨p, rfl⟩

theorem SameBlock.sequencerFetch {s s' : State} (h : SameBlock s s') :
    SameFetched (sequencerFetch s) (sequencerFetch s') := by
  unfold Machine.sequencerFetch
  rw [h.seq_eq, h.prog_eq]
  split
  · exact .quiet h.complete
  · cases s.prog[s.seq.toNat]? with
    | none => exact .stuck _
    | some i => exact .instr i h

theorem SameBlock.requestFetch {s s' : State} (h : SameBlock s s') : SameFetched (requestFetch s) (requestFetch s') := by
  unfold Machine.requestFetch
  rw [h.reqs_eq, h.cancel_eq]
  cases s.reqs with
  | nil => exact .quiet h
  | cons w r =>
    cases s.cancel with
    | true => exact .quiet h
    | false => obtain ⟨p, rfl⟩ := h; exact .instr _ ⟨p, rfl⟩

theorem SameBlock.blockFetch {s s' : State} (h : SameBlock s s') : SameFetched (blockFetch s) (blockFetch s') := by
  unfold Machine.blockFetch
  rw [h.hung_eq, h.issue_eq, h.phase_eq]
  split
  · exact .stuck _
  · cases s.issue with
    | some i => obtain ⟨p, rfl⟩ := h; exact .instr i ⟨p, rfl⟩
    | none =>
      dsimp only
      split
      · exact h.requestFetch
      · exact h.sequencerFetch

theorem SameBlock.fetch {s s' : State} (h : SameBlock s s') : SameFetched (fetch s) (fetch s') := by
  unfold Machine.fetch
  rw [h.host_eq]
  rcases s.host with _ | ⟨m, r⟩
  · exact h.blockFetch
  · cases m with
    | pass => exact (h.withHost r).blockFetch
    | offer w => exact .quiet ((h.withHost r).hostMove (.offer w))
    | cancel l => exact .quiet ((h.withHost r).hostMove (.cancel l))
    | reset => exact .quiet ((h.withHost r).hostMove .reset)

theorem SameBlock.step {s s' : State} (h : SameBlock s s') : SameOutcome (step s) (step s') := by
  unfold Machine.step
  have hf := h.fetch
  generalize Machine.fetch s = f, Machine.fetch s' = f' at hf ⊢
  cases hf with
  | instr i h => exact h.exec i
  | quiet h => exact h.next
  | stuck f => exact fun _ => rfl

/-- Settles O41: another shadow leaves the block the same, and so everything it does. -/
theorem shadowIsNeverRead : Obligations.ShadowIsNeverRead :=
  fun s p => ⟨fun i => SameBlock.exec (s := s) ⟨p, rfl⟩ i p, SameBlock.step (s := s) ⟨p, rfl⟩ p⟩

end Sys2Proof.Proofs
end

section
/-! PROOFS. Memory (`20_memory.md`): the framebuffer's index formula (R41); the panel's display RAM and its write pointer
(R50); how the parser loses synchronisation, for good and with nothing left to rely on (R48, R49); and that the
configuration is constant (R53). -/

namespace Sys2Proof.Proofs

open Sys2Proof.Machine Sys2Proof.Machine.Laws

/-! ### The byte of a pixel (R41) -/

theorem pixelIndex_eq (x y : Nat) : pixelIndex x y = y * 128 + x / 2 := by rw [pixelIndex, stride]

theorem pixelIndex_lt {x y : Nat} (hx : x < 256) (hy : y < 64) : pixelIndex x y < 8192 := by
  rw [pixelIndex_eq]
  omega

/-- Every framebuffer address is some pixel's: that of the even column. -/
theorem pixelIndex_surjective {a : Nat} (ha : a < 8192) : ∃ x y, x < 256 ∧ y < 64 ∧ pixelIndex x y = a := by
  refine ⟨2 * (a % 128), a / 128, by omega, by omega, ?_⟩
  rw [pixelIndex_eq]
  omega

theorem pixelIndex_eq_iff {x y x' y' : Nat} (hx : x < 256) (hx' : x' < 256) :
    pixelIndex x y = pixelIndex x' y' ↔ y = y' ∧ x / 2 = x' / 2 := by
  rw [pixelIndex_eq, pixelIndex_eq]
  omega

/-- Settles O14: `x div 2` is the place within a row's 128 bytes. -/
theorem oneIndexFormula : Obligations.OneIndexFormula :=
  ⟨fun x y hx hy => ⟨pixelIndex_eq x y, pixelIndex_lt hx hy⟩, fun _ => pixelIndex_surjective,
    fun _ _ _ _ hx _ hx' _ => pixelIndex_eq_iff hx hx', rfl, rfl⟩

/-! ### The write pointer (R50) -/

theorem toNat_succ_of_lt {a b : Byte} (h : a.toNat < b.toNat) : (a + 1).toNat = a.toNat + 1 := by bv_omega

theorem advance_nextColumn {p : Panel} (h : p.cc.toNat < p.ce.toNat) :
    p.advance.cc.toNat = p.cc.toNat + 1 ∧ p.advance.rc = p.rc := by
  rw [Panel.advance, if_neg (by omega)]
  exact ⟨toNat_succ_of_lt h, rfl⟩

theorem advance_nextRow {p : Panel} (hc : p.ce.toNat ≤ p.cc.toNat) (hr : p.rc.toNat < p.re.toNat) :
    p.advance.cc = p.cs ∧ p.advance.rc.toNat = p.rc.toNat + 1 := by
  rw [Panel.advance, if_pos (by omega), if_neg (by omega)]
  exact ⟨rfl, toNat_succ_of_lt hr⟩

theorem advance_firstCell {p : Panel} (hc : p.ce.toNat ≤ p.cc.toNat) (hr : p.re.toNat ≤ p.rc.toNat) :
    p.advance.cc = p.cs ∧ p.advance.rc = p.rs := by
  rw [Panel.advance, if_pos (by omega), if_pos (by omega)]
  exact ⟨rfl, rfl⟩

/-! ### One display-RAM byte -/

/-- The cells after a display-RAM byte, the pointer being inside them. -/
theorem ramByte_cell {p : Panel} (hw : Mem.wf p.ram = true) (hc : p.cc.toNat < 128) (hr : p.rc.toNat < 64) (b : Byte)
    {c r : Nat} (hc' : c < 128) :
    (p.ramByte b).cell c r = if c = p.cc.toNat ∧ r = p.rc.toNat then b else p.cell c r := by
  rw [Panel.ramByte, Panel.cell, advance_ram]
  exact setCell_cell hw hc hr b hc'

theorem ramByte_nextColumn {p : Panel} (b : Byte) (h : p.cc.toNat < p.ce.toNat) :
    (p.ramByte b).cc.toNat = p.cc.toNat + 1 ∧ (p.ramByte b).rc = p.rc := by
  simpa [Panel.ramByte] using advance_nextColumn (p := p.setCell p.cc.toNat p.rc.toNat b) (by simpa using h)

theorem ramByte_nextRow {p : Panel} (b : Byte) (hc : p.ce.toNat ≤ p.cc.toNat) (hr : p.rc.toNat < p.re.toNat) :
    (p.ramByte b).cc = p.cs ∧ (p.ramByte b).rc.toNat = p.rc.toNat + 1 := by
  simpa [Panel.ramByte] using advance_nextRow (p := p.setCell p.cc.toNat p.rc.toNat b) (by simpa using hc) (by simpa using hr)

theorem ramByte_firstCell {p : Panel} (b : Byte) (hc : p.ce.toNat ≤ p.cc.toNat) (hr : p.re.toNat ≤ p.rc.toNat) :
    (p.ramByte b).cc = p.cs ∧ (p.ramByte b).rc = p.rs := by
  simpa [Panel.ramByte] using advance_firstCell (p := p.setCell p.cc.toNat p.rc.toNat b) (by simpa using hc) (by simpa using hr)

/-- Settles O37: the cell written, the cells left alone, and the three ways the pointer moves. -/
theorem ramByteAndPointer : Obligations.RamByteAndPointer := by
  intro p b hw hc hr
  refine ⟨?_, fun c r hc' _ hne => ?_, ramByte_nextColumn b, ramByte_nextRow b, ramByte_firstCell b⟩
  · rw [ramByte_cell hw hc hr b hc, if_pos ⟨rfl, rfl⟩]
  · rw [ramByte_cell hw hc hr b hc', if_neg hne]

/-! ### A stream of display-RAM bytes -/

theorem ramByte_ram_wf {p : Panel} (h : Mem.wf p.ram = true) (b : Byte) : Mem.wf (p.ramByte b).ram = true := by
  rw [Panel.ramByte, advance_ram]
  exact setCell_ram_wf h _ _ b

/-- The window of R47. -/
structure FullWindow (p : Panel) : Prop where
  cs : p.cs = 0
  ce : p.ce = 127
  rs : p.rs = 0
  re : p.re = 63

theorem FullWindow.ramByte {p : Panel} (h : FullWindow p) (b : Byte) : FullWindow (p.ramByte b) where
  cs := by simpa [Panel.ramByte] using h.cs
  ce := by simpa [Panel.ramByte] using h.ce
  rs := by simpa [Panel.ramByte] using h.rs
  re := by simpa [Panel.ramByte] using h.re

/-- In the full window the pointer stands where byte `k` of a stream goes. -/
def PointerAt (k : Nat) (p : Panel) : Prop := p.cc.toNat = k % 128 ∧ p.rc.toNat = k / 128 % 64

theorem PointerAt.ramByte {k : Nat} {p : Panel} (h : PointerAt k p) (win : FullWindow p) (b : Byte) :
    PointerAt (k + 1) (p.ramByte b) := by
  obtain ⟨hc, hr⟩ := h
  have he : p.ce.toNat = 127 := by rw [win.ce]; rfl
  have hre : p.re.toNat = 63 := by rw [win.re]; rfl
  have hcs : p.cs.toNat = 0 := by rw [win.cs]; rfl
  have hrs : p.rs.toNat = 0 := by rw [win.rs]; rfl
  unfold PointerAt
  by_cases col : p.cc.toNat < p.ce.toNat
  · obtain ⟨ec, er⟩ := ramByte_nextColumn b col
    rw [ec, er]
    omega
  · by_cases row : p.rc.toNat < p.re.toNat
    · obtain ⟨ec, er⟩ := ramByte_nextRow b (by omega) row
      rw [ec, er]
      omega
    · obtain ⟨ec, er⟩ := ramByte_firstCell b (p := p) (by omega) (by omega)
      rw [ec, er]
      omega

/-- The bytes `bs` of a stream are in the cells, row by row from the window's start, and the pointer stands where the
next one goes. -/
structure Filled (bs : List Byte) (p : Panel) : Prop where
  ramWf : Mem.wf p.ram = true
  window : FullWindow p
  pointer : PointerAt bs.length p
  cells : ∀ k, k < bs.length → bs[k]? = some (p.cell (k % 128) (k / 128))

/-- One byte more, while the window is not full. -/
theorem Filled.snoc {bs : List Byte} {p : Panel} (h : Filled bs p) (hl : bs.length < 8192) (b : Byte) :
    Filled (bs ++ [b]) (p.ramByte b) where
  ramWf := ramByte_ram_wf h.ramWf b
  window := h.window.ramByte b
  pointer := by simpa using h.pointer.ramByte h.window b
  cells k hk := by
    obtain ⟨hc, hr⟩ := h.pointer
    rw [ramByte_cell h.ramWf (by omega) (by omega) b (Nat.mod_lt k (by decide)), hc, hr]
    rw [List.length_append, List.length_singleton] at hk
    by_cases last : k = bs.length
    · subst last
      rw [if_pos (by omega)]
      simp
    · rw [if_neg (by omega), List.getElem?_append_left (by omega)]
      exact h.cells k (by omega)

theorem filled_foldl {p : Panel} (h : Filled [] p) (bs : List Byte) (hl : bs.length ≤ 8192) :
    Filled bs (bs.foldl (fun p b => p.ramByte b) p) := by
  induction bs using List.reverseRecOn with
  | nil => exact h
  | append_singleton bs b ih =>
    rw [List.length_append, List.length_singleton] at hl
    rw [List.foldl_append]
    exact (ih (by omega)).snoc (by omega) b

/-- Settles O38: byte by byte the window fills, and after 8192 the pointer has wrapped in both directions. -/
theorem streamFillsTheWindow : Obligations.StreamFillsTheWindow := by
  intro cfg n p bs hw hp hs hcs hce hrs hre hcc hrc hl
  obtain ⟨pend, stream, sync, -⟩ := deliver_stream cfg n bs p hp hs
  refine ⟨_, rfl, sync, stream, pend, fun insync => ?_⟩
  have start : Filled [] p := ⟨hw, ⟨hcs, hce, hrs, hre⟩, by simp [PointerAt, hcc, hrc], by simp⟩
  rw [deliver_stream_sync cfg n bs p hp hs insync]
  obtain ⟨-, -, ⟨hc, hr⟩, cells⟩ := filled_foldl start bs hl.le
  rw [hl] at hc hr cells
  exact ⟨cells, BitVec.eq_of_toNat_eq hc, BitVec.eq_of_toNat_eq hr⟩

/-! ### Keeping synchronisation (R49) -/

theorem command?_eq_none {cfg : Config} {b : Byte} (h : ∀ c, cfg.opc c ≠ b) : cfg.command? b = none := by
  rw [Config.command?, List.find?_eq_none]
  intro c _
  simpa using h c

/-- In sync after a command byte: in sync before it, nothing owed, and the byte some command's opcode. -/
theorem commandByte_sync (cfg : Config) (b : Byte) (p : Panel) :
    (p.commandByte cfg b).sync = (p.sync && p.pend.isNone && (cfg.command? b).isSome) := by
  unfold Panel.commandByte
  cases cfg.command? b with
  | none => simp
  | some c => by_cases hz : cfg.nargs c = 0 <;> cases p.pend <;> simp [hz]

/-- In sync after a data byte: in sync before it, and the byte an argument owed or one of the stream. -/
theorem dataByte_sync (b : Byte) (p : Panel) : (p.dataByte b).sync = (p.sync && (p.pend.isSome || p.stream)) := by
  unfold Panel.dataByte
  cases p.pend with
  | some d => dsimp only; split_ifs <;> simp
  | none => dsimp only; split_ifs with hs <;> simp [Panel.ramByte, hs]

/-- After a byte that is no command's opcode nothing is owed and no stream is open. -/
theorem commandByte_atRest_of_unknown {cfg : Config} {b : Byte} (h : ∀ c, cfg.opc c ≠ b) (p : Panel) :
    (p.commandByte cfg b).pend = none ∧ (p.commandByte cfg b).stream = false := by
  unfold Panel.commandByte
  rw [command?_eq_none h]
  exact ⟨rfl, rfl⟩

theorem symbol_command (cfg : Config) (n : Nat) (p : Panel) (b : Byte) :
    p.symbol cfg false n b = (p.commandByte cfg b).settle n := rfl

theorem symbol_data (cfg : Config) (n : Nat) (p : Panel) (b : Byte) :
    p.symbol cfg true n b = (p.dataByte b).settle n := rfl

/-! ### What a panel out of sync holds (R194) -/

/-- Two panels out of sync hold the same free values, whatever they held. -/
theorem settle_sameContents {p q : Panel} (hp : p.sync = false) (hq : q.sync = false) (n : Nat) :
    SameContents (p.settle n) (q.settle n) := by
  rw [settle_of_desync hp, settle_of_desync hq]
  exact ⟨fun _ => rfl, rfl, rfl, rfl, rfl, rfl, rfl, rfl⟩

/-- Settles O39: each misplaced byte fails what its symbol needs to keep sync; then `settle` frees the contents. -/
theorem misplacedByteDesynchronises : Obligations.MisplacedByteDesynchronises := by
  intro cfg n p b
  refine ⟨fun owed => ?_, fun hp hs => ?_, fun unknown => ?_, fun dc dc' p' b' h h' => ?_⟩
  · rw [symbol_command, settle_sync, commandByte_sync]
    simp [Option.isSome_iff_ne_none.mp owed]
  · rw [symbol_data, settle_sync, dataByte_sync]
    simp [hp, hs]
  · rw [symbol_command, settle_sync, settle_pend, settle_stream, commandByte_sync, command?_eq_none unknown]
    exact ⟨by simp, commandByte_atRest_of_unknown unknown p⟩
  · exact settle_sameContents ((settle_sync n _).symm.trans h) ((settle_sync n _).symm.trans h') n

/-! ### Out of sync for good (R48) -/

theorem symbol_sync_of_desync {p : Panel} (h : p.sync = false) (cfg : Config) (dc : Bool) (n : Nat) (b : Byte) :
    (p.symbol cfg dc n b).sync = false := by
  cases dc with
  | false => rw [symbol_command, settle_sync, commandByte_sync, h]; rfl
  | true => rw [symbol_data, settle_sync, dataByte_sync, h]; rfl

theorem deliver_sync_of_desync (cfg : Config) (dc : Bool) (n : Nat) (bs : List Byte) {p : Panel} (h : p.sync = false) :
    (p.deliver cfg dc n bs).sync = false := by
  induction bs generalizing p with
  | nil => exact h
  | cons b bs ih => exact ih (symbol_sync_of_desync h cfg dc n b)

/-- No wire event but the panel's hardware reset brings it back in sync. -/
theorem recv_sync_of_desync {p : Panel} {ev : Event} (h : p.sync = false) (hev : ev ≠ .rst false) (cfg : Config) (dc : Bool)
    (n : Nat) : (Panel.recv cfg dc n ev p).sync = false := by
  cases ev with
  | rst l =>
    cases l with
    | false => exact absurd rfl hev
    | true => exact h
  | dc l => exact h
  | wait ms => exact h
  | tx bs r =>
    cases r with
    | ok => exact deliver_sync_of_desync cfg dc n bs h
    | fail => exact failed_sync cfg dc n bs p

/-- A failed transaction leaves nothing of what the panel held. -/
theorem failed_sameContents (cfg : Config) (dc : Bool) (n : Nat) (bs : List Byte) (p q : Panel) :
    SameContents (p.failed cfg dc n bs) (q.failed cfg dc n bs) :=
  settle_sameContents rfl rfl n

/-- Settles O40: by the wire event received; a failed transaction ends in `settle`, out of sync. -/
theorem outOfSyncIsSticky : Obligations.OutOfSyncIsSticky := by
  intro cfg dc n ev p
  refine ⟨fun h hev => recv_sync_of_desync h hev cfg dc n, ?_⟩
  rintro bs rfl
  exact ⟨failed_sync cfg dc n bs p, failed_cfgd cfg dc n bs p, failed_sameContents cfg dc n bs p⟩

/-! ### The configuration, and the trace of a run (R53) -/

/-- `t` is a later state of the run of `s`: the configuration is the same and the trace has perhaps grown. -/
def Continues (s t : State) : Prop := t.cfg = s.cfg ∧ ∃ evs, t.trace = s.trace ++ evs

theorem continues_of_same {s t : State} (hc : t.cfg = s.cfg) (ht : t.trace = s.trace) : Continues s t :=
  ⟨hc, [], by simpa using ht⟩

theorem Continues.trans {s t u : State} (h : Continues s t) (h' : Continues t u) : Continues s u := by
  obtain ⟨hc, evs, ht⟩ := h
  obtain ⟨hc', evs', ht'⟩ := h'
  exact ⟨hc'.trans hc, evs ++ evs', by rw [ht', ht, List.append_assoc]⟩

theorem emit_continues (s : State) (ev : Event) : Continues s (s.emit ev) := ⟨rfl, [ev], rfl⟩

theorem busWrite_continues (s : State) (bs : List Byte) : Continues s (s.busWrite bs).state := by
  unfold State.busWrite
  cases s.answer with
  | ok => exact emit_continues s.answered _
  | fail => exact emit_continues s.answered _
  | hang => exact continues_of_same rfl rfl

theorem restoreDc_continues (d : BusDone) : Continues d.state d.restoreDc.state := by
  cases d with
  | ok s => exact emit_continues { s with dc := true } _
  | failed s => exact emit_continues { s with dc := true } _
  | hung s => exact continues_of_same rfl rfl

theorem finish_continues (d : BusDone) : Continues d.state d.finish.state := by
  cases d with
  | ok s => exact continues_of_same rfl rfl
  | failed s => rw [BusDone.finish, busFail_eq]; exact continues_of_same rfl rfl
  | hung s => exact continues_of_same rfl rfl

theorem sendCommand_continues (s : State) (c : Byte) : Continues s (s.sendCommand c).state :=
  (emit_continues { s with dc := false } _).trans
    ((busWrite_continues _ [c]).trans ((restoreDc_continues _).trans (finish_continues _)))

theorem sendData_continues (s : State) (b : Byte) : Continues s (s.sendData b).state :=
  (busWrite_continues s [b]).trans (finish_continues _)

theorem sendBytes_continues (s : State) (a n : Nat) : Continues s (s.sendBytes a n).state :=
  (busWrite_continues s _).trans (finish_continues _)

theorem sendFrame_continues {s : State} (free : s.hung = false) (c : Command) (args : List Byte) :
    Continues s (s.sendFrame c args).state :=
  sendFrame_induct (P := Continues s) (fun t b h _ => h.trans (sendCommand_continues t b))
    (fun t b h _ => h.trans (sendData_continues t b)) s c args (continues_of_same rfl rfl) free

/-- Every instruction. -/
theorem exec_continues {s t : State} {i : Instr} (h : exec i s = .next t) : Continues s t := by
  rcases instr_cases i with hi | ⟨c, rfl⟩ | ⟨b, rfl⟩ | ⟨a, n, rfl⟩ | rfl | rfl | rfl | ⟨c, args, rfl⟩
  · obtain ⟨-, rfl | ⟨-, -, op, y, x, ⟨e, m, -, -, -, -, rfl⟩ | ⟨-, rfl⟩ | ⟨-, -, rfl⟩⟩⟩ := hostOp_next hi h <;>
      exact continues_of_same rfl rfl
  · obtain ⟨-, h⟩ := whenFree_next.mp (show execSendCommand c s = .next t from h)
    cases h
    exact sendCommand_continues s c
  · obtain ⟨-, h⟩ := whenFree_next.mp (show execSendData b s = .next t from h)
    cases h
    exact sendData_continues s b
  · obtain ⟨-, -, -, -, rfl⟩ := sendBytes_next h
    exact sendBytes_continues s a n
  · obtain ⟨-, h⟩ := whenFree_next.mp (show execRstLow s = .next t from h)
    cases h
    exact emit_continues { s with prst := false } _
  · obtain ⟨-, h⟩ := whenFree_next.mp (show execRstHigh s = .next t from h)
    cases h
    exact emit_continues { s with prst := true } _
  · obtain ⟨-, h⟩ := whenFree_next.mp (show execWait s = .next t from h)
    cases h
    exact emit_continues s _
  · rw [exec_ofCommand] at h
    obtain ⟨free, h⟩ := whenFree_next.mp (show execFrame c args s = .next t from h)
    cases h
    exact sendFrame_continues free c args

/-- An instruction run from a state of the same configuration and trace. -/
theorem exec_continues_of_same {s u t : State} {i : Instr} (h : exec i u = .next t) (hc : u.cfg = s.cfg)
    (ht : u.trace = s.trace) : Continues s t :=
  (continues_of_same hc ht).trans (exec_continues h)

theorem complete_continues (s : State) : Continues s s.complete := by
  unfold State.complete
  cases s.phase <;> exact continues_of_same rfl rfl

/-- Every step continues the run but block reset, which begins a new one under the same configuration (R180). -/
theorem step_continues {s t : State} (h : step s = .next t) :
    Continues s t ∨ (t.cfg = s.cfg ∧ ∃ r, s.host = .reset :: r) := by
  obtain ⟨m, r, hm, -, rfl⟩ | ⟨u, turn, -, h⟩ := step_next h
  · cases m with
    | reset => exact .inr ⟨rfl, r, hm⟩
    | _ => exact .inl (continues_of_same rfl rfl)
  · have e := blockTurn_eq turn
    generalize u.host = r at e
    subst e
    left
    obtain ⟨i, -, h⟩ | ⟨-, -, -, rfl⟩ | ⟨w, q, -, -, -, -, h⟩ | ⟨-, -, -, rfl⟩ | ⟨i, -, -, -, -, h⟩ := h
    · exact exec_continues_of_same h rfl rfl
    · exact continues_of_same rfl rfl
    · exact exec_continues_of_same h rfl rfl
    · exact complete_continues { s with host := r }
    · exact exec_continues_of_same h rfl rfl

/-- Settles O55: by what an instruction and a step can do. -/
theorem configurationIsConstant : Obligations.ConfigurationIsConstant := by
  refine ⟨fun i s t h => exec_continues h, fun s t h => ?_⟩
  obtain ⟨hc, evs⟩ | ⟨hc, reset⟩ := step_continues h
  · exact ⟨hc, .inr evs⟩
  · exact ⟨hc, .inl reset⟩

end Sys2Proof.Proofs
end

section
/-! PROOFS. The encodings (`30_encoding.md`): each decoder gives back what its encoder put together, on request words
(R61), on transactions (R64) and on frames (R65 to R68); and the step that runs a request by its word (R61, R167). -/

namespace Sys2Proof.Proofs

open Sys2Proof.Machine Sys2Proof.Machine.Laws Sys2Proof.Laws

/-! ### Request words (R61) -/

theorem reqOp_eq_ofNat {w : Request} {k : Nat} (h : w.toNat / 2 ^ 30 = k) : reqOp w = BitVec.ofNat 2 k := by
  rw [← h, ← reqOp_toNat, BitVec.ofNat_toNat, BitVec.setWidth_eq]

theorem decodeRequest_eq_init {w : Request} (h : reqOp w = 0b00#2) : decodeRequest w = .init (reqLow w) := by
  simp [decodeRequest, h]

theorem decodeRequest_eq_setpix {w : Request} (h : reqOp w = 0b01#2) :
    decodeRequest w = .setpix (reqX w) (reqY w) := by
  simp [decodeRequest, h]

theorem decodeRequest_eq_fill {w : Request} (h : reqOp w = 0b10#2) : decodeRequest w = .fill (reqLow w) := by
  simp [decodeRequest, h]

theorem decodeRequest_eq_flush {w : Request} (h : reqOp w = 0b11#2) : decodeRequest w = .flush (reqLow w) := by
  simp [decodeRequest, h]

theorem reqOp_cases (w : Request) : reqOp w = 0b00#2 ∨ reqOp w = 0b01#2 ∨ reqOp w = 0b10#2 ∨ reqOp w = 0b11#2 := by
  generalize reqOp w = op
  revert op
  decide

/-- No bit of a request word is lost: the ignored bits are carried too (R63). -/
theorem encode_decodeRequest (cfg : Config) (fb : Mem) (w : Request) : encode cfg fb (decodeRequest w) = .word w := by
  have fields := mkRequest_fields w
  obtain h | h | h | h := reqOp_cases w
  · rw [decodeRequest_eq_init h, encode, ← h, fields]
  · rw [decodeRequest_eq_setpix h, encode, ← h, low_fields, fields]
  · rw [decodeRequest_eq_fill h, encode, ← h, fields]
  · rw [decodeRequest_eq_flush h, encode, ← h, fields]

theorem decode_encode_hostOp (cfg : Config) (fb : Mem) {i : Instr} (hi : i.isHostOp = true) :
    decode cfg (encode cfg fb i) = .instr i := by
  cases i with
  | init low => rw [encode, decode, decodeRequest_eq_init (reqOp_mkRequest _ _), reqLow_mkRequest]
  | setpix x y => rw [encode, decode, decodeRequest_eq_setpix (reqOp_mkRequest _ _), reqX_mkRequest, reqY_mkRequest]
  | fill low => rw [encode, decode, decodeRequest_eq_fill (reqOp_mkRequest _ _), reqLow_mkRequest]
  | flush low => rw [encode, decode, decodeRequest_eq_flush (reqOp_mkRequest _ _), reqLow_mkRequest]
  | _ => cases hi

/-! ### Transactions (R64) -/

/-- The bytes of a stream, decoded at their position: how many there are is all that is read of them. -/
theorem decodeRun_stream {a : Nat} {bs : List Byte} (hne : bs ≠ []) (hend : a + bs.length ≤ fbBytes) :
    decodeRun (some a) (bs.map (mkSymbol true)) = .instr (.sendBytes a bs.length) := by
  match bs with
  | [] => exact absurd rfl hne
  | [b] => simpa [decodeRun, decodeSymbol] using hend
  | b :: b' :: bs => simpa [decodeRun] using hend

theorem rangeOk_iff {cfg : Config} {a n : Nat} : rangeOk cfg a n = true ↔ 1 ≤ n ∧ n ≤ cfg.chunk ∧ a + n ≤ fbBytes := by
  simp [rangeOk, and_assoc]

theorem decode_encode_sendBytes {cfg : Config} (fb : Mem) {a n : Nat} (h : rangeOk cfg a n = true) :
    decode cfg (encode cfg fb (.sendBytes a n)) = .instr (.sendBytes a n) := by
  obtain ⟨hpos, -, hend⟩ := rangeOk_iff.mp h
  have hne : Mem.readRange fb a n ≠ [] := List.ne_nil_of_length_pos (by rwa [length_readRange])
  rw [encode, decode, decodeRun_stream hne (by rwa [length_readRange]), length_readRange]

/-! ### Frames (R65, R66) -/

theorem decodeFrame_encodeFrame {cfg : Config} (h : cfg.wf = true) (c : Command) {args : List Byte}
    (hl : args.length = cfg.nargs c) (rest : List Symbol) :
    decodeFrame cfg (encodeFrame cfg c args ++ rest) = (.instr (Instr.ofCommand c args), rest) := by
  simp [encodeFrame, decodeFrame, command?_opc h, ← hl, decodeArgs_encoded]

theorem encode_ofCommand (cfg : Config) (fb : Mem) (c : Command) (args : List Byte) :
    encode cfg fb (Instr.ofCommand c args) = .frame (encodeFrame cfg c args) := by
  cases c <;> rfl

theorem wf_ofCommand_iff {cfg : Config} {c : Command} {args : List Byte} :
    (Instr.ofCommand c args).wf cfg = true ↔ args.length = cfg.nargs c := by
  cases c <;> exact beq_iff_eq

theorem decode_encode_ofCommand {cfg : Config} (h : cfg.wf = true) (fb : Mem) {c : Command} {args : List Byte}
    (hl : args.length = cfg.nargs c) :
    decode cfg (encode cfg fb (Instr.ofCommand c args)) = .instr (Instr.ofCommand c args) := by
  have frame := decodeFrame_encodeFrame h c hl []
  rw [List.append_nil] at frame
  rw [encode_ofCommand, decode, frame]

/-- Settles O2: by the level of the instruction, each level's decoder inverting its encoder. -/
theorem decodeEncodeAgree : Obligations.DecodeEncodeAgree := by
  intro cfg fb i hc hi
  obtain host | ⟨c, rfl⟩ | ⟨b, rfl⟩ | ⟨a, n, rfl⟩ | rfl | rfl | rfl | ⟨c, args, rfl⟩ := instr_cases i
  · exact decode_encode_hostOp cfg fb host
  · simp [encode, decode, decodeRun, decodeSymbol]
  · simp [encode, decode, decodeRun, decodeSymbol]
  · exact decode_encode_sendBytes fb hi
  · rfl
  · rfl
  · rfl
  · exact decode_encode_ofCommand hc fb (wf_ofCommand_iff.mp hi)

/-- Settles O3: the operation is bits 31:30, and the other fields are the rest of the word. -/
theorem everyRequestWordDecodes : Obligations.EveryRequestWordDecodes := by
  intro cfg fb w
  refine ⟨decodeRequest w, rfl, encode_decodeRequest cfg fb w, fun h => ?_, fun h => ?_, fun h => ?_, fun h => ?_⟩
  · exact ⟨_, decodeRequest_eq_init (reqOp_eq_ofNat h), reqLow_toNat w⟩
  · exact ⟨_, _, decodeRequest_eq_setpix (reqOp_eq_ofNat h), reqX_toNat w, reqY_toNat w⟩
  · exact ⟨_, decodeRequest_eq_fill (reqOp_eq_ofNat h), reqLow_toNat w⟩
  · exact ⟨_, decodeRequest_eq_flush (reqOp_eq_ofNat h), reqLow_toNat w⟩

/-- Settles O4: the lookup of the opcode gives the command, and `NARGS` of it is how many symbols are taken. -/
theorem frameEndsWhereItsOpcodeSays : Obligations.FrameEndsWhereItsOpcodeSays :=
  fun _ c _ rest hc hl => decodeFrame_encodeFrame hc c hl rest

/-! ### Opcodes (R67, R68) -/

theorem opc_injective {cfg : Config} (h : cfg.wf = true) {c d : Command} (e : cfg.opc c = cfg.opc d) : c = d := by
  have hc := command?_opc h c
  rw [e, command?_opc h d] at hc
  exact (Option.some.inj hc).symm

theorem decode_unknownOpcode {cfg : Config} {b : Byte} (unknown : ∀ c, cfg.opc c ≠ b) (ys : List Symbol) :
    decode cfg (.frame (mkSymbol false b :: ys)) = .reject .unknownOpcode := by
  simp [decode, decodeFrame, command?_eq_none unknown]

/-- Settles O5: the receiver's lookup inverts `OPC`, and so `OPC` is injective. -/
theorem opcodesToldApart : Obligations.OpcodesToldApart :=
  fun _ hc => ⟨fun _ _ => opc_injective hc, command?_opc hc, fun _ ys unknown => decode_unknownOpcode unknown ys⟩

/-! ### Words of the spec -/

/-- Settles O1: each code is decoded by evaluation. -/
theorem specWordsDecode : Obligations.SpecWordsDecode := by
  unfold Obligations.SpecWordsDecode
  decide

/-! ### The step that runs a request (R61, R167) -/

theorem blockFetch_request {s : State} {w : Request} {rest : List Request} (hf : s.hung = false) (hb : s.issue = none)
    (hp : s.phase = .idle) (hc : s.cancel = false) (hr : s.reqs = w :: rest) :
    blockFetch s = .instr (decodeRequest w) { s with reqs := rest } := by
  simp [blockFetch, requestFetch, hf, hb, hp, hc, hr]

/-- Settles O6: on the block's turn the step fetches from the request port. -/
theorem stepRunsRequest : Obligations.StepRunsRequest := by
  intro s t w rest turn hf hb hp hc hr
  have ht := blockTurn_eq turn
  generalize t.host = r at ht
  subst ht
  refine ⟨decodeRequest w, rfl, ?_⟩
  rw [step, fetch_blockTurn turn, blockFetch_request (s := { s with host := r }) hf hb hp hc hr]

end Sys2Proof.Proofs
end

section
/-! PROOFS. The bus transport primitives (`40_bus_transport.md`): what each is when nothing is outstanding (R80 to R85), its
transaction by the answer of the bus (R86, R87), its stops; and the frame of every instruction on the wire. -/

namespace Sys2Proof.Proofs

open Sys2Proof.Machine Sys2Proof.Machine.Laws

/-! ### Each primitive when nothing is outstanding -/

theorem exec_sendCommand {s : State} (free : s.hung = false) (c : Byte) :
    exec (.sendCommand c) s = .next (s.sendCommand c).state := whenFree_free free _

theorem exec_sendData {s : State} (free : s.hung = false) (b : Byte) :
    exec (.sendData b) s = .next (s.sendData b).state := whenFree_free free _

theorem exec_rstLow {s : State} (free : s.hung = false) : exec .rstLow s = .next (s.driveRst false).advance :=
  whenFree_free free _

theorem exec_rstHigh {s : State} (free : s.hung = false) : exec .rstHigh s = .next (s.driveRst true).advance :=
  whenFree_free free _

theorem exec_wait {s : State} (free : s.hung = false) : exec .wait s = .next (s.emit (.wait holdMs)).advance :=
  whenFree_free free _

theorem exec_frame {s : State} (free : s.hung = false) (c : Command) (args : List Byte) :
    exec (Instr.ofCommand c args) s = .next (s.sendFrame c args).state :=
  (exec_ofCommand c args s).trans (whenFree_free free _)

/-! ### A transaction that goes through -/

/-- Settles O23: SEND_COMMAND by the bus's answer `ok`. -/
theorem sendCommandCompletes : Obligations.SendCommandCompletes := by
  intro c s free answer
  rw [exec_sendCommand free, sendCommand_ok c answer]
  rfl

/-- Settles O24: SEND_DATA by the bus's answer `ok`. -/
theorem sendDataCompletes : Obligations.SendDataCompletes := by
  intro b s free answer
  rw [exec_sendData free, sendData_ok b answer]
  rfl

/-- Settles O25: SEND_BYTES by the bus's answer `ok`; its bytes are those of the range read from the framebuffer. -/
theorem sendBytesCompletes : Obligations.SendBytesCompletes := by
  intro a n s free answer pos short inside
  refine ⟨Mem.readRange s.fb a n, length_readRange _ _ _, fun k => getElem?_readRange _ _ _ k, ?_⟩
  rw [exec_sendBytes free pos short inside, sendBytes_ok a n answer]
  rfl

/-! ### The reset line and the hold -/

/-- Settles O26: the event `RST(0)` gives the shadow its hardware reset. -/
theorem rstLowCompletes : Obligations.RstLowCompletes :=
  ⟨fun s free => ⟨Panel.hardReset s.draws, exec_rstLow free, rfl, hardReset_regOf s.draws, rfl, rfl, rfl⟩,
    fun _ _ => rfl, rfl⟩

/-- Settles O27: the event `RST(1)` leaves the shadow as it is. -/
theorem rstHighCompletes : Obligations.RstHighCompletes :=
  ⟨fun _ free => exec_rstHigh free, fun _ _ => rfl, rfl⟩

/-- Settles O28: the hold is the event alone. -/
theorem waitCompletes : Obligations.WaitCompletes :=
  ⟨fun _ free => exec_wait free, fun _ _ => rfl, rfl⟩

/-! ### A transaction that fails, or never returns -/

/-- Settles O29: each transmitting primitive by the bus's answer `fail`; its error is the one `busFail` raises. -/
theorem busFailureIsFatal : Obligations.BusFailureIsFatal := by
  rintro s _ free answer rfl
  refine ⟨fun c => ⟨s.panel.failed s.cfg false (s.draws + 1) [c], ?_⟩,
    fun b => ⟨s.panel.failed s.cfg s.dc s.draws [b], ?_⟩,
    fun a n pos short inside => ⟨s.panel.failed s.cfg s.dc s.draws (Mem.readRange s.fb a n), ?_⟩⟩
  · rw [exec_sendCommand free, sendCommand_fail c answer]
    rfl
  · rw [exec_sendData free, sendData_fail b answer]
    rfl
  · rw [exec_sendBytes free pos short inside, sendBytes_fail a n answer]
    rfl

/-- Settles O30: each transmitting primitive when the bus never answers. -/
theorem busHangLeavesTheLine : Obligations.BusHangLeavesTheLine := by
  refine fun s free answer => ⟨fun c => ?_, fun b => ?_, fun a n pos short inside => ?_⟩
  · rw [exec_sendCommand free, sendCommand_hang c answer]
    rfl
  · rw [exec_sendData free, sendData_hang b answer]
    rfl
  · rw [exec_sendBytes free pos short inside, sendBytes_hang a n answer]
    rfl

/-! ### The stops -/

/-- Every instruction of every level stands behind the gate `State.whenFree`. -/
theorem exec_eq_whenFree (i : Instr) (s : State) : ∃ o, exec i s = s.whenFree o := by
  rcases instr_cases i with hi | ⟨c, rfl⟩ | ⟨b, rfl⟩ | ⟨a, n, rfl⟩ | rfl | rfl | rfl | ⟨c, args, rfl⟩
  · obtain ⟨op, y, x, run, e⟩ := exec_hostOp_eq_request hi
    exact ⟨_, e s⟩
  · exact ⟨_, rfl⟩
  · exact ⟨_, rfl⟩
  · exact ⟨_, rfl⟩
  · exact ⟨_, rfl⟩
  · exact ⟨_, rfl⟩
  · exact ⟨_, rfl⟩
  · exact ⟨_, exec_ofCommand c args s⟩

theorem exec_hung {s : State} (h : s.hung = true) (i : Instr) : exec i s = .fault .busHang := by
  obtain ⟨o, e⟩ := exec_eq_whenFree i s
  rw [e, whenFree_hung h]

/-- An instruction that answers a next state ran with nothing outstanding. -/
theorem free_of_exec_next {s t : State} {i : Instr} (h : exec i s = .next t) : s.hung = false := by
  obtain ⟨o, e⟩ := exec_eq_whenFree i s
  exact (whenFree_next.mp (e.symm.trans h)).1

/-- Settles O31: the gate before every instruction, and the one in the block's fetch. -/
theorem hangIsStuck : Obligations.HangIsStuck := by
  refine fun s h => ⟨exec_hung h, fun t turn => ?_⟩
  have ht : t.hung = true := by rw [blockTurn_eq turn]; exact h
  rw [step, fetch_blockTurn turn, blockFetch_hung ht]

theorem chunkLengthOk_eq_false {cfg : Config} {n : Nat} (h : n = 0 ∨ cfg.chunk < n) : chunkLengthOk cfg n = false := by
  rw [← Bool.not_eq_true, chunkLengthOk, Bool.and_eq_true, decide_eq_true_eq, decide_eq_true_eq]
  omega

theorem exec_sendBytes_pastEnd {s : State} {a n : Nat} (free : s.hung = false) (past : Mem.size < a + n) :
    exec (.sendBytes a n) s = .fault .fbRange :=
  (whenFree_free free _).trans (if_pos past)

theorem exec_sendBytes_chunkLength {s : State} {a n : Nat} (free : s.hung = false) (inside : a + n ≤ Mem.size)
    (length : chunkLengthOk s.cfg n = false) : exec (.sendBytes a n) s = .refused .chunkLength :=
  (whenFree_free free _).trans ((if_neg (Nat.not_lt.mpr inside)).trans (if_pos (by rw [length]; rfl)))

/-- Settles O32: the two gates of SEND_BYTES on its operands, the range first. -/
theorem sendBytesStops : Obligations.SendBytesStops :=
  fun _ _ _ free => ⟨fun past => exec_sendBytes_pastEnd free past,
    fun inside length => exec_sendBytes_chunkLength free inside (chunkLengthOk_eq_false length)⟩

/-! ### The frame of every instruction on the wire -/

/-- How sending from `s` ends, with the data/command line at `l`, one constructor per outcome: apart from the line, only the
counter, the trace, the shadow and the bus environment move, and a failure takes its error on top. -/
inductive Sends (s : State) (l : Bool) : BusDone → Prop
  | ok (q : BitVec 14) (evs : List Event) (p : Panel) (b : BusEnv) (d : Nat) :
      Sends s l (.ok { s with dc := l, seq := q, trace := s.trace ++ evs, panel := p, bus := b, draws := d })
  | failed (q : BitVec 14) (evs : List Event) (p : Panel) (b : BusEnv) (d : Nat) (e : Response) (bs : List Byte)
      (tx : Event.tx bs .fail ∈ evs) :
      Sends s l (.failed (State.raise
        { s with dc := l, seq := q, trace := s.trace ++ evs, panel := p, bus := b, draws := d } e))
  | hung (q : BitVec 14) (evs : List Event) (p : Panel) (b : BusEnv) (d : Nat) :
      Sends s l (.hung
        { s with dc := l, seq := q, trace := s.trace ++ evs, panel := p, bus := b, draws := d, hung := true })

theorem Sends.ok_dc {s t : State} {l : Bool} (h : Sends s l (.ok t)) : t.dc = l := by
  cases h
  rfl

/-- Sending goes on after a part that went through, and ends as the rest does. -/
theorem Sends.andThen {s t : State} {l l' : Bool} {d : BusDone} (h : Sends s l (.ok t)) (h' : Sends t l' d) :
    Sends s l' d := by
  cases h with
  | ok q evs p b n =>
    cases h' with
    | ok q' evs' p' b' n' =>
      simp only [List.append_assoc]
      exact .ok q' (evs ++ evs') p' b' n'
    | failed q' evs' p' b' n' e bs tx =>
      simp only [List.append_assoc]
      exact .failed q' (evs ++ evs') p' b' n' e bs (List.mem_append_right evs tx)
    | hung q' evs' p' b' n' =>
      simp only [List.append_assoc]
      exact .hung q' (evs ++ evs') p' b' n'

theorem sendCommand_sends (s : State) (c : Byte) : ∃ l, Sends s l (s.sendCommand c) := by
  cases answer : s.bus.nth 0 with
  | ok => exact ⟨true, by rw [sendCommand_ok c answer]; exact .ok _ _ _ _ _⟩
  | fail => exact ⟨true, by rw [sendCommand_fail c answer]; exact .failed s.seq _ _ _ _ _ [c] (by simp)⟩
  | hang => exact ⟨false, by rw [sendCommand_hang c answer]; exact .hung s.seq _ s.panel _ _⟩

theorem sendData_sends (s : State) (b : Byte) : Sends s s.dc (s.sendData b) := by
  cases answer : s.bus.nth 0 with
  | ok => rw [sendData_ok b answer]; exact .ok _ _ _ _ _
  | fail => rw [sendData_fail b answer]; exact .failed s.seq _ _ _ _ _ [b] (by simp)
  | hang => rw [sendData_hang b answer]; simpa using Sends.hung (s := s) (l := s.dc) s.seq [] s.panel _ s.draws

theorem sendBytes_sends (s : State) (a n : Nat) : Sends s s.dc (s.sendBytes a n) := by
  cases answer : s.bus.nth 0 with
  | ok => rw [sendBytes_ok a n answer]; exact .ok _ _ _ _ _
  | fail => rw [sendBytes_fail a n answer]; exact .failed s.seq _ _ _ _ _ (Mem.readRange s.fb a n) (by simp)
  | hang => rw [sendBytes_hang a n answer]; simpa using Sends.hung (s := s) (l := s.dc) s.seq [] s.panel _ s.draws

/-- The arguments of a frame leave the line where they found it. -/
theorem sendArgs_sends (args : List Byte) : ∀ s : State, Sends s s.dc (s.sendArgs args) := by
  induction args with
  | nil =>
    intro s
    rw [sendArgs_nil]
    simpa using Sends.ok (s := s) (l := s.dc) s.seq [] s.panel s.bus s.draws
  | cons b args ih =>
    intro s
    have first := sendData_sends s b
    rw [sendArgs_cons]
    cases e : s.sendData b with
    | ok t =>
      rw [e] at first
      have rest := ih t
      rw [first.ok_dc] at rest
      exact first.andThen rest
    | failed t => rwa [e] at first
    | hung t => rwa [e] at first

theorem sendFrame_sends (s : State) (c : Command) (args : List Byte) : ∃ l, Sends s l (s.sendFrame c args) := by
  obtain ⟨l, first⟩ := sendCommand_sends s (s.cfg.opc c)
  unfold State.sendFrame
  cases e : s.sendCommand (s.cfg.opc c) with
  | ok t =>
    rw [e] at first
    exact ⟨_, first.andThen (sendArgs_sends args t)⟩
  | failed t => exact ⟨l, by rwa [e] at first⟩
  | hung t => exact ⟨l, by rwa [e] at first⟩

/-- Every instruction of level T or C is a sending: after the reset line was driven to `r`, which only RST_LOW and RST_HIGH
do, and with the line left at `l`, which only a command byte changes. -/
theorem exec_wire_sends {s t : State} {i : Instr} (hi : i.isHostOp = false) (h : exec i s = .next t) :
    ∃ r l d, Sends { s with prst := r } l d ∧ t = d.state ∧ (i ≠ .rstLow → i ≠ .rstHigh → r = s.prst) ∧
      ((∀ c, i ≠ .sendCommand c) → i.command? = none → l = s.dc) := by
  have free := free_of_exec_next h
  rcases instr_cases i with h' | ⟨c, rfl⟩ | ⟨b, rfl⟩ | ⟨a, n, rfl⟩ | rfl | rfl | rfl | ⟨c, args, rfl⟩
  · simp [hi] at h'
  · rw [exec_sendCommand free] at h
    cases h
    obtain ⟨l, sent⟩ := sendCommand_sends s c
    exact ⟨s.prst, l, _, sent, rfl, fun _ _ => rfl, fun hc => absurd rfl (hc c)⟩
  · rw [exec_sendData free] at h
    cases h
    exact ⟨s.prst, s.dc, _, sendData_sends s b, rfl, fun _ _ => rfl, fun _ _ => rfl⟩
  · obtain ⟨-, -, -, -, rfl⟩ := sendBytes_next h
    exact ⟨s.prst, s.dc, _, sendBytes_sends s a n, rfl, fun _ _ => rfl, fun _ _ => rfl⟩
  · rw [exec_rstLow free] at h
    cases h
    exact ⟨false, s.dc, _, .ok _ _ _ _ _, rfl, fun hr => absurd rfl hr, fun _ _ => rfl⟩
  · rw [exec_rstHigh free] at h
    cases h
    exact ⟨true, s.dc, _, .ok _ _ _ _ _, rfl, fun _ hr => absurd rfl hr, fun _ _ => rfl⟩
  · rw [exec_wait free] at h
    cases h
    exact ⟨s.prst, s.dc, _, .ok _ _ _ _ _, rfl, fun _ _ => rfl, fun _ _ => rfl⟩
  · rw [exec_frame free] at h
    cases h
    obtain ⟨l, sent⟩ := sendFrame_sends s c args
    exact ⟨s.prst, l, _, sent, rfl, fun _ _ => rfl, fun _ hn => by simp [command?_ofCommand] at hn⟩

/-- Settles O33: what a sending leaves alone; the control state moves only where it failed. -/
theorem wireInstrFrame : Obligations.WireInstrFrame := by
  intro i s t hi h
  obtain ⟨r, l, d, sent, rfl, prst, dc⟩ := exec_wire_sends hi h
  cases sent with
  | ok | hung =>
    exact ⟨rfl, rfl, fun _ => rfl, rfl, rfl, rfl, rfl, rfl, rfl, rfl, rfl, prst, dc, .inl ⟨rfl, rfl, rfl, rfl, rfl, rfl⟩⟩
  | failed _ evs _ _ _ _ bs tx =>
    exact ⟨rfl, rfl, fun _ => rfl, rfl, rfl, rfl, rfl, rfl, rfl, rfl, rfl, prst, dc,
      .inr ⟨bs, evs, rfl, tx, rfl, rfl, rfl, rfl, rfl⟩⟩

end Sys2Proof.Proofs
end

section
/-! PROOFS. The controller commands (`41_controller_commands.md`): the frame of a command (R90) by the answers of the bus, what
the panel makes of a complete one (R91 to R120), and that while nothing fails the panel owes just the arguments that stand next
in the sequencer's list (R122). -/

namespace Sys2Proof.Proofs

open Sys2Proof.Machine Sys2Proof.Machine.Laws

/-! ### A frame, by the answers of the bus (R90) -/

theorem answersOk_command {s : State} {n : Nat} (h : AnswersOk s (1 + n)) : s.bus.nth 0 = .ok := h 0 (by omega)

/-- The state after a command byte that went through (R80). -/
def commandSent (s : State) (b : Byte) : State :=
  { s with
    dc := true, seq := s.seq + 1, trace := s.trace ++ [.dc false, .tx [b] .ok, .dc true]
    panel := s.panel.symbol s.cfg false (s.draws + 1) b, bus := s.bus.after 1, draws := s.draws + 3 }

theorem answersOk_commandSent {s : State} {n : Nat} (h : AnswersOk s (1 + n)) (b : Byte) : AnswersOk (commandSent s b) n :=
  fun k hk => (nth_after s.bus 1 k).trans (h (1 + k) (by omega))

/-- Once its command byte went through, a frame is its arguments. -/
theorem sendFrame_eq_sendArgs {s : State} (c : Command) (args : List Byte) (h : s.bus.nth 0 = .ok) :
    s.sendFrame c args = (commandSent s (s.cfg.opc c)).sendArgs args := by
  rw [State.sendFrame, sendCommand_ok _ h]
  rfl

theorem sendFrame_command_fail {s : State} (c : Command) (args : List Byte) (h : s.bus.nth 0 = .fail) :
    s.sendFrame c args = s.sendCommand (s.cfg.opc c) := by
  rw [State.sendFrame, sendCommand_fail _ h]

theorem sendFrame_command_hang {s : State} (c : Command) (args : List Byte) (h : s.bus.nth 0 = .hang) :
    s.sendFrame c args = s.sendCommand (s.cfg.opc c) := by
  rw [State.sendFrame, sendCommand_hang _ h]

/-- The state after a frame's command byte and the first arguments `as` of it, all gone through. -/
def frameSent (s : State) (c : Command) (as : List Byte) : State :=
  { s with
    dc := true
    seq := s.seq + BitVec.ofNat 14 (1 + as.length)
    trace := s.trace ++ ([.dc false, .tx [s.cfg.opc c] .ok, .dc true] ++ as.map fun a => Event.tx [a] .ok)
    panel := (s.panel.symbol s.cfg false (s.draws + 1) (s.cfg.opc c)).receiveArgs s.cfg (s.draws + 3) as
    bus := s.bus.after (1 + as.length)
    draws := s.draws + (3 + as.length) }

theorem sendFrame_ok {s : State} (c : Command) (args : List Byte) (h : AnswersOk s (1 + args.length)) :
    s.sendFrame c args = .ok (frameSent s c args) := by
  rw [sendFrame_eq_sendArgs c args (answersOk_command h), sendArgs_ok args _ rfl (answersOk_commandSent h _)]
  simp [commandSent, frameSent, BitVec.ofNat_add, BitVec.add_assoc, Nat.add_assoc]

/-- Settles O34: the command byte, then each argument, by the answer `ok`. -/
theorem commandFrameCompletes : Obligations.CommandFrameCompletes := by
  intro c args s free answers
  rw [exec_frame free, sendFrame_ok c args answers]
  rfl

/-- Argument `k` decides the rest of its frame, when all before it went through. -/
theorem sendFrame_at {s : State} (c : Command) {args : List Byte} {k : Nat} {a : Byte} (h : AnswersOk s (1 + k))
    (hk : args[k]? = some a) : s.sendFrame c args = match (frameSent s c (args.take k)).sendData a with
      | .ok t => t.sendArgs (args.drop (k + 1))
      | .failed t => .failed t
      | .hung t => .hung t := by
  obtain ⟨hlt, rfl⟩ := List.getElem?_eq_some_iff.mp hk
  have before : s.sendFrame c (args.take k) = .ok (frameSent s c (args.take k)) :=
    sendFrame_ok c _ (by rwa [List.length_take_of_le hlt.le])
  rw [sendFrame_eq_sendArgs c _ (answersOk_command h)] at before ⊢
  conv_lhs =>
    rw [← List.take_append_drop k args, List.drop_eq_getElem_cons hlt, sendArgs_append, before]
  exact sendArgs_cons _ _ _

theorem nth_frameSent {s : State} (c : Command) {args : List Byte} {k : Nat} (hk : k ≤ args.length) :
    (frameSent s c (args.take k)).bus.nth 0 = s.bus.nth (1 + k) := by
  simp [frameSent, List.length_take_of_le hk]

/-- Settles O36: by the first transaction that is not `ok`, the command byte or an argument, and its answer. -/
theorem commandFrameCutShort : Obligations.CommandFrameCutShort := by
  refine fun c args s free => ⟨fun answer => ?_, fun k a before answer hk => ?_, fun answer => ?_, fun k before answer hk => ?_⟩
  · rw [exec_frame free, sendFrame_command_fail c args answer, sendCommand_fail _ answer]
    exact ⟨_, rfl, rfl, rfl, rfl, rfl, rfl, rfl, rfl, rfl, rfl, rfl, failed_cfgd .., failed_sync ..⟩
  · have hl := (List.getElem?_eq_some_iff.mp hk).1.le
    rw [exec_frame free, sendFrame_at c before hk, sendData_fail a ((nth_frameSent c hl).trans answer)]
    refine ⟨_, rfl, ?_⟩
    simp [BusDone.state, State.raise, State.respond, frameSent, List.length_take_of_le hl, Nat.add_right_comm 1 k 1]
  · rw [exec_frame free, sendFrame_command_hang c args answer, sendCommand_hang _ answer]
    rfl
  · rw [exec_frame free, sendFrame_at c before (List.getElem?_eq_getElem hk),
      sendData_hang _ ((nth_frameSent c hk.le).trans answer)]
    simp [BusDone.state, frameSent, List.length_take_of_le hk.le, Nat.add_right_comm 1 k 1]

/-! ### What the panel makes of a complete frame (R91 to R120) -/

/-- Settles O35: the frame went through, and the receiver's rule on a whole frame. -/
theorem commandFrameRecorded : Obligations.CommandFrameRecorded := by
  intro c args s free hc answers length atRest
  refine ⟨frameSent s c args, by rw [exec_frame free, sendFrame_ok c args answers]; rfl, ?_⟩
  obtain ⟨pend, sync, stream, cfgd, recorded⟩ := frame_received hc c args (s.draws + 1) (s.draws + 3) atRest length rfl
  refine ⟨pend, sync, stream, cfgd, fun _ insync => ?_, fun insync => ?_⟩
  · rw [show (frameSent s c args).panel = _ from recorded insync]
    refine ⟨(apply_regOf c c args _).trans (if_pos rfl), fun d hd => (apply_regOf c d args _).trans (if_neg hd), ?_⟩
    exact apply_ram c args _
  · rw [show (frameSent s c args).panel = _ from recorded insync]
    refine ⟨?_, ?_, fun hcol => apply_col hcol args _, fun hrow => apply_row hrow args _⟩
    · rintro b e rfl rfl
      exact ⟨rfl, rfl, rfl⟩
    · rintro b e rfl rfl
      exact ⟨rfl, rfl, rfl⟩

/-! ### In step with the sequencer's list (R122) -/

/-- The panel owes exactly `n` arguments; owing none, no command is pending. -/
def Owes (p : Panel) (n : Nat) : Prop :=
  (p.pend = none ∧ n = 0) ∨ ∃ d, p.pend = some d ∧ d.got.length < d.need ∧ d.need = d.got.length + n

/-- The panel is ready for the primitives `todo`: in sync, owing the arguments that stand next, and in the display-RAM stream if
a SEND_BYTES is next. -/
structure InStep (p : Panel) (todo : List Instr) : Prop where
  sync : p.sync = true
  owes : Owes p (leadingArgs todo)
  stream : ∀ a n, todo.head? = some (.sendBytes a n) → p.stream = true

/-- `FramesInSync` in these words. -/
theorem framesInSync_iff {s : State} : FramesInSync s ↔ (noFail s.trace = true → InStep s.panel s.remaining) := by
  refine forall_congr' fun _ => ⟨fun ⟨sync, owes, stream⟩ => ⟨sync, ?_, stream⟩, fun ⟨sync, owes, stream⟩ => ⟨sync, ?_, stream⟩⟩
  · cases hp : s.panel.pend with
    | none => exact .inl ⟨hp, by simpa [hp] using owes⟩
    | some d => exact .inr ⟨d, hp, by simpa [hp] using owes⟩
  · cases hp : s.panel.pend with
    | none => simpa [Owes, hp] using owes
    | some d => simpa [Owes, hp] using owes

theorem owes_zero_iff {p : Panel} : Owes p 0 ↔ p.pend = none := by
  constructor
  · rintro (⟨h, -⟩ | ⟨d, -, short, all⟩)
    · exact h
    · omega
  · exact fun h => .inl ⟨h, rfl⟩

theorem pend_of_owes_succ {p : Panel} {n : Nat} (h : Owes p (n + 1)) :
    ∃ d, p.pend = some d ∧ d.need = d.got.length + (n + 1) := by
  obtain ⟨-, h⟩ | ⟨d, hd, -, all⟩ := h
  · omega
  · exact ⟨d, hd, all⟩

/-- A panel in sync that owes nothing is ready for a list that begins with neither an argument nor a SEND_BYTES. -/
theorem inStep_of_atRest {p : Panel} {todo : List Instr} (sync : p.sync = true) (atRest : p.pend = none)
    (noArg : leadingArgs todo = 0) (noBytes : ∀ a n, todo.head? ≠ some (.sendBytes a n)) : InStep p todo :=
  ⟨sync, noArg ▸ owes_zero_iff.mpr atRest, fun a n h => absurd h (noBytes a n)⟩

theorem InStep.atRest {p : Panel} {todo : List Instr} (h : InStep p todo) (noArg : leadingArgs todo = 0) : p.pend = none :=
  owes_zero_iff.mp (noArg ▸ h.owes)

/-- A command's opcode, received by a panel that owes nothing: all the command's arguments are owed. -/
theorem symbol_opc_owes {cfg : Config} (hc : cfg.wf = true) (n : Nat) (c : Command) {p : Panel} (hp : p.pend = none) :
    Owes (p.symbol cfg false n (cfg.opc c)) (cfg.nargs c) ∧
    (p.symbol cfg false n (cfg.opc c)).stream = decide (c = Command.ramWrite) ∧
    (p.symbol cfg false n (cfg.opc c)).sync = p.sync := by
  rw [symbol_command, commandByte_opc hc c hp]
  by_cases hz : cfg.nargs c = 0
  · rw [if_pos hz, hz, owes_zero_iff]
    simp
  · rw [if_neg hz]
    refine ⟨.inr ⟨_, settle_pend n _, Nat.pos_of_ne_zero hz, ?_⟩, by simp, by simp⟩
    exact (Nat.zero_add _).symm

/-- An argument that is owed, received: one less is owed. -/
theorem symbol_argument_owes {cfg : Config} (m : Nat) (b : Byte) {p : Panel} {n : Nat} (h : Owes p (n + 1)) :
    Owes (p.symbol cfg true m b) n ∧ (p.symbol cfg true m b).sync = p.sync := by
  obtain ⟨d, hd, all⟩ := pend_of_owes_succ h
  constructor
  · rw [symbol_data, Panel.dataByte, hd]
    dsimp only
    split_ifs with last
    · exact .inl ⟨settle_pend m _, by omega⟩
    · exact .inr ⟨_, settle_pend m _, by simp only [List.length_append, List.length_singleton]; omega,
        by simp only [List.length_append, List.length_singleton]; omega⟩
  · rw [symbol_data, settle_sync, dataByte_sync, hd]
    simp

/-- A primitive that goes through leaves the panel ready for what stands after it. -/
theorem inStep_panelAfter {s : State} {i : Instr} {rest : List Instr} (hc : s.cfg.wf = true) (hi : IsPrimitive i)
    (follows : Follows s.cfg i rest) (h : InStep s.panel (i :: rest)) : InStep (panelAfter s i) rest := by
  obtain ⟨afterCommand, afterOther, bytesAfter⟩ := follows
  rcases hi with ⟨b, rfl⟩ | ⟨b, rfl⟩ | ⟨a, n, rfl⟩ | rfl | rfl | rfl
  · obtain ⟨c, rfl, args, bytes⟩ := afterCommand b rfl
    obtain ⟨owes, stream, sync⟩ := symbol_opc_owes hc (s.draws + 1) c (h.atRest rfl)
    exact ⟨sync.trans h.sync, args ▸ owes, fun a n e => stream.trans (decide_eq_true (bytes a n e))⟩
  · obtain ⟨owes, sync⟩ := symbol_argument_owes (cfg := s.cfg) s.draws b h.owes
    exact ⟨sync.trans h.sync, owes, fun a n e => absurd e (bytesAfter nofun nofun a n)⟩
  · obtain ⟨pend, stream, sync, -⟩ := deliver_stream s.cfg s.draws (Mem.readRange s.fb a n) s.panel (h.atRest rfl)
      (h.stream a n rfl)
    exact ⟨sync.trans h.sync, afterOther nofun nofun ▸ owes_zero_iff.mpr pend, fun _ _ _ => stream⟩
  · exact inStep_of_atRest rfl rfl (afterOther nofun nofun) (bytesAfter nofun nofun)
  all_goals exact inStep_of_atRest h.sync (h.atRest rfl) (afterOther nofun nofun) (bytesAfter nofun nofun)

theorem remaining_of_idle {s : State} (h : s.phase = .idle) : s.remaining = [] := by
  rw [State.remaining, State.prog, h, List.drop_nil]

theorem remaining_of_done {s : State} (h : s.seq.toNat = s.prog.length) : s.remaining = [] := by
  rw [State.remaining, h, List.drop_length]

/-- INIT and FLUSH begin with a primitive that finds a panel at rest. -/
theorem inStep_initProg {p : Panel} (cfg : Config) (sync : p.sync = true) (atRest : p.pend = none) :
    InStep p (initProg cfg) :=
  inStep_of_atRest sync atRest rfl nofun

theorem inStep_flushProg {p : Panel} (cfg : Config) (sync : p.sync = true) (atRest : p.pend = none) :
    InStep p (flushProg cfg) :=
  inStep_of_atRest sync atRest rfl nofun

/-- In `IDLE` the panel is in sync and owes nothing: that is all there is to be in step with. -/
theorem framesInSync_of_idle {s : State} (hp : s.phase = .idle) (sync : noFail s.trace = true → s.panel.sync = true)
    (atRest : noFail s.trace = true → s.panel.pend = none) : FramesInSync s :=
  framesInSync_iff.mpr fun hf => remaining_of_idle hp ▸ inStep_of_atRest (sync hf) (atRest hf) rfl nofun

/-- A sequence ends at the end of its list, where nothing is owed. -/
theorem framesInSync_complete {s : State} (run : s.phase ≠ .idle) (done : s.seq.toNat = s.prog.length) (h : FramesInSync s) :
    FramesInSync s.complete := by
  rw [framesInSync_iff, remaining_of_done done] at h
  rcases running_cases run with hp | hp
  · rw [complete_of_runInit hp]
    exact framesInSync_of_idle rfl (fun hf => (h hf).sync) fun hf => (h hf).atRest rfl
  · rw [complete_of_runFlush hp]
    exact framesInSync_of_idle rfl (fun hf => (h hf).sync) fun hf => (h hf).atRest rfl

/-- A host operation reaches the panel in no way; what it dispatches starts at the head of its list. -/
theorem framesInSync_hostOp {s t : State} {i : Instr} (hi : i.isHostOp = true) (hp : s.phase = .idle) (h : FramesInSync s)
    (e : exec i s = .next t) : FramesInSync t := by
  have rested := framesInSync_iff.mp h
  rw [remaining_of_idle hp] at rested
  obtain ⟨-, rfl | ⟨-, -, op, y, x, ⟨e, m, -, -, -, -, rfl⟩ | ⟨-, rfl⟩ | ⟨-, -, rfl⟩⟩⟩ := hostOp_next hi e
  · exact h
  · exact framesInSync_of_idle rfl (fun hf => (rested hf).sync) fun hf => (rested hf).atRest rfl
  · exact framesInSync_iff.mpr fun hf => inStep_initProg s.cfg (rested hf).sync ((rested hf).atRest rfl)
  · exact framesInSync_iff.mpr fun hf => inStep_flushProg s.cfg (rested hf).sync ((rested hf).atRest rfl)

theorem noFail_of_append {tr evs : List Event} (h : noFail (tr ++ evs) = true) : noFail tr = true :=
  (Bool.and_eq_true_iff.mp (noFail_append tr evs ▸ h)).1

theorem noFail_failEvents {i : Instr} (h : txCount i = 1) (fb : Mem) : noFail (failEvents fb i) = false := by
  cases i with
  | sendCommand c => rfl
  | sendData b => rfl
  | sendBytes a n => rfl
  | _ => cases h

/-- The primitive at `seq` goes through and the panel is ready for the next; or it fails, which the trace shows; or it never
returns, and the panel heard nothing. -/
theorem framesInSync_primitive {s t : State} {i : Instr} (hs : Inv s) (here : AtPrimitive s i) (h : FramesInSync s)
    (e : exec i s = .next t) : FramesInSync t := by
  rw [framesInSync_iff] at h ⊢
  have hdc := hs.dcHigh here.free
  obtain ⟨-, p, b, d, -, ht⟩ := primitive_next here.isPrimitive hdc e
  have heard := primitive_panel here.isPrimitive hdc e
  rcases ht with rfl | ⟨tx, rfl⟩ | ⟨-, rfl⟩ <;> intro hf
  · obtain ⟨rest, todo, after, follows⟩ := ordered_drop s.prog s.seq.toNat i (ordered_prog hs.cfgWf) here.next
    have ready : InStep s.panel (i :: rest) := todo ▸ h (noFail_of_append hf)
    obtain ⟨-, rfl⟩ | failed | ⟨hung, -⟩ := heard
    · have left : InStep (panelAfter s i) (s.prog.drop (s.seq + 1).toNat) := by
        rw [here.seq_succ hs.cfgWf, after]
        exact inStep_panelAfter hs.cfgWf here.isPrimitive follows ready
      exact left
    · simp [hf] at failed
    · simp [here.free] at hung
  · simp [State.raise, State.respond, noFail_append, noFail_failEvents tx] at hf
  · exact h (noFail_of_append hf)

/-- Every step. -/
theorem framesInSync_step {s t : State} (hs : Inv s) (h : FramesInSync s) (e : step s = .next t) : FramesInSync t := by
  obtain ⟨m, r, -, -, rfl⟩ | ⟨free, r, ⟨-, rfl⟩ | ⟨i, q, hp, -, hi, e⟩ | ⟨run, done, rfl⟩ | ⟨i, run, -, next, -, e⟩⟩ :=
    step_next_unbenched hs.bench e
  · cases m with
    | reset => exact framesInSync_of_idle rfl (fun _ => rfl) fun _ => rfl
    | _ => exact h
  · exact h
  · exact framesInSync_hostOp (s := { s with host := r, reqs := q }) hi hp h e
  · exact framesInSync_complete (s := { s with host := r }) run done h
  · exact framesInSync_primitive (s := { s with host := r }) { hs with } ⟨free, run, next⟩ h e

theorem leadingArgs_eq_zero {todo : List Instr} (h : ∀ b, todo.head? ≠ some (.sendData b)) : leadingArgs todo = 0 := by
  cases todo with
  | nil => rfl
  | cons i is =>
    cases i with
    | sendData b => exact absurd rfl (h b)
    | _ => rfl

/-- Settles O51: the panel in step with what the sequencer has still to do, kept by each way a step can go. -/
theorem noFailKeepsFramesInSync : Obligations.NoFailKeepsFramesInSync := by
  refine ⟨fun cfg => framesInSync_of_idle rfl (fun _ => rfl) fun _ => rfl, fun s t => framesInSync_step, ?_⟩
  intro s h hf noArg
  have ready := framesInSync_iff.mp h hf
  exact ⟨ready.sync, ready.atRest (leadingArgs_eq_zero fun b => by rw [State.remaining, List.head?_drop]; exact noArg b)⟩

end Sys2Proof.Proofs
end

section
/-! PROOFS. The controller's finite-state machine (`42_controller_fsm.md`): the sequencer's step by what stands at `seq` (R133,
R134), the transitions of `ctrl` (R136), and a sequence all of whose transactions return `ok`, walked to its completion; then
INIT's own list, its trace and the panel it leaves (R130, R131, R137). -/

namespace Sys2Proof.Proofs

open Sys2Proof.Machine Sys2Proof.Machine.Laws

/-! ### The sequencer's step (R133, R134) -/

theorem blockFetch_primitive {s : State} {i : Instr} (bench : s.issue = none) (here : AtPrimitive s i) :
    blockFetch s = .instr i s := by
  simp [blockFetch, sequencerFetch, bench, here.free, here.running, here.next, here.seq_lt.ne]

theorem blockFetch_complete {s : State} (free : s.hung = false) (bench : s.issue = none) (run : s.phase ≠ .idle)
    (done : s.seq.toNat = s.prog.length) : blockFetch s = .quiet s.complete := by
  simp [blockFetch, sequencerFetch, bench, free, run, done]

/-- On the block's turn a running sequence runs the primitive at `seq` (R133). -/
theorem step_primitive {s t : State} {i : Instr} (turn : BlockTurn s t) (bench : t.issue = none) (here : AtPrimitive t i) :
    step s = exec i t := by
  rw [step, fetch_blockTurn turn, blockFetch_primitive bench here]

/-- At the end of its list it completes (R134). -/
theorem step_complete {s t : State} (turn : BlockTurn s t) (free : t.hung = false) (bench : t.issue = none)
    (run : t.phase ≠ .idle) (done : t.seq.toNat = t.prog.length) : step s = .next t.complete := by
  rw [step, fetch_blockTurn turn, blockFetch_complete free bench run done]

/-- Settles O7: the list is that of the phase, and on the block's turn the step fetches from it. -/
theorem stepRunsPrimitive : Obligations.StepRunsPrimitive := by
  intro s t i turn free bench next
  have here : AtPrimitive s i := by
    rcases next with ⟨run, next⟩ | ⟨run, next⟩
    · exact ⟨free, by simp [run], by rwa [prog_of_runInit run]⟩
    · exact ⟨free, by simp [run], by rwa [prog_of_runFlush run]⟩
  have e := blockTurn_eq turn
  generalize t.host = r at e
  subst e
  exact step_primitive turn bench { here with }

/-- Settles O44: at the end of its list a sequence completes, each phase in its own way. -/
theorem sequenceCompletes : Obligations.SequenceCompletes := by
  refine fun s host free bench => ⟨fun run done => ?_, fun run done => ?_⟩
  · rw [step_complete (.inl ⟨host, rfl⟩) free bench (by simp [run]) (by rwa [prog_of_runInit run]),
      complete_of_runInit run]
    rfl
  · rw [step_complete (.inl ⟨host, rfl⟩) free bench (by simp [run]) (by rwa [prog_of_runFlush run]),
      complete_of_runFlush run]
    cases hu : s.cfg.singleUse <;> simp [State.completeFlush, State.respond, hu]

/-! ### The dispatch of INIT (R132) -/

theorem exec_init_accepted {s : State} (low : BitVec 30) (free : s.hung = false) (idle : s.phase = .idle)
    (ready : s.cancel = false) : exec (.init low) s =
      .next ((s.latch 0 (lowY low) (lowX low)).dispatch (initError s) .runInit) :=
  request_accepted (run := fun s => s.dispatch (initError s) .runInit) free idle ready

/-- Settles O19: by the one error INIT can meet. -/
theorem initDispatch : Obligations.InitDispatch := by
  refine ⟨fun low s free idle ready => ?_, fun _ _ _ => rfl⟩
  rw [exec_init_accepted low free idle ready, initError]
  split_ifs with active
  · simp [State.dispatch, State.respond, State.latch, lowX, lowY, idle]
  · rfl

/-! ### The transitions of `ctrl` (R136) -/

/-- Settles O56: of the ways a step can go, only block reset, the completion of INIT and a failed transaction write `ctrl`;
and the transaction that fails while `ctrl` is ACTIVE is one of FLUSH. -/
theorem controllerTransitions : Obligations.ControllerTransitions := by
  intro s t hs h
  cases step_effect hs h with
  | reset r hr => exact ⟨fun _ => nofun, fun _ _ => .inl ⟨r, hr⟩⟩
  | endsInit _ _ run done => exact ⟨fun _ _ => ⟨run, done, rfl, rfl⟩, fun _ => nofun⟩
  | fails _ _ _ _ _ here =>
    refine ⟨fun _ => nofun, fun active _ => .inr ?_⟩
    rcases running_cases here.running with run | run
    · simp [hs.initing run] at active
    · exact ⟨run, by simp [run], rfl⟩
  | _ => exact ⟨fun uninit active => absurd (uninit.symm.trans active) nofun,
      fun active uninit => absurd (active.symm.trans uninit) nofun⟩

/-! ### A sequence whose transactions all return `ok` -/

/-- The state after a primitive that went through at the data level. -/
def passed (s : State) (i : Instr) : State :=
  { s with
    seq := s.seq + 1, trace := s.trace ++ okEvents s.fb i, prst := prstAfter s.prst i, panel := panelAfter s i
    bus := s.bus.after (txCount i), draws := s.draws + (okEvents s.fb i).length }

/-- The transactions of a primitive list. -/
def txTotal (is : List Instr) : Nat := (is.map txCount).sum

/-- The sequencer alone acts, inside its list, with `todo` still to do. -/
structure Walking (s : State) (todo : List Instr) : Prop where
  cfgWf : s.cfg.wf = true
  host : s.host = []
  free : s.hung = false
  bench : s.issue = none
  dcHigh : s.dc = true
  running : s.phase ≠ .idle
  inside : s.seq.toNat ≤ s.prog.length
  left : s.remaining = todo

theorem walking_of_inv {s : State} (hs : Inv s) (host : s.host = []) (free : s.hung = false) (running : s.phase ≠ .idle) :
    Walking s s.remaining :=
  { hs with host, free, running, dcHigh := hs.dcHigh free, inside := hs.seqBound running, left := rfl }

theorem Walking.atPrimitive {s : State} {i : Instr} {todo : List Instr} (h : Walking s (i :: todo)) : AtPrimitive s i :=
  ⟨h.free, h.running, by rw [← List.head?_drop, show s.prog.drop s.seq.toNat = _ from h.left]; rfl⟩

theorem walking_passed {s : State} {i : Instr} {todo : List Instr} (h : Walking s (i :: todo)) :
    Walking (passed s i) todo := by
  have succ := h.atPrimitive.seq_succ h.cfgWf
  have left : s.prog.drop (s.seq.toNat + 1) = todo := by
    rw [← List.drop_drop, show s.prog.drop s.seq.toNat = _ from h.left]
    rfl
  exact { h with inside := succ.trans_le h.atPrimitive.seq_lt, left := (congrArg (s.prog.drop ·) succ).trans left }

theorem Walking.done {s : State} (h : Walking s []) : s.seq.toNat = s.prog.length :=
  h.inside.antisymm (List.drop_eq_nil_iff.mp h.left)

/-- The primitive at `seq` goes through when its transaction, if it has one, returns `ok`. -/
theorem Walking.exec_eq {s : State} {i : Instr} {todo : List Instr} (h : Walking s (i :: todo))
    (answer : 0 < txCount i → s.bus.nth 0 = .ok) : exec i s = .next (passed s i) := by
  rcases h.atPrimitive.isPrimitive with ⟨c, rfl⟩ | ⟨b, rfl⟩ | ⟨a, n, rfl⟩ | rfl | rfl | rfl
  · rw [exec_sendCommand h.free, sendCommand_ok c (answer Nat.one_pos)]
    simp [BusDone.state, passed, okEvents, prstAfter, panelAfter, txCount, h.dcHigh]
  · rw [exec_sendData h.free, sendData_ok b (answer Nat.one_pos)]
    simp [BusDone.state, passed, okEvents, prstAfter, panelAfter, txCount, h.dcHigh]
  · obtain ⟨t, e⟩ := prog_exec h.cfgWf h.free (List.mem_of_getElem? h.atPrimitive.next)
    obtain ⟨-, -, -, -, rfl⟩ := sendBytes_next e
    rw [e, sendBytes_ok a n (answer Nat.one_pos)]
    simp [BusDone.state, passed, okEvents, prstAfter, panelAfter, txCount, h.dcHigh]
  · exact exec_rstLow h.free
  · exact exec_rstHigh h.free
  · exact exec_wait h.free

theorem stepsN_of_step {s t : State} (h : step s = .next t) (k : Nat) : stepsN (k + 1) s = stepsN k t := by
  simp only [stepsN, Host.Core.run]
  rw [show Sys2Proof.core.step s = _ from h]

/-- The sequencer walks its list to the end and completes, one step a primitive and one for the completion. -/
theorem Walking.stepsN_eq (todo : List Instr) : ∀ {s : State}, Walking s todo → AnswersOk s (txTotal todo) →
    stepsN (todo.length + 1) s = .next (todo.foldl passed s).complete := by
  induction todo with
  | nil =>
    intro s h _
    exact stepsN_of_step (step_complete (.inl ⟨h.host, rfl⟩) h.free h.bench h.running h.done) 0
  | cons i todo ih =>
    intro s h answers
    have answers : AnswersOk s (txCount i + txTotal todo) := answers
    have first : step s = .next (passed s i) :=
      (step_primitive (.inl ⟨h.host, rfl⟩) h.bench h.atPrimitive).trans (h.exec_eq fun tx => answers 0 (by omega))
    refine (stepsN_of_step first _).trans (ih (walking_passed h) fun k hk => ?_)
    exact (nth_after s.bus (txCount i) k).trans (answers (txCount i + k) (by omega))

/-- What a list of primitives leaves when all of it went through. -/
theorem foldl_passed (is : List Instr) : ∀ s : State, is.foldl passed s =
    { s with
      seq := s.seq + BitVec.ofNat 14 is.length
      trace := s.trace ++ is.flatMap (okEvents s.fb)
      prst := is.foldl prstAfter s.prst
      panel := (is.foldl passed s).panel
      bus := s.bus.after (txTotal is)
      draws := s.draws + (is.flatMap (okEvents s.fb)).length } := by
  induction is with
  | nil => intro s; simp [txTotal]
  | cons i is ih =>
    intro s
    conv_lhs => rw [List.foldl_cons, ih]
    simp [passed, txTotal, BitVec.ofNat_add, BitVec.add_assoc, BitVec.add_comm (1#14), Nat.add_assoc]

/-! ### The list of INIT (R130, R131) -/

/-- Settles O42: the list as it is built, and its length. -/
theorem initProgShape : Obligations.InitProgShape :=
  ⟨fun cfg => ⟨_, rfl, rfl, length_initProg cfg⟩, rfl, rfl, length_initProg Config.defGK⟩

theorem length_initArgs {cfg : Config} (hc : cfg.wf = true) {c : Command} (hi : c ∈ Command.initList) :
    (cfg.initArgs c).length = cfg.nargs c := by
  simp only [Config.wf, Bool.and_eq_true, List.all_eq_true, beq_iff_eq] at hc
  obtain ⟨⟨⟨⟨⟨⟨⟨⟨-, lengths⟩, -⟩, -⟩, -⟩, -⟩, -⟩, -⟩, -⟩ := hc
  exact lengths c hi

theorem txTotal_append (is is' : List Instr) : txTotal (is ++ is') = txTotal is + txTotal is' := by simp [txTotal]

theorem txTotal_framePrims (cfg : Config) (c : Command) (args : List Byte) :
    txTotal (framePrims cfg c args) = 1 + args.length := by
  simp [txTotal, framePrims, txCount, Function.comp_def]

theorem length_okEvents_framePrims (cfg : Config) (c : Command) (args : List Byte) (fb : Mem) :
    ((framePrims cfg c args).flatMap (okEvents fb)).length = 3 + args.length := by
  simp [framePrims, okEvents, List.length_flatMap, Function.comp_def]
  omega

theorem txTotal_initProg (cfg : Config) : txTotal (initProg cfg) = 20 + cfg.initArgTotal := by
  simp only [initProg, txTotal_append, Command.initList, List.flatMap_cons, List.flatMap_nil, txTotal_framePrims,
    Config.initArgTotal, List.map_cons, List.map_nil, List.sum_cons, List.sum_nil]
  simp only [txTotal, txCount, List.map_cons, List.map_nil, List.sum_cons, List.sum_nil]
  omega

theorem flatMap_okEvents_initProg (cfg : Config) (fb : Mem) : (initProg cfg).flatMap (okEvents fb) = initTrace cfg :=
  List.flatMap_congr fun _ hi => okEvents_of_mem_initProg hi fb

/-- One draw an event: 65 and one an argument. -/
theorem length_initTrace (cfg : Config) : (initTrace cfg).length = 65 + cfg.initArgTotal := by
  simp only [initTrace, initProg, List.flatMap_append, List.length_append, Command.initList,
    List.flatMap_cons, List.flatMap_nil, length_okEvents_framePrims, Config.initArgTotal, List.map_cons, List.map_nil,
    List.sum_cons, List.sum_nil, okEvents, List.length_cons, List.length_nil]
  omega

/-- Only RST_LOW and RST_HIGH drive the panel's reset line. -/
theorem foldl_prstAfter (is : List Instr) (l : Bool) (h : ∀ i ∈ is, i ≠ .rstLow ∧ i ≠ .rstHigh) :
    is.foldl prstAfter l = l := by
  induction is with
  | nil => rfl
  | cons i is ih =>
    obtain ⟨noLow, noHigh⟩ := h i List.mem_cons_self
    have same : prstAfter l i = l := by
      cases i with
      | rstLow => exact absurd rfl noLow
      | rstHigh => exact absurd rfl noHigh
      | _ => rfl
    rw [List.foldl_cons, same]
    exact ih fun j hj => h j (List.mem_cons_of_mem i hj)

/-- The reset pulse leaves the panel's reset line high, and nothing after it drives the line. -/
theorem foldl_prstAfter_initProg (cfg : Config) (l : Bool) : (initProg cfg).foldl prstAfter l = true := by
  rw [initProg, List.append_assoc, List.foldl_append]
  refine foldl_prstAfter _ true fun i hi => ?_
  simp only [framePrims, List.mem_append, List.mem_flatMap, List.mem_cons, List.mem_map, List.not_mem_nil, or_false] at hi
  obtain ⟨c, -, rfl | ⟨b, -, rfl⟩⟩ | rfl := hi <;> exact ⟨nofun, nofun⟩

/-! ### What the panel makes of INIT (R137) -/

/-- A panel in sync and at rest, out of the display-RAM stream, that holds the init arguments of the commands `cs` and
nothing else. -/
structure HoldsInit (cfg : Config) (cs : List Command) (p : Panel) : Prop where
  sync : p.sync = true
  atRest : p.pend = none
  noStream : p.stream = false
  reg : ∀ c, p.regOf c = if c ∈ cs then some (cfg.initArgs c) else none

theorem holdsInit_hardReset (cfg : Config) (n : Nat) : HoldsInit cfg [] (Panel.hardReset n) :=
  ⟨rfl, rfl, rfl, fun c => by simp [hardReset_regOf]⟩

theorem passed_wait_panel (s : State) : ([Instr.wait].foldl passed s).panel = s.panel := rfl

theorem foldl_passed_args_panel (args : List Byte) : ∀ s : State,
    ((args.map Instr.sendData).foldl passed s).panel = s.panel.receiveArgs s.cfg s.draws args := by
  induction args with
  | nil => exact fun _ => rfl
  | cons b args ih => exact fun s => ih (passed s (.sendData b))

theorem foldl_passed_frame_panel (s : State) (c : Command) (args : List Byte) :
    ((framePrims s.cfg c args).foldl passed s).panel =
      (s.panel.symbol s.cfg false (s.draws + 1) (s.cfg.opc c)).receiveArgs s.cfg (s.draws + 3) args :=
  foldl_passed_args_panel args (passed s (.sendCommand (s.cfg.opc c)))

theorem foldl_passed_cfg (is : List Instr) (s : State) : (is.foldl passed s).cfg = s.cfg := by rw [foldl_passed]

/-- A complete frame of an init command adds the command to those whose arguments the panel holds. -/
theorem holdsInit_frame {cfg : Config} {s : State} {cs : List Command} {c : Command} (hs : s.cfg = cfg)
    (hc : cfg.wf = true) (hi : c ∈ Command.initList) (h : HoldsInit cfg cs s.panel) :
    HoldsInit cfg (cs ++ [c]) ((framePrims cfg c (cfg.initArgs c)).foldl passed s).panel := by
  subst hs
  have noRam : c ≠ .ramWrite := by
    rintro rfl
    simp [Command.initList] at hi
  obtain ⟨pend, sync, stream, -, recorded⟩ := frame_received hc c (s.cfg.initArgs c) _ _ h.atRest (length_initArgs hc hi)
    (foldl_passed_frame_panel s c (s.cfg.initArgs c))
  refine ⟨sync.trans h.sync, pend, stream.trans (decide_eq_false noRam), fun d => ?_⟩
  rw [recorded h.sync]
  refine (apply_regOf c d _ _).trans ?_
  by_cases hd : d = c
  · simp [hd]
  · rw [if_neg hd]
    exact (h.reg d).trans (by simp [hd])

theorem holdsInit_frames {cfg : Config} (hc : cfg.wf = true) (cs' : List Command) : ∀ {s : State} {cs : List Command},
    s.cfg = cfg → cs' ⊆ Command.initList → HoldsInit cfg cs s.panel →
    HoldsInit cfg (cs ++ cs') ((cs'.flatMap fun c => framePrims cfg c (cfg.initArgs c)).foldl passed s).panel := by
  induction cs' with
  | nil => intro s cs _ _ h; rwa [List.append_nil]
  | cons c cs' ih =>
    intro s cs hs hi h
    obtain ⟨first, rest⟩ := List.cons_subset.mp hi
    have all := ih ((foldl_passed_cfg _ s).trans hs) rest (holdsInit_frame hs hc first h)
    rwa [List.append_assoc, ← List.foldl_append] at all

/-- The panel after the whole list: reset by the pulse, then each frame recorded. -/
theorem holdsInit_initProg {s : State} (hc : s.cfg.wf = true) :
    HoldsInit s.cfg Command.initList ((initProg s.cfg).foldl passed s).panel := by
  have pulse : HoldsInit s.cfg [] ([Instr.rstLow, .wait, .rstHigh, .wait].foldl passed s).panel :=
    holdsInit_hardReset s.cfg s.draws
  rw [initProg, List.foldl_append, List.foldl_append, passed_wait_panel]
  exact holdsInit_frames hc Command.initList (foldl_passed_cfg _ s) (List.Subset.refl _) pulse

/-- What INIT's list leaves when all of it went through: the worked trace, and the panel that heard it. -/
theorem foldl_passed_initProg {s : State} (hc : s.cfg.wf = true) :
    ∃ p, HoldsInit s.cfg Command.initList p ∧ (initProg s.cfg).foldl passed s =
      { s with
        seq := s.seq + BitVec.ofNat 14 (initProg s.cfg).length
        trace := s.trace ++ initTrace s.cfg
        prst := true
        panel := p
        bus := s.bus.after (20 + s.cfg.initArgTotal)
        draws := s.draws + (65 + s.cfg.initArgTotal) } := by
  refine ⟨_, holdsInit_initProg hc, ?_⟩
  conv_lhs => rw [foldl_passed, flatMap_okEvents_initProg, length_initTrace, txTotal_initProg, foldl_prstAfter_initProg]

/-- Settles O45: INIT's list walked to the end, then completed. -/
theorem initRunsToActive : Obligations.InitRunsToActive := by
  intro s hs run start free host answers
  have walk : Walking s (initProg s.cfg) := by
    have h := walking_of_inv hs host free (by simp [run])
    rwa [State.remaining, prog_of_runInit run, start] at h
  have length : 26 + s.cfg.initArgTotal = (initProg s.cfg).length + 1 := by rw [length_initProg]; omega
  obtain ⟨p, holds, final⟩ := foldl_passed_initProg hs.cfgWf
  refine ⟨{ p with cfgd := .active }, ?_, rfl, holds.sync, holds.atRest, holds.noStream,
    fun c hc => (holds.reg c).trans (if_pos hc), fun c hc => (holds.reg c).trans (if_neg hc)⟩
  rw [length, walk.stepsN_eq _ (by rwa [txTotal_initProg]), final]
  simp [complete_of_runInit, run, State.completeInit, State.respond, walk.dcHigh]

end Sys2Proof.Proofs
end

section
/-! PROOFS. The framebuffer engine (`43_framebuffer_engine.md`): SETPIX, FILL and FLUSH as they are accepted (R140 to R142), with
the pixel SETPIX sets (R147) and the frame of the host operations (R149); FLUSH's list, whose chunks together are the whole
buffer (R143, R54); and a FLUSH all of whose transactions return `ok`, with the panel it leaves (R144, R50). -/

namespace Sys2Proof.Proofs

open Sys2Proof.Machine Sys2Proof.Machine.Laws

/-! ### An operation that ends in the step that accepts it -/

/-- The request latched, the framebuffer perhaps written, and the answer given. -/
theorem respond_latch {s : State} (idle : s.phase = .idle) (op : BitVec 2) (y : BitVec 14) (x : BitVec 16) (m : Mem)
    (e : Response) : State.respond { s.latch op y x with fb := m } e =
      { s with rqOp := op, rqX := x, rqY := y, err := e, seq := 0, rsps := s.rsps ++ [e], fb := m } := by
  simp [State.respond, State.latch, idle]

/-! ### SETPIX (R140) -/

theorem exec_setpix_accepted {s : State} (x : BitVec 16) (y : BitVec 14) (free : s.hung = false) (idle : s.phase = .idle)
    (ready : s.cancel = false) : exec (.setpix x y) s =
      .next ((s.latch 1 y x).settle (setpixError (s.latch 1 y x))
        fun s => { s with fb := setPixel s.fb s.rqX.toNat s.rqY.toNat }) :=
  request_accepted (run := fun s => s.settle (setpixError s) fun s => { s with fb := setPixel s.fb s.rqX.toNat s.rqY.toNat })
    free idle ready

theorem pixelInBounds_iff {x : BitVec 16} {y : BitVec 14} : pixelInBounds x y = true ↔ x.toNat < 256 ∧ y.toNat < 64 := by
  rw [pixelInBounds, Bool.and_eq_true, decide_eq_true_eq, decide_eq_true_eq, width, height]

/-- The errors of an accepted SETPIX, in their priority (R168). -/
theorem setpixError_latch (s : State) (x : BitVec 16) (y : BitVec 14) : setpixError (s.latch 1 y x) =
    if x.toNat ≥ 256 ∨ y.toNat ≥ 64 then some .bounds else if s.fbLive = false then some .released else none := by
  have out : ¬ pixelInBounds x y = true ↔ x.toNat ≥ 256 ∨ y.toNat ≥ 64 := by
    rw [pixelInBounds_iff]
    omega
  simp only [setpixError, latch_rqX, latch_rqY, latch_fbLive, Bool.not_eq_true', ← Bool.not_eq_true, out]

/-- SETPIX in range on a live buffer. -/
theorem exec_setpix_live {s : State} {x : BitVec 16} {y : BitVec 14} (free : s.hung = false) (idle : s.phase = .idle)
    (ready : s.cancel = false) (live : s.fbLive = true) (hx : x.toNat < 256) (hy : y.toNat < 64) :
    exec (.setpix x y) s =
      .next (State.respond { s.latch 1 y x with fb := setPixel s.fb x.toNat y.toNat } .ok) := by
  rw [exec_setpix_accepted x y free idle ready, setpixError_latch, if_neg (by omega), if_neg (by simp [live])]
  rfl

theorem laneMask_eq (x : Nat) : laneMask x = if x % 2 = 0 then 0xF0#8 else 0x0F#8 := by
  unfold laneMask
  split_ifs <;> rfl

theorem setPixel_eq (fb : Mem) (x y : Nat) : setPixel fb x y = Mem.write fb (y * 128 + x / 2)
    (Mem.read fb (y * 128 + x / 2) ||| (if x % 2 = 0 then 0xF0#8 else 0x0F#8)) := by
  rw [setPixel, pixelIndex_eq, laneMask_eq]

/-- Settles O15: by the error SETPIX meets, in the order of priority, or the byte it writes. -/
theorem setpixEffect : Obligations.SetpixEffect := by
  refine ⟨fun x y s free idle ready => ?_, fun _ _ _ _ => rfl⟩
  rw [exec_setpix_accepted x y free idle ready, setpixError_latch]
  by_cases out : x.toNat ≥ 256 ∨ y.toNat ≥ 64
  · rw [if_pos out, if_pos out]
    exact congrArg _ (respond_latch idle 1 y x s.fb .bounds)
  · rw [if_neg out, if_neg out]
    by_cases released : s.fbLive = false
    · rw [if_pos released, if_pos released]
      exact congrArg _ (respond_latch idle 1 y x s.fb .released)
    · rw [if_neg released, if_neg released, ← setPixel_eq]
      exact congrArg _ (respond_latch idle 1 y x (setPixel s.fb x.toNat y.toNat) .ok)

/-! ### The pixel it sets (R147) -/

/-- The nibble of a byte that holds a pixel of column `x` (R42). -/
def nibbleOf (x : Nat) (b : Byte) : BitVec 4 := if x % 2 = 0 then b.extractLsb' 4 4 else b.extractLsb' 0 4

theorem pixelOf_eq_nibbleOf (fb : Mem) (x y : Nat) : pixelOf fb x y = nibbleOf x (Mem.read fb (pixelIndex x y)) := rfl

theorem nibbleOf_or (x : Nat) (b m : Byte) : nibbleOf x (b ||| m) = nibbleOf x b ||| nibbleOf x m := by
  unfold nibbleOf
  split_ifs <;> exact BitVec.extractLsb'_or

theorem nibbleOf_laneMask_same (x : Nat) : nibbleOf x (laneMask x) = BitVec.allOnes 4 := by
  unfold nibbleOf laneMask
  split_ifs <;> rfl

theorem nibbleOf_laneMask_other {x x' : Nat} (h : x' % 2 ≠ x % 2) : nibbleOf x' (laneMask x) = 0#4 := by
  unfold nibbleOf laneMask
  split_ifs
  · omega
  · rfl
  · rfl
  · omega

theorem read_setPixel_same {fb : Mem} (hw : Mem.wf fb = true) {x y : Nat} (hx : x < 256) (hy : y < 64) :
    Mem.read (setPixel fb x y) (pixelIndex x y) = Mem.read fb (pixelIndex x y) ||| laneMask x := by
  rw [setPixel, read_write hw (pixelIndex_lt hx hy), if_pos rfl]

theorem read_setPixel_other {fb : Mem} (hw : Mem.wf fb = true) {x y a : Nat} (h : a ≠ pixelIndex x y) :
    Mem.read (setPixel fb x y) a = Mem.read fb a :=
  read_write_other hw _ h

theorem pixelOf_setPixel_same {fb : Mem} (hw : Mem.wf fb = true) {x y : Nat} (hx : x < 256) (hy : y < 64) :
    pixelOf (setPixel fb x y) x y = 0xF := by
  rw [pixelOf_eq_nibbleOf, read_setPixel_same hw hx hy, nibbleOf_or, nibbleOf_laneMask_same, BitVec.or_allOnes]
  rfl

/-- Another pixel is in another byte, or in the other nibble of the same one. -/
theorem pixelOf_setPixel_other {fb : Mem} (hw : Mem.wf fb = true) {x y x' y' : Nat} (hx : x < 256) (hy : y < 64)
    (hx' : x' < 256) (h : ¬(x' = x ∧ y' = y)) : pixelOf (setPixel fb x y) x' y' = pixelOf fb x' y' := by
  rw [pixelOf_eq_nibbleOf, pixelOf_eq_nibbleOf]
  by_cases hi : pixelIndex x' y' = pixelIndex x y
  · obtain ⟨row, half⟩ := (pixelIndex_eq_iff hx' hx).mp hi
    have lane : x' % 2 ≠ x % 2 := by omega
    rw [hi, read_setPixel_same hw hx hy, nibbleOf_or, nibbleOf_laneMask_other lane, BitVec.or_zero]
  · rw [read_setPixel_other hw hi]

/-- Settles O16: the byte that is written, and its two nibbles. -/
theorem setpixSetsOnePixel : Obligations.SetpixSetsOnePixel := by
  intro x y s free idle ready hw live hx hy
  exact ⟨_, exec_setpix_live free idle ready live hx hy, rfl, rfl, pixelOf_setPixel_same hw hx hy,
    fun x' y' hx' _ h => pixelOf_setPixel_other hw hx hy hx' h, fun a h => read_setPixel_other hw h⟩

/-! ### FILL (R141) -/

theorem exec_fill_accepted {s : State} (low : BitVec 30) (free : s.hung = false) (idle : s.phase = .idle)
    (ready : s.cancel = false) : exec (.fill low) s =
      .next ((s.latch 2 (lowY low) (lowX low)).settle (fillError s) fun s => { s with fb := Mem.ofFn bandByte }) :=
  request_accepted (run := fun s => s.settle (fillError s) fun s => { s with fb := Mem.ofFn bandByte }) free idle ready

theorem bandByte_row (r : Nat) {c : Nat} (hc : c < 128) : bandByte (128 * r + c) = if r % 2 = 0 then 0xFF#8 else 0x00#8 := by
  have row : (128 * r + c) / stride = r := by rw [stride]; omega
  rw [bandByte, row]
  rfl

theorem read_bands {r c : Nat} (hr : r < 64) (hc : c < 128) :
    Mem.read (Mem.ofFn bandByte) (128 * r + c) = if r % 2 = 0 then 0xFF#8 else 0x00#8 := by
  rw [read_ofFn bandByte (by rw [Mem.size]; omega), bandByte_row r hc]

/-- Settles O18: the contents are built from the bands, whatever they were. -/
theorem fillWritesBands : Obligations.FillWritesBands := by
  refine ⟨fun low s free idle ready => ⟨fun live => ⟨Mem.ofFn bandByte, ?_, ofFn_wf _, fun _ _ => read_bands⟩,
    fun released => ?_⟩, fun _ _ _ => rfl⟩
  · have noError : fillError s = none := by simp [fillError, live]
    rw [exec_fill_accepted low free idle ready, noError]
    exact congrArg _ (respond_latch idle 2 (lowY low) (lowX low) (Mem.ofFn bandByte) .ok)
  · have error : fillError s = some .released := by simp [fillError, released]
    rw [exec_fill_accepted low free idle ready, error]
    exact congrArg _ (respond_latch idle 2 (lowY low) (lowX low) s.fb .released)

/-! ### The dispatch of FLUSH (R142) -/

theorem exec_flush_accepted {s : State} (low : BitVec 30) (free : s.hung = false) (idle : s.phase = .idle)
    (ready : s.cancel = false) : exec (.flush low) s =
      .next ((s.latch 3 (lowY low) (lowX low)).dispatch (flushError s) .runFlush) :=
  request_accepted (run := fun s => s.dispatch (flushError s) .runFlush) free idle ready

/-- Settles O20: by the error FLUSH meets, in the order of priority. -/
theorem flushDispatch : Obligations.FlushDispatch := by
  refine ⟨fun low s free idle ready => ?_, fun _ _ _ => rfl⟩
  simp only [exec_flush_accepted low free idle ready, flushError, Bool.not_eq_true']
  by_cases released : s.fbLive = false
  · rw [if_pos released, if_pos released]
    exact congrArg _ (respond_latch idle 3 (lowY low) (lowX low) s.fb .released)
  · rw [if_neg released, if_neg released]
    by_cases uninit : s.ctrl = .uninit
    · rw [if_pos uninit, if_pos uninit]
      exact congrArg _ (respond_latch idle 3 (lowY low) (lowX low) s.fb .state)
    · rw [if_neg uninit, if_neg uninit]
      rfl

/-! ### What the host operations leave alone (R149) -/

/-- SETPIX, accepted or not, in range or not, leaves every byte but its pixel's. -/
theorem exec_setpix_read_other {s t : State} {x : BitVec 16} {y : BitVec 14} (hw : Mem.wf s.fb = true)
    (h : exec (.setpix x y) s = .next t) {a : Nat} (ha : a ≠ pixelIndex x.toNat y.toNat) :
    Mem.read t.fb a = Mem.read s.fb a := by
  obtain ⟨-, ⟨-, -, rfl⟩ | ⟨-, rfl⟩⟩ := request_next (show execSetpix x y s = .next t from h)
  · unfold State.settle
    cases setpixError (s.latch 1 y x) with
    | some e => rfl
    | none => exact read_setPixel_other hw ha
  · rfl

/-- Settles O22: of what a host operation can do, only SETPIX and FILL write the framebuffer. -/
theorem hostOpFrame : Obligations.HostOpFrame := by
  intro i s t hi hw h
  have fb : ∀ low, i = .init low ∨ i = .flush low → t.fb = s.fb := by
    rintro low (rfl | rfl) <;> exact exec_fb (by simp) (by simp) h
  have pixel : ∀ x y, i = .setpix x y → ∀ a, a ≠ pixelIndex x.toNat y.toNat → Mem.read t.fb a = Mem.read s.fb a := by
    rintro x y rfl a ha
    exact exec_setpix_read_other hw h ha
  obtain ⟨-, rfl | ⟨-, -, op, y, x, ⟨e, m, -, -, -, -, rfl⟩ | ⟨-, rfl⟩ | ⟨-, -, rfl⟩⟩⟩ := hostOp_next hi h <;>
    exact ⟨rfl, rfl, rfl, rfl, rfl, rfl, rfl, rfl, rfl, rfl, rfl, rfl, rfl, rfl, rfl, fb, pixel⟩
/-! ### FLUSH's list (R143, R54) -/

/-- The bytes of chunk `k`. -/
def chunkBytes (cfg : Config) (fb : Mem) (k : Nat) : List Byte :=
  Mem.readRange fb (k * cfg.chunk) (min cfg.chunk (fbBytes - k * cfg.chunk))

/-- Chunk `k` of `flushChunks`. -/
def chunkInstr (cfg : Config) (k : Nat) : Instr := .sendBytes (k * cfg.chunk) (min cfg.chunk (fbBytes - k * cfg.chunk))

theorem flushChunks_eq (cfg : Config) : flushChunks cfg = (List.range cfg.nchunk).map (chunkInstr cfg) := rfl

/-- The first `n` chunks are the first `n * CHUNK` bytes, as far as the buffer goes. -/
theorem flatMap_chunkBytes (cfg : Config) (fb : Mem) (n : Nat) :
    (List.range n).flatMap (chunkBytes cfg fb) = Mem.readRange fb 0 (min (n * cfg.chunk) fbBytes) := by
  induction n with
  | zero => simp [Mem.readRange]
  | succ n ih =>
    have more : min ((n + 1) * cfg.chunk) fbBytes =
        min (n * cfg.chunk) fbBytes + min cfg.chunk (fbBytes - n * cfg.chunk) := by
      rw [Nat.succ_mul]
      omega
    rw [List.range_succ, List.flatMap_append, ih, List.flatMap_singleton, more, readRange_append, Nat.zero_add]
    by_cases inside : n * cfg.chunk ≤ fbBytes
    · rw [Nat.min_eq_left inside, chunkBytes]
    · simp [chunkBytes, Mem.readRange, Nat.sub_eq_zero_of_le (Nat.le_of_not_le inside)]

/-- `NCHUNK` chunks reach the end of the buffer. -/
theorem fbBytes_le_chunks {cfg : Config} (h : 1 ≤ cfg.chunk) : fbBytes ≤ cfg.nchunk * cfg.chunk := by
  have reach := Nat.lt_mul_div_succ (fbBytes + cfg.chunk - 1) (Nat.lt_of_succ_le h)
  rw [← Config.nchunk, Nat.mul_succ, Nat.mul_comm] at reach
  omega

/-- The chunks together are the whole buffer. -/
theorem flatMap_chunkBytes_all {cfg : Config} (h : 1 ≤ cfg.chunk) (fb : Mem) :
    (List.range cfg.nchunk).flatMap (chunkBytes cfg fb) = Mem.readRange fb 0 8192 := by
  rw [flatMap_chunkBytes, Nat.min_eq_right (fbBytes_le_chunks h), fbBytes]

/-- Settles O43: the list as it is built, its length, and its chunks joined one by one. -/
theorem chunksAreNeutral : Obligations.ChunksAreNeutral := by
  intro cfg fb h _
  refine ⟨rfl, length_flushProg cfg, fun i hi => flushChunks_legal h hi, ?_⟩
  rw [flushChunks_eq, List.flatMap_map]
  exact flatMap_chunkBytes_all h fb

theorem txTotal_flushProg (cfg : Config) : txTotal (flushProg cfg) = 7 + cfg.nchunk := by
  have chunks : txTotal (flushChunks cfg) = cfg.nchunk := by
    simp [txTotal, flushChunks, txCount, Function.comp_def]
  simp only [flushProg, txTotal_append, txTotal_framePrims, chunks, List.length_cons, List.length_nil]

/-- One draw an event: 13 of the three frames and one a chunk. -/
theorem length_flushTrace (cfg : Config) (fb : Mem) : (flushTrace cfg fb).length = 13 + cfg.nchunk := by
  have chunks : ((flushChunks cfg).flatMap (okEvents fb)).length = cfg.nchunk := by
    simp [flushChunks, okEvents, List.length_flatMap, Function.comp_def]
  simp only [flushTrace, flushProg, List.flatMap_append, List.length_append, length_okEvents_framePrims, chunks,
    List.length_cons, List.length_nil]

theorem foldl_prstAfter_flushProg (cfg : Config) (l : Bool) : (flushProg cfg).foldl prstAfter l = l := by
  refine foldl_prstAfter _ l fun i hi => ?_
  simp only [flushProg, flushChunks_eq, framePrims, List.mem_append, List.mem_cons, List.mem_map, List.not_mem_nil,
    or_false] at hi
  obtain (((rfl | ⟨b, -, rfl⟩) | rfl | ⟨b, -, rfl⟩) | rfl | ⟨b, -, rfl⟩) | ⟨k, -, rfl⟩ := hi <;> exact ⟨nofun, nofun⟩

/-- What FLUSH's list leaves when all of it went through: the trace, and the panel that heard it. -/
theorem foldl_passed_flushProg (s : State) : (flushProg s.cfg).foldl passed s =
    { s with
      seq := s.seq + BitVec.ofNat 14 (flushProg s.cfg).length
      trace := s.trace ++ flushTrace s.cfg s.fb
      panel := ((flushProg s.cfg).foldl passed s).panel
      bus := s.bus.after (7 + s.cfg.nchunk)
      draws := s.draws + (13 + s.cfg.nchunk) } := by
  conv_lhs => rw [foldl_passed, txTotal_flushProg, foldl_prstAfter_flushProg, ← flushTrace, length_flushTrace]

/-! ### What the panel makes of FLUSH (R50, R144) -/

/-- A panel at rest in the display-RAM stream, as synchronised and as configured as `p` was. -/
structure Streaming (p q : Panel) : Prop where
  atRest : q.pend = none
  stream : q.stream = true
  sync : q.sync = p.sync
  cfgd : q.cfgd = p.cfgd

/-- Chunks sent to a panel in the stream; in sync, their bytes go to the display RAM one after the other. -/
theorem streaming_chunks (ks : List Nat) : ∀ {s : State} {p : Panel}, Streaming p s.panel →
    Streaming p ((ks.map (chunkInstr s.cfg)).foldl passed s).panel ∧
    (p.sync = true → ((ks.map (chunkInstr s.cfg)).foldl passed s).panel =
      (ks.flatMap (chunkBytes s.cfg s.fb)).foldl (fun q b => q.ramByte b) s.panel) := by
  induction ks with
  | nil => exact fun h => ⟨h, fun _ => rfl⟩
  | cons k ks ih =>
    intro s p h
    obtain ⟨pend, stream, sync, cfgd⟩ :=
      deliver_stream s.cfg s.draws (chunkBytes s.cfg s.fb k) s.panel h.atRest h.stream
    obtain ⟨streaming, bytes⟩ := ih (s := passed s (chunkInstr s.cfg k))
      ⟨pend, stream, sync.trans h.sync, cfgd.trans h.cfgd⟩
    refine ⟨streaming, fun insync => (bytes insync).trans ?_⟩
    rw [List.flatMap_cons, List.foldl_append,
      ← deliver_stream_sync s.cfg s.draws _ _ h.atRest h.stream (h.sync.trans insync)]
    rfl

/-- The frames of FLUSH carry as many arguments as their commands take. -/
theorem flush_nargs {cfg : Config} (hc : cfg.wf = true) :
    cfg.nargs .setcol = 2 ∧ cfg.nargs .setrow = 2 ∧ cfg.nargs .ramWrite = 0 := by
  simp only [Config.wf, Bool.and_eq_true, beq_iff_eq] at hc
  obtain ⟨⟨⟨⟨⟨⟨⟨⟨⟨⟨⟨⟨⟨-, -⟩, -⟩, col⟩, row⟩, ram⟩, -⟩, -⟩, -⟩, -⟩, -⟩, -⟩, -⟩, -⟩ := hc
  exact ⟨col, row, ram⟩

theorem chunk_pos {cfg : Config} (hc : cfg.wf = true) : 1 ≤ cfg.chunk := by
  simp only [Config.wf, Bool.and_eq_true, decide_eq_true_eq] at hc
  obtain ⟨⟨⟨⟨⟨⟨-, pos⟩, -⟩, -⟩, -⟩, -⟩, -⟩ := hc
  exact pos

/-- A window that starts at `(0, 0)` is the full one. -/
theorem window_end {cfg : Config} (hc : cfg.wf = true) (col : cfg.colStart = 0) (row : cfg.rowStart = 0) :
    cfg.colEnd = 127 ∧ cfg.rowEnd = 63 := by
  simp only [Config.wf, Bool.and_eq_true, beq_iff_eq, col, row, stride, height] at hc
  obtain ⟨⟨⟨⟨-, colEnd⟩, rowEnd⟩, -⟩, -⟩ := hc
  exact ⟨BitVec.eq_of_toNat_eq (Nat.succ.inj colEnd), BitVec.eq_of_toNat_eq (Nat.succ.inj rowEnd)⟩

theorem foldl_passed_fb (is : List Instr) (s : State) : (is.foldl passed s).fb = s.fb := by rw [foldl_passed]

/-- A panel in sync after a complete frame (R49). -/
def afterFrame (c : Command) (args : List Byte) (p : Panel) : Panel :=
  { ({ p with stream := decide (c = Command.ramWrite) } : Panel).apply c args with pend := none }

/-- A complete frame of a list, sent to a panel at rest. -/
theorem foldl_passed_frame {cfg : Config} {s : State} (hs : s.cfg = cfg) (hc : cfg.wf = true) (c : Command)
    (args : List Byte) (length : args.length = cfg.nargs c) {p : Panel} (atRest : s.panel.pend = none)
    (hp : ((framePrims cfg c args).foldl passed s).panel = p) :
    p.pend = none ∧ p.sync = s.panel.sync ∧ p.stream = decide (c = Command.ramWrite) ∧ p.cfgd = s.panel.cfgd ∧
    (s.panel.sync = true → p = afterFrame c args s.panel) := by
  subst hs
  exact frame_received hc c args _ _ atRest length (hp.symm.trans (foldl_passed_frame_panel s c args))

/-- The three frames before the chunks. -/
def windowFrames (cfg : Config) : List Instr :=
  framePrims cfg .setcol [cfg.colStart, cfg.colEnd] ++ framePrims cfg .setrow [cfg.rowStart, cfg.rowEnd]
    ++ framePrims cfg .ramWrite []

/-- A panel in sync after the three frames. -/
def afterWindow (cfg : Config) (p : Panel) : Panel :=
  afterFrame .ramWrite [] (afterFrame .setrow [cfg.rowStart, cfg.rowEnd] (afterFrame .setcol [cfg.colStart, cfg.colEnd] p))

theorem flushProg_eq (cfg : Config) : flushProg cfg = windowFrames cfg ++ (List.range cfg.nchunk).map (chunkInstr cfg) := rfl

/-- The three frames open the stream. -/
theorem streaming_windowFrames {s : State} (hc : s.cfg.wf = true) (atRest : s.panel.pend = none) :
    Streaming s.panel ((windowFrames s.cfg).foldl passed s).panel ∧
    (s.panel.sync = true → ((windowFrames s.cfg).foldl passed s).panel = afterWindow s.cfg s.panel) := by
  obtain ⟨colArgs, rowArgs, ramArgs⟩ := flush_nargs hc
  rw [windowFrames, List.foldl_append, List.foldl_append]
  obtain ⟨pend₁, sync₁, -, cfgd₁, heard₁⟩ :=
    foldl_passed_frame rfl hc .setcol [s.cfg.colStart, s.cfg.colEnd] colArgs.symm atRest rfl
  obtain ⟨pend₂, sync₂, -, cfgd₂, heard₂⟩ :=
    foldl_passed_frame (foldl_passed_cfg _ s) hc .setrow [s.cfg.rowStart, s.cfg.rowEnd] rowArgs.symm pend₁ rfl
  obtain ⟨pend₃, sync₃, stream, cfgd₃, heard₃⟩ :=
    foldl_passed_frame ((foldl_passed_cfg _ _).trans (foldl_passed_cfg _ s)) hc .ramWrite [] ramArgs.symm pend₂ rfl
  refine ⟨⟨pend₃, stream, (sync₃.trans sync₂).trans sync₁, (cfgd₃.trans cfgd₂).trans cfgd₁⟩, fun insync => ?_⟩
  have insync₁ := sync₁.trans insync
  rw [heard₃ (sync₂.trans insync₁), heard₂ insync₁, heard₁ insync, afterWindow]

/-- With a window that starts at `(0, 0)` they set the full window and the pointer to its first cell. -/
theorem filled_afterWindow {cfg : Config} (hc : cfg.wf = true) (col : cfg.colStart = 0) (row : cfg.rowStart = 0) {p : Panel}
    (hw : Mem.wf p.ram = true) : Filled [] (afterWindow cfg p) := by
  obtain ⟨colEnd, rowEnd⟩ := window_end hc col row
  exact ⟨hw, ⟨col, colEnd, row, rowEnd⟩, ⟨congrArg BitVec.toNat col, congrArg BitVec.toNat row⟩, by simp⟩

/-- The panel after the whole list: the window set, then filled with the buffer. -/
theorem flushed_panel {s : State} (hc : s.cfg.wf = true) (hw : Mem.wf s.panel.ram = true) (atRest : s.panel.pend = none)
    (col : s.cfg.colStart = 0) (row : s.cfg.rowStart = 0) :
    Streaming s.panel ((flushProg s.cfg).foldl passed s).panel ∧
    (s.panel.sync = true → Filled (Mem.readRange s.fb 0 8192) ((flushProg s.cfg).foldl passed s).panel) := by
  obtain ⟨opened, window⟩ := streaming_windowFrames hc atRest
  obtain ⟨streaming, bytes⟩ := streaming_chunks (List.range s.cfg.nchunk) opened
  rw [foldl_passed_cfg, foldl_passed_fb, flatMap_chunkBytes_all (chunk_pos hc)] at bytes
  rw [foldl_passed_cfg] at streaming
  rw [flushProg_eq, List.foldl_append]
  refine ⟨streaming, fun insync => ?_⟩
  rw [bytes insync, window insync]
  exact filled_foldl (filled_afterWindow hc col row hw) _ (length_readRange _ _ _).le

/-- A panel filled with the whole buffer holds it cell by cell. -/
theorem Filled.cell_eq {fb : Mem} {p : Panel} (h : Filled (Mem.readRange fb 0 8192) p) {c r : Nat} (hc : c < 128)
    (hr : r < 64) : p.cell c r = Mem.read fb (128 * r + c) := by
  have here := h.cells (128 * r + c) (by rw [length_readRange]; omega)
  have column : (128 * r + c) % 128 = c := by omega
  have line : (128 * r + c) / 128 = r := by omega
  rw [getElem?_readRange _ _ _ _ (by omega), Nat.zero_add, column, line] at here
  exact (Option.some.inj here).symm

/-- The completion of FLUSH releases the buffer under SINGLE_USE (R144). -/
theorem completeFlush_eq (s : State) : s.completeFlush =
    { s with
      phase := .idle, seq := 0, err := .ok, rsps := s.rsps ++ [.ok]
      fbLive := if s.cfg.singleUse then false else s.fbLive } := by
  cases h : s.cfg.singleUse <;> simp [State.completeFlush, State.respond, h]

/-- Settles O46: FLUSH's list walked to the end, then completed, and the panel that heard it. -/
theorem flushRunsToCompletion : Obligations.FlushRunsToCompletion := by
  intro s hs run start free host answers
  have walk : Walking s (flushProg s.cfg) := by
    have h := walking_of_inv hs host free (by simp [run])
    rwa [State.remaining, prog_of_runFlush run, start] at h
  have length : 8 + s.cfg.nchunk = (flushProg s.cfg).length + 1 := by rw [length_flushProg]; omega
  refine ⟨((flushProg s.cfg).foldl passed s).panel, ?_, fun atRest col row => ?_⟩
  · rw [length, walk.stepsN_eq _ (by rwa [txTotal_flushProg]), foldl_passed_flushProg]
    simp [complete_of_runFlush, run, completeFlush_eq, walk.dcHigh]
  · obtain ⟨streaming, filled⟩ := flushed_panel hs.cfgWf hs.ramWf atRest col row
    refine ⟨streaming.sync, streaming.cfgd, streaming.atRest, streaming.stream, fun insync => ?_,
      fun _ insync c r hc hr => (filled insync).cell_eq hc hr⟩
    obtain ⟨hc, hr⟩ := (filled insync).pointer
    rw [length_readRange] at hc hr
    exact ⟨BitVec.eq_of_toNat_eq hc, BitVec.eq_of_toNat_eq hr⟩

end Sys2Proof.Proofs
end

section
/-! PROOFS. The exceptions of the block (`60_exceptions.md`): what an operation refused at once leaves alone (R161, R165), the
answer that ends an operation (R160, R164, R168, R169), the released buffer (R166), and `cancel`, which gates acceptance
alone (R167). -/

namespace Sys2Proof.Proofs

open Sys2Proof.Machine Sys2Proof.Machine.Laws

/-! ### `cancel` while the sequencer runs (R167) -/

/-- The level of `cancel` set to `l`. -/
def withCancel (l : Bool) (s : State) : State := { s with cancel := l }

/-- The same in the state a primitive leaves. -/
def doneWithCancel (l : Bool) : BusDone → BusDone
  | .ok s => .ok (withCancel l s)
  | .failed s => .failed (withCancel l s)
  | .hung s => .hung (withCancel l s)

section
variable (l : Bool)

theorem state_doneWithCancel (d : BusDone) : (doneWithCancel l d).state = withCancel l d.state := by cases d <;> rfl

theorem busWrite_withCancel (s : State) (bs : List Byte) :
    (withCancel l s).busWrite bs = doneWithCancel l (s.busWrite bs) := by
  unfold State.busWrite
  rw [show (withCancel l s).answer = s.answer from rfl]
  cases s.answer <;> rfl

theorem restoreDc_withCancel (d : BusDone) : (doneWithCancel l d).restoreDc = doneWithCancel l d.restoreDc := by
  cases d <;> rfl

theorem busFail_withCancel (s : State) : (withCancel l s).busFail = withCancel l s.busFail := by
  rw [busFail_eq, busFail_eq]
  rfl

theorem finish_withCancel (d : BusDone) : (doneWithCancel l d).finish = doneWithCancel l d.finish := by
  cases d with
  | ok s => rfl
  | failed s => exact congrArg BusDone.failed (busFail_withCancel l s)
  | hung s => rfl

theorem sendCommand_withCancel (s : State) (c : Byte) :
    (withCancel l s).sendCommand c = doneWithCancel l (s.sendCommand c) := by
  rw [State.sendCommand, State.sendCommand, ← finish_withCancel, ← restoreDc_withCancel, ← busWrite_withCancel]
  rfl

theorem sendData_withCancel (s : State) (b : Byte) : (withCancel l s).sendData b = doneWithCancel l (s.sendData b) := by
  rw [State.sendData, State.sendData, ← finish_withCancel, ← busWrite_withCancel]

theorem sendBytes_withCancel (s : State) (a n : Nat) :
    (withCancel l s).sendBytes a n = doneWithCancel l (s.sendBytes a n) := by
  rw [State.sendBytes, State.sendBytes, ← finish_withCancel, ← busWrite_withCancel]
  rfl

theorem whenFree_withCancel (s : State) {o o' : Host.Outcome State Fault Refusal} (h : o' = onNext (withCancel l) o) :
    (withCancel l s).whenFree o' = onNext (withCancel l) (s.whenFree o) := by
  unfold State.whenFree
  rw [show (withCancel l s).hung = s.hung from rfl, h]
  cases s.hung <;> rfl

theorem execSendBytes_withCancel (s : State) (a n : Nat) :
    execSendBytes a n (withCancel l s) = onNext (withCancel l) (execSendBytes a n s) := by
  refine whenFree_withCancel l s ?_
  rw [sendBytes_withCancel, state_doneWithCancel, show (withCancel l s).cfg = s.cfg from rfl]
  split_ifs <;> rfl

/-- No primitive of the lists looks at `cancel`. -/
theorem exec_primitive_withCancel {i : Instr} (hi : IsPrimitive i) (s : State) :
    exec i (withCancel l s) = onNext (withCancel l) (exec i s) := by
  rcases hi with ⟨c, rfl⟩ | ⟨b, rfl⟩ | ⟨a, n, rfl⟩ | rfl | rfl | rfl
  · refine whenFree_withCancel l s ?_
    rw [sendCommand_withCancel, state_doneWithCancel]
    rfl
  · refine whenFree_withCancel l s ?_
    rw [sendData_withCancel, state_doneWithCancel]
    rfl
  · exact execSendBytes_withCancel l s a n
  · exact whenFree_withCancel l s rfl
  · exact whenFree_withCancel l s rfl
  · exact whenFree_withCancel l s rfl

theorem complete_withCancel (s : State) : (withCancel l s).complete = withCancel l s.complete := by
  unfold State.complete
  rw [show (withCancel l s).phase = s.phase from rfl]
  cases s.phase <;> rfl

end

/-- What the running sequencer is to do next: nothing at all past its list, its completion, or the primitive at `seq`. -/
theorem running_next {s : State} (free : s.hung = false) (run : s.phase ≠ .idle) :
    s.prog.length < s.seq.toNat ∨ s.seq.toNat = s.prog.length ∨ ∃ i, AtPrimitive s i := by
  rcases Nat.lt_trichotomy s.seq.toNat s.prog.length with before | done | past
  · exact .inr (.inr ⟨_, free, run, List.getElem?_eq_getElem before⟩)
  · exact .inr (.inl done)
  · exact .inl past

theorem step_past {s : State} (host : s.host = []) (free : s.hung = false) (bench : s.issue = none)
    (run : s.phase ≠ .idle) (past : s.prog.length < s.seq.toNat) : step s = .fault .seqOverrun := by
  have out : s.prog[s.seq.toNat]? = none := List.getElem?_eq_none past.le
  have fetched : blockFetch s = .stuck .seqOverrun := by
    simp [blockFetch, sequencerFetch, bench, free, run, past.ne', out]
  rw [step, fetch_blockTurn (.inl ⟨host, rfl⟩), fetched]

/-- Settles O10: whatever stands at `seq`, the step is the same at both levels and hands the level on. -/
theorem cancelOnlyGatesAcceptance : Obligations.CancelOnlyGatesAcceptance := by
  intro s l host bench run
  have turn : BlockTurn s s := .inl ⟨host, rfl⟩
  have turn' : BlockTurn (withCancel l s) (withCancel l s) := .inl ⟨host, rfl⟩
  show step (withCancel l s) = onNext (withCancel l) (step s)
  cases free : s.hung with
  | true =>
    rw [(hangIsStuck s free).2 s turn, (hangIsStuck (withCancel l s) free).2 _ turn']
    rfl
  | false =>
    rcases running_next free run with past | done | ⟨i, here⟩
    · rw [step_past host free bench run past, step_past (s := withCancel l s) host free bench run past]
      rfl
    · rw [step_complete turn free bench run done, step_complete turn' free bench run done, complete_withCancel]
      rfl
    · rw [step_primitive turn bench here, step_primitive turn' bench { here with },
        exec_primitive_withCancel l here.isPrimitive]

/-! ### The answer that ends an operation (R160, R164, R168, R169) -/

/-- From `s` to `t` no request is answered; or one is, with the new `err`, and its operation is over. -/
def AnswersAtMostOne (s t : State) : Prop :=
  (t.rsps = s.rsps ∧ t.err = s.err) ∨
  (t.rsps = s.rsps ++ [t.err] ∧ t.phase = .idle ∧ t.seq = 0 ∧ t.err ≠ .acquisition)

/-- Ending an operation with `e` is one answer, and `e` may be any response with a producer (R164). -/
theorem answersAtMostOne_respond {s u : State} {e : Response} (hu : u.rsps = s.rsps) (he : e ≠ .acquisition) :
    AnswersAtMostOne s (u.respond e) :=
  .inr ⟨congrArg (· ++ [e]) hu, rfl, rfl, he⟩

theorem answersAtMostOne_hostMove {s : State} {m : HostMove} (r : List HostMove) (hm : m ≠ .reset) :
    AnswersAtMostOne s (State.hostMove { s with host := r } m) := by
  cases m with
  | reset => exact absurd rfl hm
  | _ => exact .inl ⟨rfl, rfl⟩

theorem answersAtMostOne_hostOp {s t : State} {i : Instr} (hi : i.isHostOp = true) (h : exec i s = .next t) :
    AnswersAtMostOne s t := by
  obtain ⟨-, rfl | ⟨-, -, op, y, x, ⟨e, m, -, -, -, he, rfl⟩ | ⟨-, rfl⟩ | ⟨-, -, rfl⟩⟩⟩ := hostOp_next hi h
  · exact .inl ⟨rfl, rfl⟩
  · exact answersAtMostOne_respond rfl he
  · exact .inl ⟨rfl, rfl⟩
  · exact .inl ⟨rfl, rfl⟩

theorem answersAtMostOne_complete {s : State} (run : s.phase ≠ .idle) : AnswersAtMostOne s s.complete := by
  rcases running_cases run with hp | hp
  · rw [complete_of_runInit hp]
    exact answersAtMostOne_respond rfl nofun
  · rw [complete_of_runFlush hp]
    exact answersAtMostOne_respond rfl nofun

/-- Of a primitive's outcomes only the failure answers, with the fatal error of the phase (R86). -/
theorem answersAtMostOne_primitive {s t : State} {i : Instr} (hi : IsPrimitive i) (hdc : s.dc = true)
    (h : exec i s = .next t) : AnswersAtMostOne s t := by
  obtain ⟨-, p, b, d, -, rfl | ⟨-, rfl⟩ | ⟨-, rfl⟩⟩ := primitive_next hi hdc h
  · exact .inl ⟨rfl, rfl⟩
  · exact answersAtMostOne_respond rfl (by split_ifs <;> nofun)
  · exact .inl ⟨rfl, rfl⟩

/-- Settles O58: by the ways a step can go. -/
theorem responsesEndOperations : Obligations.ResponsesEndOperations := by
  intro s t hs noReset h
  obtain ⟨m, r, hm, -, rfl⟩ | ⟨free, r, ⟨-, rfl⟩ | ⟨i, q, -, -, hi, h⟩ | ⟨run, -, rfl⟩ | ⟨i, -, -, -, mem, h⟩⟩ :=
    step_next_unbenched hs.bench h
  · exact answersAtMostOne_hostMove r fun e => noReset r (e ▸ hm)
  · exact .inl ⟨rfl, rfl⟩
  · exact answersAtMostOne_hostOp (s := { s with host := r, reqs := q }) hi h
  · exact answersAtMostOne_complete (s := { s with host := r }) run
  · exact answersAtMostOne_primitive (s := { s with host := r }) (prog_isPrimitive mem) (hs.dcHigh free) h

/-! ### The released buffer (V94, V96) -/

theorem releasedIdle_of_live {s : State} (h : s.fbLive = true) : ReleasedIdle s := fun released => by simp [h] at released

/-- Where the released buffer is found in `IDLE` only, the sequencer never runs on one. -/
theorem live_of_releasedIdle {s : State} (h : ReleasedIdle s) (run : s.phase ≠ .idle) : s.fbLive = true := by
  rw [← Bool.not_eq_false]
  exact fun released => run (h released).2

/-- Settles O60: a running sequence has a live buffer, and is over when FLUSH's completion, in ACTIVE, releases it; INIT
is dispatched in UNINIT only, FLUSH on a live buffer only. -/
theorem releasedStaysActive : Obligations.ReleasedStaysActive := by
  intro s t hs hr h
  have live : s.phase ≠ .idle → s.fbLive = true := live_of_releasedIdle hr
  cases step_effect hs h with
  | inputs => exact hr
  | reset => exact releasedIdle_of_live rfl
  | answers => exact fun released => ⟨(hr released).1, rfl⟩
  | startsInit _ _ _ _ _ _ _ uninit =>
    exact fun released => absurd ((hr released).1.symm.trans uninit) nofun
  | startsFlush _ _ _ _ _ _ _ _ bufferLive => exact releasedIdle_of_live bufferLive
  | endsInit => exact fun _ => ⟨rfl, rfl⟩
  | endsFlush _ _ run => exact fun _ => ⟨(hs.flushing run).1, rfl⟩
  | advances _ _ _ _ _ _ here => exact releasedIdle_of_live (live here.running)
  | fails _ _ _ _ _ here => exact releasedIdle_of_live (live here.running)
  | hangs _ _ _ _ here => exact releasedIdle_of_live (live here.running)

/-! ### Operations refused at once (R161, R165) -/

/-- Settles O17: the first branch of SETPIX's effect. -/
theorem outOfBoundsTouchesNothing : Obligations.OutOfBoundsTouchesNothing := by
  intro x y s free idle ready out
  have refused := setpixEffect.1 x y s free idle ready
  rw [if_pos out] at refused
  exact ⟨_, refused, rfl, rfl, rfl, rfl, rfl, rfl, rfl, rfl, rfl, rfl, rfl⟩

/-- Settles O21: the refusing branches of INIT's and FLUSH's dispatch, where `seq` was 0 already. -/
theorem stateErrorCauses : Obligations.StateErrorCauses := by
  refine fun low s free idle ready start => ⟨fun active => ?_, fun uninit live => ?_, rfl⟩
  · have refused := initDispatch.1 low s free idle ready
    rwa [if_pos active, ← start] at refused
  · have refused := flushDispatch.1 low s free idle ready
    rwa [if_neg (by simp [live]), if_pos uninit, ← start] at refused

end Sys2Proof.Proofs
end

section
/-! PROOFS. Block reset and the data/command line (`70_reset_and_hazards.md`): reset from any state (R180), and that the line is low
for one command byte at a time (R184). -/

namespace Sys2Proof.Proofs

open Sys2Proof.Machine Sys2Proof.Machine.Laws

/-! ### Block reset (R180) -/

theorem step_reset {s : State} {r : List HostMove} (h : s.host = .reset :: r) :
    step s = .next (State.blockReset { s with host := r }) := by
  rw [step, fetch, h]
  rfl

/-- Settles O12: the host's move comes before the block's step, so before the gate of a transaction that never returns. -/
theorem blockResetFromAnywhere : Obligations.BlockResetFromAnywhere := by
  refine fun s r h => ⟨_, step_reset h, ?_⟩
  simp only [State.blockReset, State.resetWith, Panel.hardReset, Panel.freeContents, Panel.initial, true_and, and_true]
  exact hardReset_regOf s.draws

/-! ### Framed traces (R184) -/

theorem framed_append {tr evs : List Event} (h : framed tr = true) (h' : framed evs = true) : framed (tr ++ evs) = true := by
  induction tr using framed.induct with
  | case1 => exact h'
  | case2 b r tr ih => exact ih h
  | case3 l tr notCommand => simp [framed] at h
  | case4 bs r tr ih => exact ih h
  | case5 l tr ih => exact ih h
  | case6 ms tr ih => exact ih h

theorem okEvents_framed {i : Instr} (hi : IsPrimitive i) (fb : Mem) : framed (okEvents fb i) = true := by
  rcases hi with ⟨c, rfl⟩ | ⟨b, rfl⟩ | ⟨a, n, rfl⟩ | rfl | rfl | rfl <;> rfl

/-- A command byte that failed is closed by `DC(1)` as well (R80). -/
theorem failEvents_framed {i : Instr} (hi : IsPrimitive i) (fb : Mem) : framed (failEvents fb i) = true := by
  rcases hi with ⟨c, rfl⟩ | ⟨b, rfl⟩ | ⟨a, n, rfl⟩ | rfl | rfl | rfl <;> rfl

/-- A primitive that never returns leaves no event, or the `DC(0)` of its command byte (R87). -/
theorem hangEvents_cases (i : Instr) : hangEvents i = [] ∨ hangEvents i = [.dc false] := by
  cases i with
  | sendCommand c => exact .inr rfl
  | _ => exact .inl rfl

/-! ### The states between whole frames, and the one inside an open frame -/

theorem framedState_of_high {s : State} (high : s.dc = true) (h : framed s.trace = true) : FramedState s := by
  rwa [FramedState, if_pos high]

/-- With nothing outstanding no command byte is open. -/
theorem framed_of_free {s : State} (h : FramedState s) (free : s.hung = false) : s.dc = true ∧ framed s.trace = true := by
  unfold FramedState at h
  split_ifs at h with high
  · exact ⟨high, h⟩
  · exact absurd h.1 (by simp [free])

/-- The line, the gate and the trace are all the statement is about. -/
theorem framedState_of_same {s t : State} (h : FramedState s) (dc : t.dc = s.dc) (hung : t.hung = s.hung)
    (trace : t.trace = s.trace) : FramedState t := by
  rwa [FramedState, dc, hung, trace]

/-- A transaction that never returns: the line is as it was, or its command byte stays open. -/
theorem framedState_hang {s t : State} (i : Instr) (h : framed s.trace = true) (hung : t.hung = true)
    (dc : t.dc = (hangEvents i == [])) (trace : t.trace = s.trace ++ hangEvents i) : FramedState t := by
  rcases hangEvents_cases i with e | e <;> rw [e] at dc trace
  · exact framedState_of_high dc (by rwa [trace, List.append_nil])
  · rw [FramedState, dc]
    exact ⟨hung, s.trace, trace, h⟩

/-! ### Every instruction and every step -/

/-- A primitive adds whole frames and transactions at level 1, or hangs. -/
theorem framedState_primitive {s t : State} {i : Instr} (hi : IsPrimitive i) (h : FramedState s) (free : s.hung = false)
    (e : exec i s = .next t) : FramedState t := by
  obtain ⟨high, whole⟩ := framed_of_free h free
  obtain ⟨-, p, b, d, -, rfl | ⟨-, rfl⟩ | ⟨-, rfl⟩⟩ := primitive_next hi high e
  · exact framedState_of_high high (framed_append whole (okEvents_framed hi s.fb))
  · exact framedState_of_high high (framed_append whole (failEvents_framed hi s.fb))
  · exact framedState_hang i whole rfl rfl rfl

/-- The frame of a command is made of primitives (R90). -/
theorem framedState_sendFrame {s : State} (h : FramedState s) (free : s.hung = false) (c : Command) (args : List Byte) :
    FramedState (s.sendFrame c args).state :=
  sendFrame_induct (fun _ b h free => framedState_primitive (.inl ⟨b, rfl⟩) h free (exec_sendCommand free b))
    (fun _ b h free => framedState_primitive (.inr (.inl ⟨b, rfl⟩)) h free (exec_sendData free b)) s c args h free

theorem framedState_hostOp {s t : State} {i : Instr} (hi : i.isHostOp = true) (h : FramedState s) (e : exec i s = .next t) :
    FramedState t := by
  obtain ⟨-, rfl | ⟨-, -, op, y, x, ⟨err, m, -, -, -, -, rfl⟩ | ⟨-, rfl⟩ | ⟨-, -, rfl⟩⟩⟩ := hostOp_next hi e <;>
    exact framedState_of_same h rfl rfl rfl

theorem instr_levels (i : Instr) : i.isHostOp = true ∨ IsPrimitive i ∨ ∃ c args, i = Instr.ofCommand c args := by
  simpa only [IsPrimitive, or_assoc] using instr_cases i

theorem framedState_exec {s t : State} {i : Instr} (h : FramedState s) (e : exec i s = .next t) : FramedState t := by
  have free := free_of_exec_next e
  rcases instr_levels i with hi | hi | ⟨c, args, rfl⟩
  · exact framedState_hostOp hi h e
  · exact framedState_primitive hi h free e
  · rw [exec_frame free] at e
    cases e
    exact framedState_sendFrame h free c args

theorem framedState_complete {s : State} (h : FramedState s) : FramedState s.complete := by
  unfold State.complete
  cases s.phase <;> exact framedState_of_same h rfl rfl rfl

theorem framedState_resetWith (cfg : Config) : FramedState (State.resetWith cfg) := framedState_of_high rfl rfl

theorem framedState_hostMove {s : State} (h : FramedState s) (m : HostMove) : FramedState (s.hostMove m) := by
  cases m with
  | reset => exact framedState_of_same (framedState_resetWith s.cfg) rfl rfl rfl
  | _ => exact framedState_of_same h rfl rfl rfl

theorem framedState_step {s t : State} (h : FramedState s) (e : step s = .next t) : FramedState t := by
  obtain ⟨m, r, -, -, rfl⟩ | ⟨u, turn, -, e⟩ := step_next e
  · exact framedState_hostMove (s := { s with host := r }) h m
  · have hu : FramedState u := by
      rw [blockTurn_eq turn]
      exact h
    obtain ⟨i, -, e⟩ | ⟨-, -, -, rfl⟩ | ⟨w, q, -, -, -, -, e⟩ | ⟨-, -, -, rfl⟩ | ⟨i, -, -, -, -, e⟩ := e
    · exact framedState_exec (s := { u with issue := none }) hu e
    · exact hu
    · exact framedState_exec (s := { u with reqs := q }) hu e
    · exact framedState_complete hu
    · exact framedState_exec hu e

/-- Settles O52: by what an instruction and a step can do; only a state with a transaction outstanding has the line low, and no
instruction runs there. -/
theorem commandLineFraming : Obligations.CommandLineFraming :=
  ⟨fun _ _ _ => framedState_exec, fun _ _ => framedState_step, framedState_resetWith⟩

end Sys2Proof.Proofs
end

section
/-! PROOFS. The bench port, the model's own (log entry 8): an instruction on it is what the block runs next. -/

namespace Sys2Proof.Proofs

open Sys2Proof.Machine Sys2Proof.Machine.Laws

theorem blockFetch_bench {s : State} {i : Instr} (free : s.hung = false) (bench : s.issue = some i) :
    blockFetch s = .instr i { s with issue := none } := by
  simp [blockFetch, free, bench]

/-- On the block's turn the bench port comes first, whatever the phase and the request port hold. -/
theorem step_bench {s t : State} {i : Instr} (turn : BlockTurn s t) (free : t.hung = false) (bench : t.issue = some i) :
    step s = exec i { t with issue := none } := by
  rw [step, fetch_blockTurn turn, blockFetch_bench free bench]

theorem step_withIssue (s : State) (i : Instr) : step (s.withIssue (some i)) = exec i s.freed :=
  step_bench (.inl ⟨rfl, rfl⟩) rfl rfl

/-- A word of the opcode table that is not of 32 bits puts the instruction it decodes to on the bench port. -/
theorem withFetchWord_symbol (s : State) {nbits w : Nat} {i : Instr} (short : nbits ≠ 32)
    (word : decodeTableWord nbits w = some i) : s.withFetchWord nbits w = s.withIssue (some i) := by
  rw [State.withFetchWord, if_neg short, word]

/-- Settles O8: the turn leaves the port and the outstanding transaction as they were, so the step fetches from the bench port;
and a table word's instruction is put there. -/
theorem stepRunsBench : Obligations.StepRunsBench := by
  refine ⟨fun s t i turn free bench => ?_, fun s nbits w i short word => ?_⟩
  · have e := blockTurn_eq turn
    exact step_bench turn (by rwa [e]) (by rwa [e])
  · rw [withFetchWord_symbol s short word, step_withIssue, State.freed]

end Sys2Proof.Proofs
end
